-- ==== Sys2Proof/Word.lean ====
section
/-!
DEFINITION. The word types of the machine (spec/00_scope.md R5, R7). Every value is unsigned; bit 0 is the
least significant bit.
-/
namespace Sys2Proof

/-- A general register, a timer or a memory byte: `XLEN` = 8 bits (spec/00_scope.md R5). -/
abbrev Byte := BitVec 8

/-- `PC`, `I`, a stack slot, `KEYS` or an instruction word: 16 bits (spec/00_scope.md R5). -/
abbrev Word := BitVec 16

/-- A register index field `X` or `Y` (spec/30_encoding.md R61); every value names a register (R10). -/
abbrev RegIx := BitVec 4

/-- The field `N`, a sprite height (spec/30_encoding.md R61). -/
abbrev Nibble := BitVec 4

/-- The field `NNN`, a 12-bit address (spec/30_encoding.md R61). -/
abbrev Addr12 := BitVec 12

/-- A column of the framebuffer, 0 to 63 (spec/10_state.md R26). -/
abbrev Col := Fin 64

/-- A row of the framebuffer, 0 to 31 (spec/10_state.md R26). -/
abbrev Row := Fin 32

end Sys2Proof
end

