-- ==== Sys2Proof/Syntax.lean ====
section
/-!
DEFINITION. The 35 instructions, one constructor per row of spec/opcode_table.json
(spec/30_encoding.md R66). The fields are those of R61, whether the instruction uses them or ignores them.
-/
namespace Sys2Proof

/-- The instructions of spec/30_encoding.md R66, in the table's order. -/
inductive Instr where
  /-- `CLS`, pattern `00E0`: spec/45_display.md R140. -/
  | cls
  /-- `RET`, pattern `00EE`: spec/41_flow.md R92. -/
  | ret
  /-- `SYS`, pattern `0NNN`: spec/41_flow.md R90; every family-0 word but 0x00E0 and 0x00EE. -/
  | sys (nnn : Addr12)
  /-- `JP`, pattern `1NNN`: spec/41_flow.md R91. -/
  | jp (nnn : Addr12)
  /-- `CALL`, pattern `2NNN`: spec/41_flow.md R93. -/
  | call (nnn : Addr12)
  /-- `SE_IMM`, pattern `3XNN`: spec/42_skip.md R101. -/
  | seImm (x : RegIx) (nn : Byte)
  /-- `SNE_IMM`, pattern `4XNN`: spec/42_skip.md R102. -/
  | sneImm (x : RegIx) (nn : Byte)
  /-- `SE_REG`, pattern `5XY0`: spec/42_skip.md R103. -/
  | seReg (x : RegIx) (y : RegIx)
  /-- `SNE_REG`, pattern `9XY0`: spec/42_skip.md R104. -/
  | sneReg (x : RegIx) (y : RegIx)
  /-- `LD_IMM`, pattern `6XNN`: spec/43_alu.md R110. -/
  | ldImm (x : RegIx) (nn : Byte)
  /-- `ADD_IMM`, pattern `7XNN`: spec/43_alu.md R111. -/
  | addImm (x : RegIx) (nn : Byte)
  /-- `LD_REG`, pattern `8XY0`: spec/43_alu.md R112. -/
  | ldReg (x : RegIx) (y : RegIx)
  /-- `OR`, pattern `8XY1`: spec/43_alu.md R113. -/
  | orReg (x : RegIx) (y : RegIx)
  /-- `AND`, pattern `8XY2`: spec/43_alu.md R114. -/
  | andReg (x : RegIx) (y : RegIx)
  /-- `XOR`, pattern `8XY3`: spec/43_alu.md R115. -/
  | xorReg (x : RegIx) (y : RegIx)
  /-- `ADD_REG`, pattern `8XY4`: spec/43_alu.md R116. -/
  | addReg (x : RegIx) (y : RegIx)
  /-- `SUB`, pattern `8XY5`: spec/43_alu.md R117. -/
  | sub (x : RegIx) (y : RegIx)
  /-- `SHR`, pattern `8XY6`: spec/43_alu.md R118; the field `Y` is encoded and ignored (R68). -/
  | shr (x : RegIx) (y : RegIx)
  /-- `SUBN`, pattern `8XY7`: spec/43_alu.md R119. -/
  | subn (x : RegIx) (y : RegIx)
  /-- `SHL`, pattern `8XYE`: spec/43_alu.md R120; the field `Y` is encoded and ignored (R68). -/
  | shl (x : RegIx) (y : RegIx)
  /-- `LD_I`, pattern `ANNN`: spec/44_index_memory.md R130. -/
  | ldI (nnn : Addr12)
  /-- `JP_V0`, pattern `BNNN`: spec/41_flow.md R94. -/
  | jpV0 (nnn : Addr12)
  /-- `RND`, pattern `CXNN`: spec/43_alu.md R122. -/
  | rnd (x : RegIx) (nn : Byte)
  /-- `DRW`, pattern `DXYN`: spec/45_display.md R141. -/
  | drw (x : RegIx) (y : RegIx) (n : Nibble)
  /-- `SKP`, pattern `EX9E`: spec/46_keys.md R150. -/
  | skp (x : RegIx)
  /-- `SKNP`, pattern `EXA1`: spec/46_keys.md R151. -/
  | sknp (x : RegIx)
  /-- `LD_VX_DT`, pattern `FX07`: spec/47_timers.md R160. -/
  | ldVxDt (x : RegIx)
  /-- `LD_VX_K`, pattern `FX0A`: spec/46_keys.md R152. -/
  | ldVxK (x : RegIx)
  /-- `LD_DT_VX`, pattern `FX15`: spec/47_timers.md R161. -/
  | ldDtVx (x : RegIx)
  /-- `LD_ST_VX`, pattern `FX18`: spec/47_timers.md R162. -/
  | ldStVx (x : RegIx)
  /-- `ADD_I`, pattern `FX1E`: spec/44_index_memory.md R131. -/
  | addI (x : RegIx)
  /-- `LD_F`, pattern `FX29`: spec/44_index_memory.md R132. -/
  | ldF (x : RegIx)
  /-- `LD_B`, pattern `FX33`: spec/44_index_memory.md R133. -/
  | ldB (x : RegIx)
  /-- `LD_MEM_VX`, pattern `FX55`: spec/44_index_memory.md R134. -/
  | ldMemVx (x : RegIx)
  /-- `LD_VX_MEM`, pattern `FX65`: spec/44_index_memory.md R135. -/
  | ldVxMem (x : RegIx)
  deriving DecidableEq, Repr

end Sys2Proof
end

