-- ==== Sys2Proof/WellFormed.lean ====
section
/-!
DEFINITION. Which terms of `Instr` are instructions. Every field is a bit vector of its encoded width, so
"out-of-range fields are structurally impossible" (spec/30_encoding.md R61); one check remains.
-/
namespace Sys2Proof

/-- `SYS` stands for every family-0 word EXCEPT 0x00E0 (`CLS`) and 0x00EE (`RET`) (spec/30_encoding.md R64,
R67), so those two values of `NNN` make no `SYS` instruction. Every other term is well formed. -/
def Instr.wellFormed (i : Instr) : Bool :=
  i != .sys 0x0E0#12 && i != .sys 0x0EE#12

end Sys2Proof
end

