-- ==== Sys2Proof/Decode.lean ====
section
/-!
DEFINITION. Decoding and encoding of the one 16-bit instruction word (spec/30_encoding.md). `decode` is
total: a word decodes to an instruction or is rejected by the name of its class in R67.
-/
namespace Sys2Proof

/-- The classes of invalid words (spec/30_encoding.md R67). Executing any of them answers the status
`INVALID_OPCODE` (spec/60_exceptions.md R172). -/
inductive Reject where
  /-- `5XYn` with `n != 0`. -/
  | family5
  /-- `8XYn` with `n` in 8, 9, A, B, C, D, F. -/
  | family8
  /-- `9XYn` with `n != 0`. -/
  | family9
  /-- `EXkk` with `kk` not in 9E, A1. -/
  | familyE
  /-- `FXkk` with `kk` not among the nine selector bytes. -/
  | familyF
  deriving DecidableEq, Repr

/-! ## Fields (R61) -/

/-- `OP = w[15:12]`. -/
def opField (w : Word) : BitVec 4 := w.extractLsb' 12 4

/-- `X = w[11:8]`. -/
def xField (w : Word) : RegIx := w.extractLsb' 8 4

/-- `Y = w[7:4]`. -/
def yField (w : Word) : RegIx := w.extractLsb' 4 4

/-- `N = w[3:0]`. -/
def nField (w : Word) : Nibble := w.extractLsb' 0 4

/-- `NN = w[7:0]`. -/
def nnField (w : Word) : Byte := w.extractLsb' 0 8

/-- `NNN = w[11:0]`. -/
def nnnField (w : Word) : Addr12 := w.extractLsb' 0 12

/-! ## Decoding (R64, R65) -/

/-- Family 0: exactly 0x00E0 and 0x00EE, everything else is `SYS` (R64). -/
def decodeFamily0 (w : Word) : Instr :=
  if w = 0x00E0#16 then .cls else if w = 0x00EE#16 then .ret else .sys (nnnField w)

/-- Family 8: the selector `N` (R65). -/
def decodeFamily8 (x y : RegIx) (n : Nibble) : Except Reject Instr :=
  match n.toNat with
  | 0x0 => .ok (.ldReg x y)
  | 0x1 => .ok (.orReg x y)
  | 0x2 => .ok (.andReg x y)
  | 0x3 => .ok (.xorReg x y)
  | 0x4 => .ok (.addReg x y)
  | 0x5 => .ok (.sub x y)
  | 0x6 => .ok (.shr x y)
  | 0x7 => .ok (.subn x y)
  | 0xE => .ok (.shl x y)
  | _ => .error .family8

/-- Family E: the selector byte `NN` (R65). -/
def decodeFamilyE (x : RegIx) (nn : Byte) : Except Reject Instr :=
  match nn.toNat with
  | 0x9E => .ok (.skp x)
  | 0xA1 => .ok (.sknp x)
  | _ => .error .familyE

/-- Family F: the selector byte `NN` (R65). -/
def decodeFamilyF (x : RegIx) (nn : Byte) : Except Reject Instr :=
  match nn.toNat with
  | 0x07 => .ok (.ldVxDt x)
  | 0x0A => .ok (.ldVxK x)
  | 0x15 => .ok (.ldDtVx x)
  | 0x18 => .ok (.ldStVx x)
  | 0x1E => .ok (.addI x)
  | 0x29 => .ok (.ldF x)
  | 0x33 => .ok (.ldB x)
  | 0x55 => .ok (.ldMemVx x)
  | 0x65 => .ok (.ldVxMem x)
  | _ => .error .familyF

/-- The decoder of R65: every one of the 65536 words maps to exactly one instruction or to a rejection
(R64). The last arm is family F, the one value of `OP` left. -/
def decode (w : Word) : Except Reject Instr :=
  match (opField w).toNat with
  | 0x0 => .ok (decodeFamily0 w)
  | 0x1 => .ok (.jp (nnnField w))
  | 0x2 => .ok (.call (nnnField w))
  | 0x3 => .ok (.seImm (xField w) (nnField w))
  | 0x4 => .ok (.sneImm (xField w) (nnField w))
  | 0x5 => if nField w = 0 then .ok (.seReg (xField w) (yField w)) else .error .family5
  | 0x6 => .ok (.ldImm (xField w) (nnField w))
  | 0x7 => .ok (.addImm (xField w) (nnField w))
  | 0x8 => decodeFamily8 (xField w) (yField w) (nField w)
  | 0x9 => if nField w = 0 then .ok (.sneReg (xField w) (yField w)) else .error .family9
  | 0xA => .ok (.ldI (nnnField w))
  | 0xB => .ok (.jpV0 (nnnField w))
  | 0xC => .ok (.rnd (xField w) (nnField w))
  | 0xD => .ok (.drw (xField w) (yField w) (nField w))
  | 0xE => decodeFamilyE (xField w) (nnField w)
  | _ => decodeFamilyF (xField w) (nnField w)

/-- The instruction word of two bytes: the byte at the lower address supplies bits 15:8
(spec/20_memory.md R44). -/
def joinBytes (hi lo : Byte) : Word := hi ++ lo

/-- Decoding of the two bytes of an instruction, in address order. -/
def decodeBytes (hi lo : Byte) : Except Reject Instr := decode (joinBytes hi lo)

/-! ## Encoding, from the formats of R62 and the rows of R66 -/

/-- Format `A`: `pNNN`. -/
def encA (op : BitVec 4) (nnn : Addr12) : Word := op ++ nnn

/-- Formats `RI` and `RS`: `pXNN`, where a selector byte stands in the place of `NN`. -/
def encRI (op : BitVec 4) (x : RegIx) (nn : Byte) : Word := (op ++ x : BitVec 8) ++ nn

/-- Formats `RR` and `RRN`: `pXYn`, where `n` is a selector or the operand `N`. -/
def encRR (op : BitVec 4) (x y : RegIx) (n : Nibble) : Word := (op ++ x : BitVec 8) ++ (y ++ n : BitVec 8)

/-- The word of an instruction. -/
def encode : Instr → Word
  | .cls => 0x00E0#16
  | .ret => 0x00EE#16
  | .sys nnn => encA 0x0#4 nnn
  | .jp nnn => encA 0x1#4 nnn
  | .call nnn => encA 0x2#4 nnn
  | .seImm x nn => encRI 0x3#4 x nn
  | .sneImm x nn => encRI 0x4#4 x nn
  | .seReg x y => encRR 0x5#4 x y 0x0#4
  | .sneReg x y => encRR 0x9#4 x y 0x0#4
  | .ldImm x nn => encRI 0x6#4 x nn
  | .addImm x nn => encRI 0x7#4 x nn
  | .ldReg x y => encRR 0x8#4 x y 0x0#4
  | .orReg x y => encRR 0x8#4 x y 0x1#4
  | .andReg x y => encRR 0x8#4 x y 0x2#4
  | .xorReg x y => encRR 0x8#4 x y 0x3#4
  | .addReg x y => encRR 0x8#4 x y 0x4#4
  | .sub x y => encRR 0x8#4 x y 0x5#4
  | .shr x y => encRR 0x8#4 x y 0x6#4
  | .subn x y => encRR 0x8#4 x y 0x7#4
  | .shl x y => encRR 0x8#4 x y 0xE#4
  | .ldI nnn => encA 0xA#4 nnn
  | .jpV0 nnn => encA 0xB#4 nnn
  | .rnd x nn => encRI 0xC#4 x nn
  | .drw x y n => encRR 0xD#4 x y n
  | .skp x => encRI 0xE#4 x 0x9E#8
  | .sknp x => encRI 0xE#4 x 0xA1#8
  | .ldVxDt x => encRI 0xF#4 x 0x07#8
  | .ldVxK x => encRI 0xF#4 x 0x0A#8
  | .ldDtVx x => encRI 0xF#4 x 0x15#8
  | .ldStVx x => encRI 0xF#4 x 0x18#8
  | .addI x => encRI 0xF#4 x 0x1E#8
  | .ldF x => encRI 0xF#4 x 0x29#8
  | .ldB x => encRI 0xF#4 x 0x33#8
  | .ldMemVx x => encRI 0xF#4 x 0x55#8
  | .ldVxMem x => encRI 0xF#4 x 0x65#8

/-- The high byte of a word, stored at the lower address (spec/20_memory.md R44). -/
def hiByte (w : Word) : Byte := w.extractLsb' 8 8

/-- The low byte of a word. -/
def loByte (w : Word) : Byte := w.extractLsb' 0 8

/-- The two bytes of an instruction as memory holds them, lower address first. -/
def encodeBytes (i : Instr) : List Byte := [hiByte (encode i), loByte (encode i)]

/-! ## The opcode map (R66) -/

/-- One row of the opcode map: a word `w` selects it when `w & mask == match`. -/
structure OpcodeRow where
  mnemonic : String
  mask : Word
  pattern : Word
  deriving DecidableEq, Repr

/-- Does the word select the row? -/
def OpcodeRow.selects (r : OpcodeRow) (w : Word) : Bool := w &&& r.mask == r.pattern

/-- Rows 1 to 12 of the opcode map (spec/30_encoding.md R66). -/
def opcodeRows1 : List OpcodeRow := [
  ⟨"CLS", 0xFFFF#16, 0x00E0#16⟩,
  ⟨"RET", 0xFFFF#16, 0x00EE#16⟩,
  ⟨"SYS", 0xF000#16, 0x0000#16⟩,
  ⟨"JP", 0xF000#16, 0x1000#16⟩,
  ⟨"CALL", 0xF000#16, 0x2000#16⟩,
  ⟨"SE_IMM", 0xF000#16, 0x3000#16⟩,
  ⟨"SNE_IMM", 0xF000#16, 0x4000#16⟩,
  ⟨"SE_REG", 0xF00F#16, 0x5000#16⟩,
  ⟨"SNE_REG", 0xF00F#16, 0x9000#16⟩,
  ⟨"LD_IMM", 0xF000#16, 0x6000#16⟩,
  ⟨"ADD_IMM", 0xF000#16, 0x7000#16⟩,
  ⟨"LD_REG", 0xF00F#16, 0x8000#16⟩]

/-- Rows 13 to 24 of the opcode map (spec/30_encoding.md R66). -/
def opcodeRows2 : List OpcodeRow := [
  ⟨"OR", 0xF00F#16, 0x8001#16⟩,
  ⟨"AND", 0xF00F#16, 0x8002#16⟩,
  ⟨"XOR", 0xF00F#16, 0x8003#16⟩,
  ⟨"ADD_REG", 0xF00F#16, 0x8004#16⟩,
  ⟨"SUB", 0xF00F#16, 0x8005#16⟩,
  ⟨"SHR", 0xF00F#16, 0x8006#16⟩,
  ⟨"SUBN", 0xF00F#16, 0x8007#16⟩,
  ⟨"SHL", 0xF00F#16, 0x800E#16⟩,
  ⟨"LD_I", 0xF000#16, 0xA000#16⟩,
  ⟨"JP_V0", 0xF000#16, 0xB000#16⟩,
  ⟨"RND", 0xF000#16, 0xC000#16⟩,
  ⟨"DRW", 0xF000#16, 0xD000#16⟩]

/-- Rows 25 to 35 of the opcode map (spec/30_encoding.md R66). -/
def opcodeRows3 : List OpcodeRow := [
  ⟨"SKP", 0xF0FF#16, 0xE09E#16⟩,
  ⟨"SKNP", 0xF0FF#16, 0xE0A1#16⟩,
  ⟨"LD_VX_DT", 0xF0FF#16, 0xF007#16⟩,
  ⟨"LD_VX_K", 0xF0FF#16, 0xF00A#16⟩,
  ⟨"LD_DT_VX", 0xF0FF#16, 0xF015#16⟩,
  ⟨"LD_ST_VX", 0xF0FF#16, 0xF018#16⟩,
  ⟨"ADD_I", 0xF0FF#16, 0xF01E#16⟩,
  ⟨"LD_F", 0xF0FF#16, 0xF029#16⟩,
  ⟨"LD_B", 0xF0FF#16, 0xF033#16⟩,
  ⟨"LD_MEM_VX", 0xF0FF#16, 0xF055#16⟩,
  ⟨"LD_VX_MEM", 0xF0FF#16, 0xF065#16⟩]

/-- The opcode map: the 35 rows of R66. -/
def opcodeTable : List OpcodeRow := opcodeRows1 ++ opcodeRows2 ++ opcodeRows3

/-- The row of an instruction. -/
def Instr.row : Instr → OpcodeRow
  | .cls => ⟨"CLS", 0xFFFF#16, 0x00E0#16⟩
  | .ret => ⟨"RET", 0xFFFF#16, 0x00EE#16⟩
  | .sys _ => ⟨"SYS", 0xF000#16, 0x0000#16⟩
  | .jp _ => ⟨"JP", 0xF000#16, 0x1000#16⟩
  | .call _ => ⟨"CALL", 0xF000#16, 0x2000#16⟩
  | .seImm _ _ => ⟨"SE_IMM", 0xF000#16, 0x3000#16⟩
  | .sneImm _ _ => ⟨"SNE_IMM", 0xF000#16, 0x4000#16⟩
  | .seReg _ _ => ⟨"SE_REG", 0xF00F#16, 0x5000#16⟩
  | .sneReg _ _ => ⟨"SNE_REG", 0xF00F#16, 0x9000#16⟩
  | .ldImm _ _ => ⟨"LD_IMM", 0xF000#16, 0x6000#16⟩
  | .addImm _ _ => ⟨"ADD_IMM", 0xF000#16, 0x7000#16⟩
  | .ldReg _ _ => ⟨"LD_REG", 0xF00F#16, 0x8000#16⟩
  | .orReg _ _ => ⟨"OR", 0xF00F#16, 0x8001#16⟩
  | .andReg _ _ => ⟨"AND", 0xF00F#16, 0x8002#16⟩
  | .xorReg _ _ => ⟨"XOR", 0xF00F#16, 0x8003#16⟩
  | .addReg _ _ => ⟨"ADD_REG", 0xF00F#16, 0x8004#16⟩
  | .sub _ _ => ⟨"SUB", 0xF00F#16, 0x8005#16⟩
  | .shr _ _ => ⟨"SHR", 0xF00F#16, 0x8006#16⟩
  | .subn _ _ => ⟨"SUBN", 0xF00F#16, 0x8007#16⟩
  | .shl _ _ => ⟨"SHL", 0xF00F#16, 0x800E#16⟩
  | .ldI _ => ⟨"LD_I", 0xF000#16, 0xA000#16⟩
  | .jpV0 _ => ⟨"JP_V0", 0xF000#16, 0xB000#16⟩
  | .rnd _ _ => ⟨"RND", 0xF000#16, 0xC000#16⟩
  | .drw _ _ _ => ⟨"DRW", 0xF000#16, 0xD000#16⟩
  | .skp _ => ⟨"SKP", 0xF0FF#16, 0xE09E#16⟩
  | .sknp _ => ⟨"SKNP", 0xF0FF#16, 0xE0A1#16⟩
  | .ldVxDt _ => ⟨"LD_VX_DT", 0xF0FF#16, 0xF007#16⟩
  | .ldVxK _ => ⟨"LD_VX_K", 0xF0FF#16, 0xF00A#16⟩
  | .ldDtVx _ => ⟨"LD_DT_VX", 0xF0FF#16, 0xF015#16⟩
  | .ldStVx _ => ⟨"LD_ST_VX", 0xF0FF#16, 0xF018#16⟩
  | .addI _ => ⟨"ADD_I", 0xF0FF#16, 0xF01E#16⟩
  | .ldF _ => ⟨"LD_F", 0xF0FF#16, 0xF029#16⟩
  | .ldB _ => ⟨"LD_B", 0xF0FF#16, 0xF033#16⟩
  | .ldMemVx _ => ⟨"LD_MEM_VX", 0xF0FF#16, 0xF055#16⟩
  | .ldVxMem _ => ⟨"LD_VX_MEM", 0xF0FF#16, 0xF065#16⟩

/-! ## The host's form of a table word -/

/-- The low `nbits` bits of `w` as an instruction word; bits above `nbits` are 0. -/
def tableWord (nbits w : Nat) : Word := BitVec.ofNat 16 (w % 2 ^ nbits)

/-- The instruction the decoder reads from a word numbered as spec/opcode_table.json numbers it: the word is
laid out high byte first and its two bytes are given to the decoder. -/
def decodeTableWord (nbits w : Nat) : Option Instr :=
  (decodeBytes (hiByte (tableWord nbits w)) (loByte (tableWord nbits w))).toOption

end Sys2Proof
end

