-- ==== Sys2Proof/Config.lean ====
section
/-!
DEFINITION. What is fixed for the machine and what is free (spec/00_scope.md R5, R6): the configuration, and the
random byte. The values the spec gives the configuration stand in Sys2Proof/Machine/Params.lean.
-/
namespace Sys2Proof

/-- What the sprite compositor does with a pixel beyond the grid: the two policies the spec names
(spec/45_display.md R143). The machine's choice is `Sys2Proof.Machine.edgePolicy`. -/
inductive EdgePolicy where
  /-- The coordinates are reduced modulo 64 and modulo 32. -/
  | wrap
  /-- A pixel outside the grid is neither toggled nor counted as a collision. -/
  | clip
  deriving DecidableEq, Repr

/-- The configuration: every parameter of spec/00_scope.md R5 whose figure does not stand in the source, so that a
claim can name or quantify over it. A step takes it as an input, "not state but an input of a step" (R6). The open
parameter `END_OF_RUN` is the argument `ended` of `Sys2Proof.Machine.runUntil` (log 27). -/
structure Config where
  /-- `MEM_SIZE`: bytes of memory (decision D1). -/
  memSize : Nat
  /-- `STACK_DEPTH`: the number of occupied slots at which `2NNN` overflows (decision D6). The state holds 16 slots;
  a greater depth ends in the fault `stackSlotAbsent` when a call would use a further one (log 9). -/
  stackDepth : Nat
  /-- `STACK_ENTRY_BITS`: how many bits of a return address a slot keeps (decision D6); with 16 or more it keeps all
  of them. That a narrower slot keeps the low bits is a DESIGN CHOICE (log 33). -/
  stackEntryBits : Nat
  /-- `FONT_BASE` (decision D2). -/
  fontBase : Nat
  /-- `GLYPH_BYTES` (decision D3). -/
  glyphBytes : Nat
  /-- `FONT_TABLE` (decision D4). -/
  fontTable : List Byte
  /-- `PROGRAM_BASE` (decision D5). `PC` starts at its low 16 bits, a DESIGN CHOICE above 0xFFFF (log 33). -/
  programBase : Nat
  /-- `EDGE_POLICY` (decision D16). -/
  edgePolicy : EdgePolicy
  deriving DecidableEq, Repr

/-- FREE VALUE (log 3): the byte `Draw8()` supplied to the `n`-th `CXNN` step of a run, "any value 0 .. 255,
supplied from outside, under no law" (spec/43_alu.md R122). It has no body: no proof can know a value of it. -/
opaque Config.draw8 : Nat → Byte

end Sys2Proof
end

