-- ==== Sys2Proof/Machine/Params.lean ====
section
/-!
DEFINITION. The implementation parameters of spec/00_scope.md R5, each at the value the spec gives it, and the
configuration they make. The figures that stand in the source (register count and width, widths of `PC` and `I`, the
framebuffer's size, the keys, the timers) stand in the types of Sys2Proof/Word.lean and Sys2Proof/Machine/State.lean.
-/
namespace Sys2Proof.Machine

/-- `MEM_SIZE`: 4096 bytes (R5, spec/20_memory.md R40, decision D1, log 5). -/
abbrev memSize : Nat := 4096

/-- `STACK_DEPTH`: 16 entries (R5, spec/10_state.md R16, decision D6, log 8). -/
abbrev stackDepth : Nat := 16

/-- `STACK_ENTRY_BITS`: 16, the width of a `PC` value (R5, spec/10_state.md R16, decision D6, log 8). -/
abbrev stackEntryBits : Nat := 16

/-- `FONT_BASE`: 0 (R5, decision D2, log 6). -/
abbrev fontBase : Nat := 0

/-- `GLYPH_BYTES`: 5 (R5, decision D3, log 6). -/
abbrev glyphBytes : Nat := 5

/-- `PROGRAM_BASE`: 0x200 (R5, decision D5, log 7). -/
abbrev programBase : Nat := 0x200

/-- `FLAG_REG`: register 15, `VF` (R5, spec/10_state.md R12). -/
abbrev flagReg : RegIx := 15#4

/-- `ILEN`: one instruction is 2 bytes (R5, spec/30_encoding.md R60). -/
abbrev instrBytes : Word := 2#16

/-- `EDGE_POLICY`: wrap (R5, spec/45_display.md R143, decision D16, log 17). -/
abbrev edgePolicy : EdgePolicy := .wrap

/-- `FONT_TABLE`: the 80 bytes of spec/20_memory.md R47, glyph `d` at offset `5 * d` (decision D4, log 6). -/
def fontTable : List Byte :=
  [0xF0, 0x90, 0x90, 0x90, 0xF0] ++ [0x20, 0x60, 0x20, 0x20, 0x70] ++
  [0xF0, 0x10, 0xF0, 0x80, 0xF0] ++ [0xF0, 0x10, 0xF0, 0x10, 0xF0] ++
  [0x90, 0x90, 0xF0, 0x10, 0x10] ++ [0xF0, 0x80, 0xF0, 0x10, 0xF0] ++
  [0xF0, 0x80, 0xF0, 0x90, 0xF0] ++ [0xF0, 0x10, 0x20, 0x40, 0x40] ++
  [0xF0, 0x90, 0xF0, 0x90, 0xF0] ++ [0xF0, 0x90, 0xF0, 0x10, 0xF0] ++
  [0xF0, 0x90, 0xF0, 0x90, 0x90] ++ [0xE0, 0x90, 0xE0, 0x90, 0xE0] ++
  [0xF0, 0x80, 0x80, 0x80, 0xF0] ++ [0xE0, 0x90, 0x90, 0x90, 0xE0] ++
  [0xF0, 0x80, 0xF0, 0x80, 0xF0] ++ [0xF0, 0x80, 0xF0, 0x80, 0x80]

/-- The configuration the spec gives the machine. `step` and `exec` are the machine at this configuration;
`stepIn` and `execIn` take any. -/
abbrev params : Config where
  memSize := memSize
  stackDepth := stackDepth
  stackEntryBits := stackEntryBits
  fontBase := fontBase
  glyphBytes := glyphBytes
  fontTable := fontTable
  programBase := programBase
  edgePolicy := edgePolicy

end Sys2Proof.Machine
end

