-- ==== Sys2Proof/Machine/Memory.lean ====
section
/-!
DEFINITION. The main memory `MEM` (spec/20_memory.md R40): bytes at addresses 0 to 4095, held as a list of
cells in one canonical form. Every rule of the instruction set checks its address range before it reads or
writes (R43), so these operations are only ever applied below the size of memory.
-/
namespace Sys2Proof.Machine

/-- `MEM` as the list of the cells that differ from their reset contents. -/
abbrev Memory := List Host.Cell

/-- What an unlisted address reads as: its contents after reset, the font table at `FONT_BASE` and 0
everywhere else (spec/20_memory.md R46, R47; spec/70_reset_and_hazards.md R200; log 31). -/
def Memory.resetByte (a : Nat) : Byte :=
  if fontBase ≤ a then fontTable.getD (a - fontBase) 0 else 0

/-- `MemRead(a, 1)` (spec/00_scope.md R7). -/
def Memory.read : Memory → Nat → Byte
  | [], a => Memory.resetByte a
  | (k, c) :: m, a => if k = a then c else Memory.read m a

/-- Puts a cell in front, unless it says what an unlisted address reads as. -/
def Memory.cons (a : Nat) (b : Byte) (m : Memory) : Memory :=
  if b = Memory.resetByte a then m else (a, b) :: m

/-- `MemWrite(a, 1, b)` (spec/00_scope.md R7). It keeps the canonical form: a cell that says what an unlisted
address reads as is not listed. -/
def Memory.write : Memory → Nat → Byte → Memory
  | [], a, b => Memory.cons a b []
  | (k, c) :: m, a, b =>
    if a < k then Memory.cons a b ((k, c) :: m)
    else if a = k then Memory.cons a b m
    else (k, c) :: Memory.write m a b

/-- Writes a sequence of bytes at ascending addresses from `a` on. -/
def Memory.writeBytes : Memory → Nat → List Byte → Memory
  | m, _, [] => m
  | m, a, b :: bs => Memory.writeBytes (Memory.write m a b) (a + 1) bs

/-- Reads `n` bytes at ascending addresses from `a` on. -/
def Memory.readBytes (m : Memory) (a : Nat) : Nat → List Byte
  | 0 => []
  | n + 1 => Memory.read m a :: Memory.readBytes m (a + 1) n

/-- The canonical form above an address: addresses rise strictly from `lo` on, lie below `size`, and no
cell says what an unlisted address reads as. -/
def Memory.wfFrom (size : Nat) : Nat → Memory → Bool
  | _, [] => true
  | lo, (k, c) :: m =>
    decide (lo ≤ k) && decide (k < size) && c != Memory.resetByte k && Memory.wfFrom size (k + 1) m

/-- The canonical form of a memory of `size` bytes. -/
def Memory.wfIn (size : Nat) (m : Memory) : Bool := Memory.wfFrom size 0 m

/-- The canonical form of `MEM`. -/
abbrev Memory.wf (m : Memory) : Bool := Memory.wfIn memSize m

/-- Does an access of `len` bytes from address `a` on stay within a memory of `size` bytes? An access of no byte
always does (the table of spec/20_memory.md R43; `I + k` is computed without wrap-around, R42). -/
def accessInRange (size a len : Nat) : Bool := len == 0 || decide (a + len ≤ size)

end Sys2Proof.Machine
end

