-- ==== Sys2Proof/Machine/State.lean ====
section
/-!
DEFINITION. The Machine State of spec/10_state.md as plain data, its value after reset, and the reasons a step
can stop. Four fields are the model's own: they hold the inputs and outputs of the step transaction (R31) and
the error record that spec/60_exceptions.md R180 asks a model to keep.
-/
namespace Sys2Proof.Machine

/-- The framebuffer as the 2-D grid of spec/10_state.md R26: row `y`, and in it column `x`. -/
abbrev Framebuffer := Vector (Vector Bool 64) 32

/-- The result of a step (spec/60_exceptions.md R170); the spec's numeric codes are arbitrary (decision D22)
and are the order of the constructors. -/
inductive Status where
  /-- The instruction executed; the timers counted down. -/
  | success
  /-- `0NNN`, always (R171). -/
  | unsupportedOpcode
  /-- The word matches no row of the opcode map (R172). -/
  | invalidOpcode
  /-- `2NNN` with 16 occupied slots (R173). -/
  | stackOverflow
  /-- `00EE` with no occupied slot (R173). -/
  | stackUnderflow
  /-- An access above `MEM_SIZE - 1` by fetch, `FX33`, `FX55`, `FX65` or `DXYN` (R174). -/
  | memRange
  /-- The step was spent in the key wait of `FX0A`; a hold, not an error (R175). -/
  | keyWait
  /-- The key wait was abandoned at the host's request (R175). -/
  | waitCancelled
  deriving DecidableEq, Repr

/-- The state of the machine. -/
structure State where
  /-- `V[0..15]` (R10). -/
  v : Vector Byte 16
  /-- `I` (R13). -/
  i : Word
  /-- `PC` (R14). -/
  pc : Word
  /-- `STACK[0..15]` (R16). -/
  stack : Vector (BitVec stackEntryBits) stackDepth
  /-- `SP`, the number of occupied slots, 0 to 16, held in 5 bits (R17). -/
  sp : BitVec 5
  /-- `DT` (R20). -/
  dt : Byte
  /-- `ST` (R21). -/
  st : Byte
  /-- `KEYS`, written by the input source only (R24). -/
  keys : Word
  /-- `MEM` (R30). -/
  mem : Memory
  /-- `FB` (R26). -/
  fb : Framebuffer
  /-- `DIRTY` (R27). -/
  dirty : Bool
  /-- `WAIT` (R29). -/
  wait : Bool
  /-- `WAIT_X` (R29). -/
  waitX : RegIx
  /-- `KEY_PREV` (R29). -/
  keyPrev : Word
  /-- THE MODEL'S OWN (log 2): the `cancel` input of the next step (R31), written by the host only. -/
  cancel : Bool
  /-- THE MODEL'S OWN (log 3): how many random bytes have been drawn; the next is `Config.draw8 draws`. -/
  draws : Nat
  /-- THE MODEL'S OWN (log 1): the status the last step returned (R31), none before the first step. -/
  status : Option Status
  /-- THE MODEL'S OWN (log 1): an error status has been returned (spec/60_exceptions.md R180). -/
  errorSeen : Bool
  deriving DecidableEq, Repr

/-- Why the machine stops. The spec's error statuses are no faults: a step that returns one leaves a state from
which the core can go on (spec/40_cycle.md R85), so they are next states. -/
inductive Fault where
  /-- Raised by `CALL` and `RET` when they would reach a stack slot of index 16 or more, which does not exist
  (spec/10_state.md R16). Only a state whose `SP` is above 16 raises it, which R17 excludes. SAFE: the model stops
  where the spec says nothing (log 9). -/
  | stackSlotAbsent
  deriving DecidableEq, Repr

/-- Why an instruction has no meaning in the model. -/
inductive Refusal where
  /-- Raised by an arm of `exec` whose instruction has no meaning yet. SAFE: nothing is claimed of it. -/
  | notModelled (mnemonic : String)
  deriving DecidableEq, Repr

/-- The state right after `Reset` with no image (spec/70_reset_and_hazards.md R200, spec/10_state.md R32): every
item 0 but `PC`, with the font in memory (the unlisted contents, log 31). The last four fields are the model's
own (logs 1, 2, 3). -/
def State.reset : State where
  v := Vector.replicate 16 0
  i := 0
  pc := BitVec.ofNat 16 programBase
  stack := Vector.replicate stackDepth 0
  sp := 0
  dt := 0
  st := 0
  keys := 0
  mem := []
  fb := Vector.replicate 32 (Vector.replicate 64 false)
  dirty := false
  wait := false
  waitX := 0
  keyPrev := 0
  cancel := false
  draws := 0
  status := none
  errorSeen := false

end Sys2Proof.Machine
end

