-- ==== Sys2Proof/Machine/Ops.lean ====
section
/-!
DEFINITION. The named operations over the state, and the one way an instruction ends: with a status
(spec/60_exceptions.md R170, R176).
-/
namespace Sys2Proof.Machine

/-! ## General registers (spec/10_state.md R10) -/

/-- `V[x]`. No register is hard-wired and none aliases another. -/
def State.reg (s : State) (x : RegIx) : Byte := s.v[x.toNat]'x.isLt

/-- `V[x] <- b`. -/
def State.writeReg (s : State) (x : RegIx) (b : Byte) : State :=
  { s with v := s.v.set x.toNat b x.isLt }

/-- The two writes of a flag-setting arithmetic instruction, in the source's order: the flag, then the result,
so that with `x = 15` the result stands (spec/43_alu.md R121, decision D14, log 15). -/
def State.writeFlagResult (s : State) (x : RegIx) (flag result : Byte) : State :=
  (s.writeReg flagReg flag).writeReg x result

/-! ## Special registers -/

/-- `I <- w` (R13). -/
def State.setI (s : State) (w : Word) : State := { s with i := w }

/-- `PC <- w` (R14). -/
def State.setPc (s : State) (w : Word) : State := { s with pc := w }

/-- `DT <- b` (R20). -/
def State.setDt (s : State) (b : Byte) : State := { s with dt := b }

/-- `ST <- b` (R21). -/
def State.setSt (s : State) (b : Byte) : State := { s with st := b }

/-- `PC <- (PC + 2) mod 2^16`: the advance before dispatch (spec/40_cycle.md R82). -/
def State.advancePc (s : State) : State := s.setPc (s.pc + instrBytes)

/-- `Skip()`: `PC <- (PC + 2) mod 2^16` once more, when the condition holds (spec/40_cycle.md R86). -/
def State.skipIf (s : State) (condition : Bool) : State :=
  if condition then s.setPc (s.pc + instrBytes) else s

/-! ## Call stack (spec/10_state.md R16, R17) -/

/-- `STACK[k]`, where there is such a slot. -/
def State.slot? (s : State) (k : Nat) : Option Word := s.stack[k]?

/-- What a slot keeps of a return address: at the spec's `STACK_ENTRY_BITS` of 16 (spec/00_scope.md R5), and at any
greater width, the whole address. DESIGN CHOICE (log 33): at a smaller width, its low bits; the spec gives no
truncation. -/
def stackEntry (c : Config) (w : Word) : Word := BitVec.ofNat 16 (w.toNat % 2 ^ c.stackEntryBits)

/-- A push: writes `STACK[SP]`, then increments `SP`; none when `STACK[SP]` does not exist. -/
def State.push? (s : State) (w : Word) : Option State :=
  if h : s.sp.toNat < stackDepth then some { s with stack := s.stack.set s.sp.toNat w h, sp := s.sp + 1 } else none

/-- A pop: decrements `SP`, then reads `STACK[SP]`, and leaves the slot as it is; none when that slot does not
exist. Used with `SP` above 0 only. -/
def State.pop? (s : State) : Option (Word × State) :=
  (s.slot? (s.sp.toNat - 1)).map fun w => (w, { s with sp := s.sp - 1 })

/-! ## Memory, the framebuffer, the key wait, the draw -/

/-- Replaces `MEM`. -/
def State.setMem (s : State) (m : Memory) : State := { s with mem := m }

/-- Replaces `FB` and sets `DIRTY`, as every drawing instruction does (spec/10_state.md R27). -/
def State.setFb (s : State) (fb : Framebuffer) : State := { s with fb := fb, dirty := true }

/-- The issue of a key wait: `WAIT <- 1`, `WAIT_X <- x`, `KEY_PREV <- KEYS` (spec/46_keys.md R152). -/
def State.beginWait (s : State) (x : RegIx) : State :=
  { s with wait := true, waitX := x, keyPrev := s.keys }

/-- `WAIT <- 0` (spec/46_keys.md R153, R155). -/
def State.endWait (s : State) : State := { s with wait := false }

/-- `KEY_PREV <- KEYS`: a poll without a press (spec/46_keys.md R153). -/
def State.sampleKeys (s : State) : State := { s with keyPrev := s.keys }

/-- `Draw8()` consumed: the next draw is another one (spec/43_alu.md R122, log 3). -/
def State.consumeDraw (s : State) : State := { s with draws := s.draws + 1 }

/-! ## How a step ends (spec/60_exceptions.md R170 to R180)

There is no handler, no vector and no saved state: an error's whole effect is the status it returns and the
absence of the instruction's effects (R176), and there is nothing to return from (R180). -/

/-- The statuses of class "error" (spec/60_exceptions.md R170): all but `SUCCESS` and `KEY_WAIT`. -/
def Status.isError : Status → Bool
  | .success => false
  | .unsupportedOpcode => true
  | .invalidOpcode => true
  | .stackOverflow => true
  | .stackUnderflow => true
  | .memRange => true
  | .keyWait => false
  | .waitCancelled => true

/-- Records the status a step returns, and that it was an error if it was one (log 1). -/
def State.returnStatus (s : State) (st : Status) : State :=
  { s with status := some st, errorSeen := s.errorSeen || st.isError }

/-- `raise st`, or `return st` for `KEY_WAIT`: the instruction ends with the status and writes nothing else. -/
def answer (st : Status) (s : State) : Host.Outcome State Fault Refusal := .next (s.returnStatus st)

/-- `return SUCCESS`. -/
def succeed (s : State) : Host.Outcome State Fault Refusal := answer .success s

/-- A timer's countdown: one less, clamped at 0 (spec/60_exceptions.md R185). -/
def timerTick (t : Byte) : Byte := if t.toNat > 0 then t - 1 else t

/-- `Countdown()`: both timers, independently (spec/60_exceptions.md R185). -/
def State.countdown (s : State) : State := { s with dt := timerTick s.dt, st := timerTick s.st }

end Sys2Proof.Machine
end

