-- ==== Sys2Proof/Machine/Operands.lean ====
section
/-!
DEFINITION. The operand forms: immediates (spec/30_encoding.md R63), effective addresses
(spec/20_memory.md R42), the key a register names (spec/46_keys.md R157), a glyph's address
(spec/44_index_memory.md R132), the decimal digits (R133) and the placing of a pixel (spec/45_display.md R143).
Register operands are `State.reg` of the field.
-/
namespace Sys2Proof.Machine

/-- `zext_16(NNN)` (spec/30_encoding.md R63). -/
def addrOperand (nnn : Addr12) : Word := nnn.zeroExtend 16

/-- `zext_16` of a register value. -/
def zext16 (b : Byte) : Word := b.zeroExtend 16

/-- `I + k`, without wrap-around (spec/20_memory.md R42). -/
def State.indexed (s : State) (k : Nat) : Nat := s.i.toNat + k

/-- May the instruction access the `len` bytes from `I` on (spec/20_memory.md R43)? -/
def State.indexInRange (c : Config) (s : State) (len : Nat) : Bool := accessInRange c.memSize (s.indexed 0) len

/-- `Held(v) = KEYS[v[3:0]]` (spec/46_keys.md R157, decision D17, log 18). -/
def State.held (s : State) (v : Byte) : Bool := s.keys.getLsbD (v.toNat % 16)

/-- The keys held now and not held at the previous sample (spec/46_keys.md R153). -/
def State.newKeys (s : State) : Word := s.keys &&& ~~~s.keyPrev

/-- The least `i` in 0 .. 15 with `w[i] == 1`, if there is one (spec/46_keys.md R153). -/
def lowestKey (w : Word) : Option Nat := (List.range 16).find? fun k => w.getLsbD k

/-- The address of the glyph that a register value names (spec/44_index_memory.md R132): the whole 8-bit value
counts. -/
def glyphAddress (c : Config) (v : Byte) : Word := BitVec.ofNat 16 (c.fontBase + v.toNat * c.glyphBytes)

/-- Hundreds, tens and units of a register value (spec/44_index_memory.md R133). -/
def decimalDigits (v : Byte) : List Byte :=
  [BitVec.ofNat 8 (v.toNat / 100), BitVec.ofNat 8 (v.toNat / 10 % 10), BitVec.ofNat 8 (v.toNat % 10)]

/-- `FB[y][x]`. -/
def pixel (fb : Framebuffer) (x : Col) (y : Row) : Bool := fb[y][x]

/-- `Place(px, py)` (spec/45_display.md R143): the cell of a pixel, or none when it is not visible. -/
def place (policy : EdgePolicy) (px py : Nat) : Option (Col × Row) :=
  match policy with
  | .wrap => some (Fin.ofNat 64 px, Fin.ofNat 32 py)
  | .clip => if px ≤ 63 ∧ py ≤ 31 then some (Fin.ofNat 64 px, Fin.ofNat 32 py) else none

end Sys2Proof.Machine
end

