-- ==== Sys2Proof/Machine/Keys.lean ====
section
/-!
DEFINITION. The key instructions and the key wait (spec/46_keys.md). A step sees one value of `KEYS`
(spec/10_state.md R25).
-/
namespace Sys2Proof.Machine

/-- `EX9E`, `SKP Vx` (R150). -/
def execSkp (x : RegIx) (s : State) : Host.Outcome State Fault Refusal :=
  succeed (s.skipIf (s.held (s.reg x)))

/-- `EXA1`, `SKNP Vx` (R151). -/
def execSknp (x : RegIx) (s : State) : Host.Outcome State Fault Refusal :=
  succeed (s.skipIf (!s.held (s.reg x)))

/-- `FX0A`, `LD Vx, K`: the issuing step (R152). The instruction goes on in `waitPoll`. -/
def execLdVxK (x : RegIx) (s : State) : Host.Outcome State Fault Refusal :=
  answer .keyWait (s.beginWait x)

/-- `FX0A` completed: the lowest newly held key `k` into `V[WAIT_X]`, and the one countdown of the whole
instruction (R153). -/
def completeWait (k : Nat) (s : State) : Host.Outcome State Fault Refusal :=
  .next ((s.writeReg s.waitX (BitVec.ofNat 8 k)).endWait.countdown.returnStatus .success)

/-- `WaitPoll(cancel)`: the step taken while `WAIT = 1` (R153, R155); `cancel` is tested before the keys. -/
def waitPoll (s : State) : Host.Outcome State Fault Refusal :=
  if s.cancel then answer .waitCancelled s.endWait
  else
    match lowestKey s.newKeys with
    | some k => completeWait k s
    | none => answer .keyWait s.sampleKeys

end Sys2Proof.Machine
end

