-- ==== Sys2Proof/Machine/Cycle.lean ====
section
/-!
DEFINITION. The step around `exec` (spec/40_cycle.md R80): the key-wait branch, fetch, advance, decode, and the
countdown after a success, in the order of spec/60_exceptions.md R178.
-/
namespace Sys2Proof.Machine

/-- What a step does before an instruction's handler: it answers without one, or it hands over the decoded
instruction and the state with `PC` advanced. -/
inductive Begun where
  /-- The step is over: a key-wait poll, a fetch out of range, or an invalid word. -/
  | answered (o : Host.Outcome State Fault Refusal)
  /-- `Execute(decode(w))` is to run (R83). -/
  | execute (i : Instr) (s : State)

/-- Are both bytes at `PC` within memory (R81)? -/
def State.fetchInRange (c : Config) (s : State) : Bool := accessInRange c.memSize s.pc.toNat 2

/-- `w = {MEM[PC], MEM[PC+1]}` (R81, spec/20_memory.md R44). -/
def State.fetchWord (s : State) : Word := joinBytes (s.mem.read s.pc.toNat) (s.mem.read (s.pc.toNat + 1))

/-- The part of `Step` up to `Execute` (R80): no fetch while `WAIT = 1`; `MEM_RANGE` with nothing changed when
the fetch is out of range (R81); `PC` advanced before dispatch (R82); `INVALID_OPCODE` for a word that decodes
to no instruction (R83). -/
def beginStep (c : Config) (s : State) : Begun :=
  if s.wait then .answered (waitPoll s)
  else if State.fetchInRange c s then
    match decode s.fetchWord with
    | .ok i => .execute i s.advancePc
    | .error _ => .answered (answer .invalidOpcode s.advancePc)
  else .answered (answer .memRange s)

/-- The part of `Step` after `Execute` (R80): the countdown, only if the status is `SUCCESS` (R84). -/
def endStep : Host.Outcome State Fault Refusal → Host.Outcome State Fault Refusal
  | .next t => .next (if t.status = some .success then t.countdown else t)
  | .fault f => .fault f
  | .refused r => .refused r

/-- Stores an instruction word where the next step fetches it, high byte first, and leaves any key wait. Where
`PC` is not a place an instruction can be fetched from, `PC` becomes `PROGRAM_BASE` (log 26). -/
def State.placeWord (s : State) (w : Word) : State :=
  let pc := if State.fetchInRange params s then s.pc else BitVec.ofNat 16 programBase
  { s with pc := pc, wait := false, mem := s.mem.writeBytes pc.toNat [hiByte w, loByte w] }

end Sys2Proof.Machine
end

