-- ==== Sys2Proof/Machine/Flags.lean ====
section
/-!
DEFINITION. What the flag register becomes (the table of spec/10_state.md R12): the whole register is written,
to 0 or 1, and every flag is computed from operand values read before any write (spec/43_alu.md R121). The
collision flag of `DXYN` is computed by the compositor of Sys2Proof/Machine/Display.lean.
-/
namespace Sys2Proof.Machine

/-- The flag register's value for a condition: 0x00 or 0x01 (R12). -/
def flagByte (condition : Bool) : Byte := if condition then 1 else 0

/-- `8XY4`: carry out of the 8-bit sum (spec/43_alu.md R116). -/
def carryFlag (a b : Byte) : Byte := flagByte (decide (a.toNat + b.toNat > 255))

/-- `8XY5` and, with the operands exchanged, `8XY7`: no borrow, equality included
(spec/43_alu.md R117, R119). -/
def noBorrowFlag (a b : Byte) : Byte := flagByte (decide (a.toNat ≥ b.toNat))

/-- `8XY6`: bit 0 before the shift (spec/43_alu.md R118). -/
def lowBitFlag (a : Byte) : Byte := flagByte (a.getLsbD 0)

/-- `8XYE`: bit 7 before the shift (spec/43_alu.md R120). -/
def highBitFlag (a : Byte) : Byte := flagByte (a.getLsbD 7)

/-- `FX1E`: the unbounded sum leaves the 12-bit address range (spec/44_index_memory.md R131). -/
def indexOverflowFlag (i : Word) (a : Byte) : Byte := flagByte (decide (i.toNat + a.toNat > 0xFFF))

end Sys2Proof.Machine
end

