-- ==== Sys2Proof/Machine/Alu.lean ====
section
/-!
DEFINITION. Register load, arithmetic, logic and the random byte (spec/43_alu.md). All arithmetic is unsigned
and modulo 256 (R123); operands are read before any write (spec/00_scope.md R7).
-/
namespace Sys2Proof.Machine

/-- `6XNN`, `LD Vx, nn` (R110). -/
def execLdImm (x : RegIx) (nn : Byte) (s : State) : Host.Outcome State Fault Refusal :=
  succeed (s.writeReg x nn)

/-- `7XNN`, `ADD Vx, nn` (R111): no flag, even on wrap-around. -/
def execAddImm (x : RegIx) (nn : Byte) (s : State) : Host.Outcome State Fault Refusal :=
  succeed (s.writeReg x (s.reg x + nn))

/-- `8XY0`, `LD Vx, Vy` (R112). -/
def execLdReg (x y : RegIx) (s : State) : Host.Outcome State Fault Refusal :=
  succeed (s.writeReg x (s.reg y))

/-- `8XY1`, `OR Vx, Vy` (R113): no flag. -/
def execOrReg (x y : RegIx) (s : State) : Host.Outcome State Fault Refusal :=
  succeed (s.writeReg x (s.reg x ||| s.reg y))

/-- `8XY2`, `AND Vx, Vy` (R114): no flag. -/
def execAndReg (x y : RegIx) (s : State) : Host.Outcome State Fault Refusal :=
  succeed (s.writeReg x (s.reg x &&& s.reg y))

/-- `8XY3`, `XOR Vx, Vy` (R115): no flag. -/
def execXorReg (x y : RegIx) (s : State) : Host.Outcome State Fault Refusal :=
  succeed (s.writeReg x (s.reg x ^^^ s.reg y))

/-- `8XY4`, `ADD Vx, Vy` (R116): `VF` = carry out, then the sum. -/
def execAddReg (x y : RegIx) (s : State) : Host.Outcome State Fault Refusal :=
  succeed (s.writeFlagResult x (carryFlag (s.reg x) (s.reg y)) (s.reg x + s.reg y))

/-- `8XY5`, `SUB Vx, Vy` (R117): `VF` = no borrow, then `V[X] - V[Y]`. -/
def execSub (x y : RegIx) (s : State) : Host.Outcome State Fault Refusal :=
  succeed (s.writeFlagResult x (noBorrowFlag (s.reg x) (s.reg y)) (s.reg x - s.reg y))

/-- `8XY6`, `SHR Vx` (R118): the operand is `V[X]`; the field `Y` is ignored (spec/30_encoding.md R68). -/
def execShr (x _y : RegIx) (s : State) : Host.Outcome State Fault Refusal :=
  succeed (s.writeFlagResult x (lowBitFlag (s.reg x)) (s.reg x >>> 1))

/-- `8XY7`, `SUBN Vx, Vy` (R119): `VF` = no borrow, then `V[Y] - V[X]`. -/
def execSubn (x y : RegIx) (s : State) : Host.Outcome State Fault Refusal :=
  succeed (s.writeFlagResult x (noBorrowFlag (s.reg y) (s.reg x)) (s.reg y - s.reg x))

/-- `8XYE`, `SHL Vx` (R120): the operand is `V[X]`; the field `Y` is ignored (spec/30_encoding.md R68). -/
def execShl (x _y : RegIx) (s : State) : Host.Outcome State Fault Refusal :=
  succeed (s.writeFlagResult x (highBitFlag (s.reg x)) (s.reg x <<< 1))

/-- `CXNN`, `RND Vx, nn` (R122): a drawn byte masked by `NN`. The draw is a free value (log 3). -/
def execRnd (x : RegIx) (nn : Byte) (s : State) : Host.Outcome State Fault Refusal :=
  succeed (s.consumeDraw.writeReg x (Config.draw8 s.draws &&& nn))

end Sys2Proof.Machine
end

