-- ==== Sys2Proof/Machine/Display.lean ====
section
/-!
DEFINITION. The display instructions and the sprite compositor (spec/45_display.md). The compositor is the loop
of R142: for every set bit of every row, in order, the placed cell is tested and toggled.
-/
namespace Sys2Proof.Machine

/-- A framebuffer with every cell off. -/
def blankFb : Framebuffer := Vector.replicate 32 (Vector.replicate 64 false)

/-- `FB[y][x] <- FB[y][x] ^ 1`. -/
def toggle (fb : Framebuffer) (x : Col) (y : Row) : Framebuffer := fb.set y (fb[y].set x (!pixel fb x y))

/-- The cells that one sprite row sets, leftmost first: bit `7 - c` is column `c`, and the row stands at
`(x0, py)` (R142, R143). -/
def rowCells (policy : EdgePolicy) (x0 py : Nat) (b : Byte) : List (Col × Row) :=
  (List.range 8).filterMap fun c => if b.getLsbD (7 - c) then place policy (x0 + c) py else none

/-- The cells that a sprite sets, row after row from `y0` on. -/
def spriteCells (policy : EdgePolicy) (x0 : Nat) : Nat → List Byte → List (Col × Row)
  | _, [] => []
  | y0, b :: bs => rowCells policy x0 y0 b ++ spriteCells policy x0 (y0 + 1) bs

/-- One visible set pixel: a collision if the cell is on, then the toggle (R142). -/
def drawPixel (acc : Framebuffer × Bool) (cell : Col × Row) : Framebuffer × Bool :=
  (toggle acc.1 cell.1 cell.2, acc.2 || pixel acc.1 cell.1 cell.2)

/-- The compositor on a framebuffer: what it becomes, and whether any cell was on immediately before its
toggle. -/
def compose (cells : List (Col × Row)) (fb : Framebuffer) : Framebuffer × Bool :=
  cells.foldl drawPixel (fb, false)

/-- `Draw(x0, y0, h, src)` (R142): `VF` = collision, `DIRTY` always set. -/
def State.drawSprite (s : State) (policy : EdgePolicy) (x0 y0 h src : Nat) : State :=
  let drawn := compose (spriteCells policy x0 y0 (s.mem.readBytes src h)) s.fb
  (s.setFb drawn.1).writeReg flagReg (flagByte drawn.2)

/-- `00E0`, `CLS` (R140): no flag. -/
def execCls (s : State) : Host.Outcome State Fault Refusal := succeed (s.setFb blankFb)

/-- `DXYN`, `DRW Vx, Vy, n` (R141), at any configuration: the coordinates are read before `VF` is written; with
`N = 0` no byte is read and no range error is possible. -/
def execDrwIn (c : Config) (x y : RegIx) (n : Nibble) (s : State) : Host.Outcome State Fault Refusal :=
  if State.indexInRange c s n.toNat then
    succeed (s.drawSprite c.edgePolicy (s.reg x).toNat (s.reg y).toNat n.toNat (s.indexed 0))
  else answer .memRange s

/-- `DXYN`, `DRW Vx, Vy, n` (R141). -/
def execDrw (x y : RegIx) (n : Nibble) (s : State) : Host.Outcome State Fault Refusal := execDrwIn params x y n s

end Sys2Proof.Machine
end

