-- ==== Sys2Proof/Machine/Flow.lean ====
section
/-!
DEFINITION. Control transfer (spec/41_flow.md). Every meaning runs with `PC` already advanced past its word
(spec/40_cycle.md R82).
-/
namespace Sys2Proof.Machine

/-- `0NNN`, `SYS`: always `UNSUPPORTED_OPCODE`, nothing written (R90). -/
def execSys (_nnn : Addr12) (s : State) : Host.Outcome State Fault Refusal :=
  answer .unsupportedOpcode s

/-- `1NNN`, `JP` (R91). -/
def execJp (nnn : Addr12) (s : State) : Host.Outcome State Fault Refusal :=
  succeed (s.setPc (addrOperand nnn))

/-- `00EE`, `RET` (R92): `STACK_UNDERFLOW` when no slot is occupied. -/
def execRet (s : State) : Host.Outcome State Fault Refusal :=
  if s.sp = 0 then answer .stackUnderflow s
  else
    match s.pop? with
    | some (w, t) => succeed (t.setPc w)
    | none => .fault .stackSlotAbsent

/-- `2NNN`, `CALL` (R93), at any configuration: pushes the advanced `PC`; `STACK_OVERFLOW` when every slot is
occupied. -/
def execCallIn (c : Config) (nnn : Addr12) (s : State) : Host.Outcome State Fault Refusal :=
  if s.sp.toNat = c.stackDepth then answer .stackOverflow s
  else
    match s.push? (stackEntry c s.pc) with
    | some t => succeed (t.setPc (addrOperand nnn))
    | none => .fault .stackSlotAbsent

/-- `2NNN`, `CALL` (R93). -/
def execCall (nnn : Addr12) (s : State) : Host.Outcome State Fault Refusal := execCallIn params nnn s

/-- `BNNN`, `JP V0` (R94): the 16-bit sum, not reduced to 12 bits; no flag. -/
def execJpV0 (nnn : Addr12) (s : State) : Host.Outcome State Fault Refusal :=
  succeed (s.setPc (addrOperand nnn + zext16 (s.reg 0)))

end Sys2Proof.Machine
end

