-- ==== Sys2Proof/Machine/Index.lean ====
section
/-!
DEFINITION. The index register and the memory instructions (spec/44_index_memory.md). The whole range of a
transfer is checked before the first byte moves, and `I` is never changed by a transfer (R136).
-/
namespace Sys2Proof.Machine

/-- `ANNN`, `LD I, nnn` (R130). -/
def execLdI (nnn : Addr12) (s : State) : Host.Outcome State Fault Refusal :=
  succeed (s.setI (addrOperand nnn))

/-- `FX1E`, `ADD I, Vx` (R131): the 16-bit sum, and `VF` = the unbounded sum exceeds 0xFFF. -/
def execAddI (x : RegIx) (s : State) : Host.Outcome State Fault Refusal :=
  succeed ((s.setI (s.i + zext16 (s.reg x))).writeReg flagReg (indexOverflowFlag s.i (s.reg x)))

/-- `FX29`, `LD F, Vx` (R132), at any configuration. -/
def execLdFIn (c : Config) (x : RegIx) (s : State) : Host.Outcome State Fault Refusal :=
  succeed (s.setI (glyphAddress c (s.reg x)))

/-- `FX29`, `LD F, Vx` (R132). -/
def execLdF (x : RegIx) (s : State) : Host.Outcome State Fault Refusal := execLdFIn params x s

/-- `FX33`, `LD B, Vx` (R133), at any configuration: hundreds, tens, units at `I`, `I + 1`, `I + 2`. -/
def execLdBIn (c : Config) (x : RegIx) (s : State) : Host.Outcome State Fault Refusal :=
  if State.indexInRange c s 3 then
    succeed (s.setMem (s.mem.writeBytes (s.indexed 0) (decimalDigits (s.reg x))))
  else answer .memRange s

/-- `FX33`, `LD B, Vx` (R133). -/
def execLdB (x : RegIx) (s : State) : Host.Outcome State Fault Refusal := execLdBIn params x s

/-- The values of `V[0]` to `V[n - 1]`, in ascending order. -/
def State.firstRegs (s : State) (n : Nat) : List Byte := (List.range n).map fun k => s.reg (BitVec.ofNat 4 k)

/-- `FX55`, `LD [I], Vx` (R134), at any configuration: `V[k]` at `I + k` for `k = 0 .. X`, `X` being the field's
value. -/
def execLdMemVxIn (c : Config) (x : RegIx) (s : State) : Host.Outcome State Fault Refusal :=
  if State.indexInRange c s (x.toNat + 1) then
    succeed (s.setMem (s.mem.writeBytes (s.indexed 0) (s.firstRegs (x.toNat + 1))))
  else answer .memRange s

/-- `FX55`, `LD [I], Vx` (R134). -/
def execLdMemVx (x : RegIx) (s : State) : Host.Outcome State Fault Refusal := execLdMemVxIn params x s

/-- Loads `V[0]` to `V[n - 1]` from memory at `a` on, in ascending order. -/
def State.loadRegs (s : State) (a : Nat) : Nat → State
  | 0 => s
  | n + 1 => (s.loadRegs a n).writeReg (BitVec.ofNat 4 n) (s.mem.read (a + n))

/-- `FX65`, `LD Vx, [I]` (R135), at any configuration: `V[k]` from `I + k` for `k = 0 .. X`. -/
def execLdVxMemIn (c : Config) (x : RegIx) (s : State) : Host.Outcome State Fault Refusal :=
  if State.indexInRange c s (x.toNat + 1) then succeed (s.loadRegs (s.indexed 0) (x.toNat + 1))
  else answer .memRange s

/-- `FX65`, `LD Vx, [I]` (R135). -/
def execLdVxMem (x : RegIx) (s : State) : Host.Outcome State Fault Refusal := execLdVxMemIn params x s

end Sys2Proof.Machine
end

