-- ==== Sys2Proof/Machine/Skip.lean ====
section
/-!
DEFINITION. The conditional skips on registers (spec/42_skip.md): they write `PC` only (R100).
-/
namespace Sys2Proof.Machine

/-- `3XNN`, `SE Vx, nn` (R101). -/
def execSeImm (x : RegIx) (nn : Byte) (s : State) : Host.Outcome State Fault Refusal :=
  succeed (s.skipIf (s.reg x == nn))

/-- `4XNN`, `SNE Vx, nn` (R102). -/
def execSneImm (x : RegIx) (nn : Byte) (s : State) : Host.Outcome State Fault Refusal :=
  succeed (s.skipIf (s.reg x != nn))

/-- `5XY0`, `SE Vx, Vy` (R103). -/
def execSeReg (x y : RegIx) (s : State) : Host.Outcome State Fault Refusal :=
  succeed (s.skipIf (s.reg x == s.reg y))

/-- `9XY0`, `SNE Vx, Vy` (R104). -/
def execSneReg (x y : RegIx) (s : State) : Host.Outcome State Fault Refusal :=
  succeed (s.skipIf (s.reg x != s.reg y))

end Sys2Proof.Machine
end

