-- ==== Sys2Proof/Machine/Timers.lean ====
section
/-!
DEFINITION. Timer access (spec/47_timers.md). The countdown follows in the same step
(spec/40_cycle.md R84).
-/
namespace Sys2Proof.Machine

/-- `FX07`, `LD Vx, DT` (R160): `DT` as it stands before this step's countdown. -/
def execLdVxDt (x : RegIx) (s : State) : Host.Outcome State Fault Refusal :=
  succeed (s.writeReg x s.dt)

/-- `FX15`, `LD DT, Vx` (R161). -/
def execLdDtVx (x : RegIx) (s : State) : Host.Outcome State Fault Refusal :=
  succeed (s.setDt (s.reg x))

/-- `FX18`, `LD ST, Vx` (R162). -/
def execLdStVx (x : RegIx) (s : State) : Host.Outcome State Fault Refusal :=
  succeed (s.setSt (s.reg x))

end Sys2Proof.Machine
end

