-- ==== Sys2Proof/Machine/Environment.lean ====
section
/-!
DEFINITION. What the agents outside the core may do between steps (spec/00_scope.md R6,
spec/70_reset_and_hazards.md R213): the host's reset with an image, the input source, the renderer.
-/
namespace Sys2Proof.Machine

/-- The result of an image load (spec/70_reset_and_hazards.md R204); no status of a step. -/
inductive LoadResult where
  | loaded (s : State)
  /-- `IMAGE_TOO_LARGE`: rejected before anything is written. -/
  | imageTooLarge
  deriving DecidableEq, Repr

/-- `LoadImage(image)` (R204): the bytes verbatim from `PROGRAM_BASE` on, or a rejection. -/
def loadImage (c : Config) (image : List Byte) (s : State) : LoadResult :=
  if image.length > c.memSize - c.programBase then .imageTooLarge
  else .loaded (s.setMem (s.mem.writeBytes c.programBase image))

/-- Memory at reset (R200 steps 1 and 3): 0 everywhere, then the configured font. An unlisted cell reads as the
spec's own font (log 31), so those cells are set to 0 first; at the spec's configuration nothing is listed. -/
def resetMemory (c : Config) : Memory :=
  (Memory.writeBytes [] fontBase (fontTable.map fun _ => 0)).writeBytes c.fontBase c.fontTable

/-- The state after `Reset` with no image (R200), at any configuration. DESIGN CHOICE (log 33): of a `PROGRAM_BASE`
above 0xFFFF, `PC` has the low 16 bits. -/
def resetIn (c : Config) : State :=
  { State.reset with pc := BitVec.ofNat 16 c.programBase, mem := resetMemory c }

/-- `Reset(image)` of a running machine (R200), at any configuration: every item of state to its reset value, then
the image. The draw counter is no item of state and is kept, so that the draws after a reset are other draws
(log 3). -/
def hostResetIn (c : Config) (image : List Byte) (s : State) : LoadResult :=
  loadImage c image { resetIn c with draws := s.draws }

/-- `Reset(image)` of a running machine (R200). -/
def hostReset (image : List Byte) (s : State) : LoadResult := hostResetIn params image s

/-- A move of an agent between steps, the "May" column of R213. -/
inductive Move where
  /-- The input source replaces `KEYS` (spec/10_state.md R24, R25). -/
  | keys (k : Word)
  /-- The renderer clears `DIRTY` (spec/10_state.md R27, R28). -/
  | clearDirty
  /-- The host asserts or withdraws the `cancel` input (spec/10_state.md R31). -/
  | cancel (b : Bool)
  /-- The host resets the machine with an image. -/
  | reset (image : List Byte)
  deriving DecidableEq, Repr

/-- The state after a move, at any configuration. A reset with an oversized image is rejected "before any state
mutation" (R204). -/
def applyMoveIn (c : Config) : Move → State → State
  | .keys k, s => { s with keys := k }
  | .clearDirty, s => { s with dirty := false }
  | .cancel b, s => { s with cancel := b }
  | .reset image, s =>
    match hostResetIn c image s with
    | .loaded t => t
    | .imageTooLarge => s

/-- The state after a move. -/
def applyMove (m : Move) (s : State) : State := applyMoveIn params m s

end Sys2Proof.Machine
end

