-- ==== Sys2Proof/Machine/Configured.lean ====
section
/-!
DEFINITION. The machine with its configuration as an input (spec/00_scope.md R5, R6), so that a claim can quantify
over it. At `params`, the spec's configuration, this is `exec` and `step`. Only six handlers depend on it.
-/
namespace Sys2Proof.Machine

/-- The handler of each instruction, at any configuration. -/
def execIn (c : Config) (i : Instr) (s : State) : Host.Outcome State Fault Refusal :=
  match i with
  | .cls => execCls s
  | .ret => execRet s
  | .sys nnn => execSys nnn s
  | .jp nnn => execJp nnn s
  | .call nnn => execCallIn c nnn s
  | .seImm x nn => execSeImm x nn s
  | .sneImm x nn => execSneImm x nn s
  | .seReg x y => execSeReg x y s
  | .sneReg x y => execSneReg x y s
  | .ldImm x nn => execLdImm x nn s
  | .addImm x nn => execAddImm x nn s
  | .ldReg x y => execLdReg x y s
  | .orReg x y => execOrReg x y s
  | .andReg x y => execAndReg x y s
  | .xorReg x y => execXorReg x y s
  | .addReg x y => execAddReg x y s
  | .sub x y => execSub x y s
  | .shr x y => execShr x y s
  | .subn x y => execSubn x y s
  | .shl x y => execShl x y s
  | .ldI nnn => execLdI nnn s
  | .jpV0 nnn => execJpV0 nnn s
  | .rnd x nn => execRnd x nn s
  | .drw x y n => execDrwIn c x y n s
  | .skp x => execSkp x s
  | .sknp x => execSknp x s
  | .ldVxDt x => execLdVxDt x s
  | .ldVxK x => execLdVxK x s
  | .ldDtVx x => execLdDtVx x s
  | .ldStVx x => execLdStVx x s
  | .addI x => execAddI x s
  | .ldF x => execLdFIn c x s
  | .ldB x => execLdBIn c x s
  | .ldMemVx x => execLdMemVxIn c x s
  | .ldVxMem x => execLdVxMemIn c x s

/-- One step of the core (spec/40_cycle.md R80), at any configuration. -/
def stepIn (c : Config) (s : State) : Host.Outcome State Fault Refusal :=
  match beginStep c s with
  | .answered o => o
  | .execute i t => endStep (execIn c i t)

end Sys2Proof.Machine
end

