-- ==== Sys2Proof/Machine/Step.lean ====
section
/-!
DEFINITION. The step (spec/40_cycle.md R80), runs of steps and moves, and the host's way to place one
instruction. Everything the step does stands in Sys2Proof/Machine/Cycle.lean and in the meanings.
-/
namespace Sys2Proof.Machine

/-- One step of the core. -/
def step (s : State) : Host.Outcome State Fault Refusal :=
  match beginStep params s with
  | .answered o => o
  | .execute i t => endStep (exec i t)

/-- What can happen next: a step the host requests, or a move of an agent between steps. -/
inductive Event where
  | step
  | move (m : Move)
  deriving DecidableEq, Repr

/-- One event, at any configuration. -/
def happenIn (c : Config) : Event → State → Host.Outcome State Fault Refusal
  | .step, s => stepIn c s
  | .move m, s => .next (applyMoveIn c m s)

/-- A run at any configuration: events in order, stopping at the first fault or refusal. -/
def runEventsIn (c : Config) : List Event → State → Host.Outcome State Fault Refusal
  | [], s => .next s
  | e :: es, s =>
    match happenIn c e s with
    | .next t => runEventsIn c es t
    | .fault f => .fault f
    | .refused r => .refused r

/-- One event. -/
def happen : Event → State → Host.Outcome State Fault Refusal
  | .step, s => step s
  | .move m, s => .next (applyMove m s)

/-- A run: events in order, stopping at the first fault or refusal. -/
def runEvents : List Event → State → Host.Outcome State Fault Refusal
  | [], s => .next s
  | e :: es, s =>
    match happen e s with
    | .next t => runEvents es t
    | .fault f => .fault f
    | .refused r => .refused r

/-- The state with one table word stored where the next step fetches its instruction (log 26). -/
def State.withFetchWord (s : State) (nbits w : Nat) : State := s.placeWord (tableWord nbits w)

end Sys2Proof.Machine
end

