-- ==== Sys2Proof/Safety.lean ====
section
/-!
DEFINITION. What claims about the machine are stated in: the invariants of the state, what "unchanged" means,
when a step runs an instruction, how a handler ends and why, the launch premises of spec/70_reset_and_hazards.md
R214 and the open end of a run (R212).
-/
namespace Sys2Proof.Machine

/-- The state is one the spec describes: memory in its canonical form, and `SP` at most 16
(spec/10_state.md R17). Every step keeps it and every reset has it. -/
abbrev StateOk (s : State) : Prop := s.mem.wf = true ∧ s.sp.toNat ≤ 16

/-- The bounds of spec/41_flow.md R95 (g) on `PC`, with the bound on the stack slots that they rest on. -/
abbrev PcBounded (s : State) : Prop := s.pc.toNat ≤ 0x10FE ∧ ∀ k : Fin 16, s.stack[k].toNat ≤ 0x1000

/-- `PC` and every return address are even (spec/20_memory.md R45). -/
abbrev PcEven (s : State) : Prop := s.pc.toNat % 2 = 0 ∧ ∀ k : Fin 16, s.stack[k].toNat % 2 = 0

/-- The items of state, the model's own four last. -/
inductive Part where
  | v | i | pc | stack | sp | dt | st | keys | mem | fb | dirty | wait | waitX | keyPrev
  | cancel | draws | status | errorSeen
  deriving DecidableEq, Repr

/-- The item is in `t` what it is in `s`; a store is compared cell by cell, through the model's read of one. -/
def samePart : Part → State → State → Prop
  | .v, s, t => ∀ r : RegIx, t.reg r = s.reg r
  | .i, s, t => t.i = s.i
  | .pc, s, t => t.pc = s.pc
  | .stack, s, t => ∀ k : Nat, t.slot? k = s.slot? k
  | .sp, s, t => t.sp = s.sp
  | .dt, s, t => t.dt = s.dt
  | .st, s, t => t.st = s.st
  | .keys, s, t => t.keys = s.keys
  | .mem, s, t => ∀ a : Nat, t.mem.read a = s.mem.read a
  | .fb, s, t => ∀ (x : Col) (y : Row), pixel t.fb x y = pixel s.fb x y
  | .dirty, s, t => t.dirty = s.dirty
  | .wait, s, t => t.wait = s.wait
  | .waitX, s, t => t.waitX = s.waitX
  | .keyPrev, s, t => t.keyPrev = s.keyPrev
  | .cancel, s, t => t.cancel = s.cancel
  | .draws, s, t => t.draws = s.draws
  | .status, s, t => t.status = s.status
  | .errorSeen, s, t => t.errorSeen = s.errorSeen

/-- Every item of state outside the list is in `t` what it is in `s`. -/
def UnchangedExcept (parts : List Part) (s t : State) : Prop := ∀ p, p ∉ parts → samePart p s t

/-- Every register outside the list is in `t` what it is in `s`. -/
def RegsUnchangedExcept (regs : List RegIx) (s t : State) : Prop := ∀ r, r ∉ regs → t.reg r = s.reg r

/-- The next step fetches and runs the instruction: no key wait, `PC` and `PC + 1` in memory, and their word
decodes to it (spec/40_cycle.md R80). -/
def Fetches (s : State) (i : Instr) : Prop :=
  s.wait = false ∧ s.pc.toNat + 1 < memSize ∧ decode s.fetchWord = .ok i

/-- The outcome is a next state `t` with status `SUCCESS`; nothing has changed from `s` but the status and the named
items, and `post t` holds. -/
def Completes (o : Host.Outcome State Fault Refusal) (s : State) (changed : List Part) (post : State → Prop) : Prop :=
  ∃ t, o = .next t ∧ t.status = some .success ∧ UnchangedExcept (.status :: changed) s t ∧ post t

/-- The handler of `i` completes. -/
abbrev CompletesWith (i : Instr) (s : State) (changed : List Part) (post : State → Prop) : Prop :=
  Completes (exec i s) s changed post

/-- The outcome is a next state with the given status, in which nothing has changed from `s` but the status and, for
an error (every status but `SUCCESS` and `KEY_WAIT`, spec/60_exceptions.md R170), the error record. -/
def Answers (o : Host.Outcome State Fault Refusal) (s : State) (c : Status) : Prop :=
  ∃ t, o = .next t ∧ t.status = some c ∧
    (t.errorSeen = true ↔ s.errorSeen = true ∨ (c ≠ .success ∧ c ≠ .keyWait)) ∧
    UnchangedExcept [.status, .errorSeen] s t

/-- The handler of `i` only answers. -/
abbrev OnlyAnswers (i : Instr) (s : State) (c : Status) : Prop := Answers (exec i s) s c

/-- The general registers that the handler of an instruction may write, the "Writes" column of spec/10_state.md R11.
The write of `FX0A` is not among them: it happens in the poll that completes the wait (R11 "at completion"). -/
def writesReg : Instr → RegIx → Bool
  | .cls, _ => false
  | .ret, _ => false
  | .sys _, _ => false
  | .jp _, _ => false
  | .call _, _ => false
  | .seImm _ _, _ => false
  | .sneImm _ _, _ => false
  | .seReg _ _, _ => false
  | .sneReg _ _, _ => false
  | .ldImm x _, r => r == x
  | .addImm x _, r => r == x
  | .ldReg x _, r => r == x
  | .orReg x _, r => r == x
  | .andReg x _, r => r == x
  | .xorReg x _, r => r == x
  | .addReg x _, r => r == x || r == flagReg
  | .sub x _, r => r == x || r == flagReg
  | .shr x _, r => r == x || r == flagReg
  | .subn x _, r => r == x || r == flagReg
  | .shl x _, r => r == x || r == flagReg
  | .ldI _, _ => false
  | .jpV0 _, _ => false
  | .rnd x _, r => r == x
  | .drw _ _ _, r => r == flagReg
  | .skp _, _ => false
  | .sknp _, _ => false
  | .ldVxDt x, r => r == x
  | .ldVxK _, _ => false
  | .ldDtVx _, _ => false
  | .ldStVx _, _ => false
  | .addI _, r => r == flagReg
  | .ldF _, _ => false
  | .ldB _, _ => false
  | .ldMemVx _, _ => false
  | .ldVxMem x, r => decide (r ≤ x)

/-- The cause of each status other than `SUCCESS`: the "Raised by" and "Condition" columns of
spec/60_exceptions.md R170, with the ranges of spec/20_memory.md R43. -/
def FailureCause (s : State) : Status → Prop
  | .success => False
  | .unsupportedOpcode => ∃ nnn, Fetches s (.sys nnn)
  | .invalidOpcode => s.wait = false ∧ s.pc.toNat + 1 < memSize ∧ ∃ e, decode s.fetchWord = .error e
  | .stackOverflow => s.sp.toNat = 16 ∧ ∃ nnn, Fetches s (.call nnn)
  | .stackUnderflow => s.sp.toNat = 0 ∧ Fetches s .ret
  | .memRange =>
    (s.wait = false ∧ memSize ≤ s.pc.toNat + 1) ∨
    (∃ x, Fetches s (.ldB x) ∧ s.i.toNat + 2 > 4095) ∨
    (∃ x, (Fetches s (.ldMemVx x) ∨ Fetches s (.ldVxMem x)) ∧ s.i.toNat + x.toNat > 4095) ∨
    (∃ x y n, Fetches s (.drw x y n) ∧ n.toNat ≥ 1 ∧ s.i.toNat + n.toNat - 1 > 4095)
  | .keyWait => (∃ x, Fetches s (.ldVxK x)) ∨ (s.wait = true ∧ s.cancel = false ∧ s.newKeys = 0)
  | .waitCancelled => s.wait = true ∧ s.cancel = true

/-- What byte `a` of memory reads as when `f 0`, `f 1`, ... have been stored in the `len` bytes from `base` on. -/
def overlay (m : Memory) (base len : Nat) (f : Nat → Byte) (a : Nat) : Byte :=
  if base ≤ a ∧ a < base + len then f (a - base) else m.read a

/-- A pixel with these unreduced coordinates falls on the cell (spec/45_display.md R143). -/
def FallsOn (policy : EdgePolicy) (px py : Nat) (x : Col) (y : Row) : Prop :=
  match policy with
  | .wrap => px % 64 = x.val ∧ py % 32 = y.val
  | .clip => px = x.val ∧ py = y.val

/-- An outcome with its next state changed. -/
def mapNext (f : State → State) : Host.Outcome State Fault Refusal → Host.Outcome State Fault Refusal
  | .next t => .next (f t)
  | .fault e => .fault e
  | .refused r => .refused r

/-! ## Launch premises and the end of a run -/

/-- The launch premises P1 and P2 of spec/70_reset_and_hazards.md R214: no key wait, no error so far. P3, that the
agents act only as R213 allows, is the type `Event`: it has no other move. P4, the configuration, is `params`. P5 is
`FairInput`. -/
abbrev Launch (s : State) : Prop := s.wait = false ∧ s.errorSeen = false

/-- The events of an endless run, in order: the steps the host requests and the agents' moves between them. -/
abbrev Schedule := Nat → Event

/-- The state before the `n`-th event of a run from `s`; none once the run has stopped. -/
def stateAt (es : Schedule) (s : State) : Nat → Option State
  | 0 => some s
  | n + 1 =>
    match stateAt es s n with
    | none => none
    | some t =>
      match happen (es n) t with
      | .next u => some u
      | .fault _ => none
      | .refused _ => none

/-- The launch premise P5 of spec/70_reset_and_hazards.md R214, "a fairness assumption that the input source
eventually produces a released-to-held transition between two polls": whenever the run is in a key wait, then from
there on two steps, with no step between them, see some key released and then held. -/
def FairInput (es : Schedule) (s : State) : Prop :=
  ∀ n t, stateAt es s n = some t → t.wait = true →
    ∃ m k u v, n ≤ m ∧ m < k ∧ es m = .step ∧ es k = .step ∧ (∀ j, m < j → j < k → es j ≠ .step) ∧
      stateAt es s m = some u ∧ stateAt es s k = some v ∧
      ∃ key < 16, u.keys.getLsbD key = false ∧ v.keys.getLsbD key = true

/-- The convention of spec/70_reset_and_hazards.md R212 for the end of a run: `PC` holds the address of a
`1NNN` whose target is its own address. It does not say that the core stops.
DESIGN CHOICE (log 27): it also demands `WAIT = 0`. R212 and decision D33 name only `PC` and do not exclude a key wait
that is pending; while one is, the next step polls and does not execute that `1NNN`. -/
def atSelfJump (s : State) : Bool :=
  !s.wait && State.fetchInRange params s &&
    match decode s.fetchWord with
    | .ok i => i == .jp (s.pc.truncate 12) && s.pc.toNat < memSize
    | .error _ => false

/-- At most `n` steps, until the state is one where the run ends: `END_OF_RUN` is open in the spec (R212) and so
is the argument `ended` here. -/
def runUntil (ended : State → Bool) : Nat → State → Host.Outcome State Fault Refusal
  | 0, s => .next s
  | n + 1, s =>
    if ended s then .next s
    else
      match step s with
      | .next t => runUntil ended n t
      | .fault f => .fault f
      | .refused r => .refused r

end Sys2Proof.Machine
end

