-- ==== Sys2Proof/Certificates/Slice0/Obligations.lean ====
section
/-!
DEFINITION. The statements for the provers. Each docstring names the rules of spec/ it formalises and, where a
clause rests on a decision or an inference that the spec marks as its own, says so. The status of a step is read
in the field `status` and the error record in `errorSeen` (log 1).
-/

open Sys2Proof Sys2Proof.Machine

/-! ## Encoding -/

/-- Every well-formed instruction, with every operand at every value its fields admit, decodes from its own word:
no bit of an encoding is dropped (spec/30_encoding.md R61, R62, R65, R66). The host's numbering of a table word
gives the same instruction. -/
def Obligations.DecodeOfEncodeIsIdentity : Prop :=
  ∀ i : Instr, i.wellFormed = true →
    decode (encode i) = .ok i ∧ decodeTableWord 16 (encode i).toNat = some i

/-- Every word that decodes to an instruction is the word of that instruction, ignored fields included, and the
instruction is well formed (spec/30_encoding.md R64, R68). -/
def Obligations.EncodeOfDecodeIsIdentity : Prop :=
  ∀ (w : Word) (i : Instr), decode w = .ok i → encode i = w ∧ i.wellFormed = true

/-- The decoder is the opcode map: the decoded instruction's row is a row of the table that the word selects, no
row the word selects has a larger mask, and the decoder rejects exactly the words that select no row
(spec/30_encoding.md R66, R65). -/
def Obligations.DecodeFollowsTheOpcodeMap : Prop :=
  ∀ w : Word,
    (∀ i, decode w = .ok i → i.row ∈ opcodeTable ∧ i.row.selects w = true ∧
      ∀ r ∈ opcodeTable, r.selects w = true → r.mask.toNat ≤ i.row.mask.toNat) ∧
    ((∃ e, decode w = .error e) ↔ ∀ r ∈ opcodeTable, r.selects w = false)

/-- The invalid words are the classes of spec/30_encoding.md R67, and the words of `SYS` are the family-0 words
other than 0x00E0 and 0x00EE. That `N` must be 0 in families 5 and 9 is the spec's decision D21 (log 23). -/
def Obligations.IllegalWordsAreTheListedClasses : Prop :=
  ∀ w : Word,
    ((∃ e, decode w = .error e) ↔
      (opField w = 0x5 ∧ nField w ≠ 0) ∨ (opField w = 0x9 ∧ nField w ≠ 0) ∨
      (opField w = 0x8 ∧ nField w ∈ ([0x8, 0x9, 0xA, 0xB, 0xC, 0xD, 0xF] : List Nibble)) ∨
      (opField w = 0xE ∧ nnField w ∉ ([0x9E, 0xA1] : List Byte)) ∨
      (opField w = 0xF ∧
        nnField w ∉ ([0x07, 0x0A, 0x15, 0x18, 0x1E, 0x29, 0x33, 0x55, 0x65] : List Byte))) ∧
    ((∃ nnn, decode w = .ok (.sys nnn)) ↔ opField w = 0x0 ∧ w ≠ 0x00E0 ∧ w ≠ 0x00EE)

/-- Words of the spec's own examples decode to the instructions they stand for (spec/95_test_vectors.md T3, T4,
E5, E8, P2, P3, P4). -/
def Obligations.ExampleWordsDecode : Prop :=
  decode 0x7A23 = .ok (.addImm 0xA 0x23) ∧ decode 0x81A4 = .ok (.addReg 0x1 0xA) ∧
  decode 0x01E0 = .ok (.sys 0x1E0) ∧ decode 0x9AB5 = .error .family9 ∧
  decode 0x2210 = .ok (.call 0x210) ∧ decode 0xF033 = .ok (.ldB 0x0) ∧
  decode 0xD125 = .ok (.drw 0x1 0x2 0x5) ∧ decode 0xF50A = .ok (.ldVxK 0x5)

/-! ## The step -/

/-- When the word at `PC` decodes to `i` and there is no key wait, the step is `exec i` at the state with `PC`
moved past the word, and then, if the status is SUCCESS, one count of each timer that is not 0; no handler refuses
(spec/40_cycle.md R80, R82, R84; the latter's placement of the countdown is the spec's derivation). -/
def Obligations.StepRunsTheDecodedInstruction : Prop :=
  ∀ (s : State) (i : Instr), Fetches s i →
    (∀ u, exec i { s with pc := s.pc + 2 } = .next u →
      ∃ t, step s = .next t ∧ UnchangedExcept [.dt, .st] u t ∧
        (u.status = some .success → t.dt.toNat = u.dt.toNat - 1 ∧ t.st.toNat = u.st.toNat - 1) ∧
        (u.status ≠ some .success → t.dt = u.dt ∧ t.st = u.st)) ∧
    (∀ f, exec i { s with pc := s.pc + 2 } = .fault f → step s = .fault f) ∧
    (∀ r, exec i { s with pc := s.pc + 2 } ≠ .refused r)

/-- The timers count down after a step that ends with SUCCESS and after no other, clamped at 0; `FX15` and `FX18`
count from the value they have just set (spec/60_exceptions.md R185, spec/47_timers.md R161, R162 and
spec/40_cycle.md R84: the spec derives the latter's placement of the countdown). That a key wait counts once, in the
poll that completes it, is decision D24 (log 21). -/
def Obligations.TimersCountSuccessfulSteps : Prop :=
  ∀ s t : State, step s = .next t →
    (t.status ≠ some .success → t.dt = s.dt ∧ t.st = s.st) ∧
    (t.status = some .success →
      (∀ x, Fetches s (.ldDtVx x) → t.dt.toNat = (s.reg x).toNat - 1) ∧
      ((∀ x, ¬ Fetches s (.ldDtVx x)) → t.dt.toNat = s.dt.toNat - 1) ∧
      (∀ x, Fetches s (.ldStVx x) → t.st.toNat = (s.reg x).toNat - 1) ∧
      ((∀ x, ¬ Fetches s (.ldStVx x)) → t.st.toNat = s.st.toNat - 1))

/-- A fetch that would reach beyond memory answers MEM_RANGE and changes nothing, `PC` included
(spec/40_cycle.md R81, decision D11, log 12). -/
def Obligations.FetchBeyondMemoryChangesNothing : Prop :=
  ∀ s : State, s.wait = false → memSize ≤ s.pc.toNat + 1 →
    ∃ t, step s = .next t ∧ t.status = some .memRange ∧ t.errorSeen = true ∧
      UnchangedExcept [.status, .errorSeen] s t

/-- An invalid word answers INVALID_OPCODE and leaves everything but the advanced `PC` as it was
(spec/60_exceptions.md R172, R176; which words are invalid is `IllegalWordsAreTheListedClasses`). -/
def Obligations.InvalidWordChangesOnlyPc : Prop :=
  ∀ (s : State) (e : Reject), s.wait = false → s.pc.toNat + 1 < memSize → decode s.fetchWord = .error e →
    ∃ t, step s = .next t ∧ t.status = some .invalidOpcode ∧ t.errorSeen = true ∧ t.pc = s.pc + 2 ∧
      UnchangedExcept [.pc, .status, .errorSeen] s t

/-- An error, a status other than SUCCESS and KEY_WAIT, has no effect but its status: `PC` is past the word when the
error rose in `Execute`, nothing at all changes for MEM_RANGE at fetch, WAIT alone is cleared for WAIT_CANCELLED, and
the timers have not counted (spec/60_exceptions.md R176). -/
def Obligations.ErrorsLeaveTheStateUnchanged : Prop :=
  ∀ (s t : State) (c : Status), step s = .next t → t.status = some c → c ≠ .success → c ≠ .keyWait →
    (s.wait = true → c = .waitCancelled ∧ t.wait = false ∧
      UnchangedExcept [.wait, .status, .errorSeen] s t) ∧
    (s.wait = false → memSize ≤ s.pc.toNat + 1 → c = .memRange ∧ UnchangedExcept [.status, .errorSeen] s t) ∧
    (s.wait = false → s.pc.toNat + 1 < memSize → t.pc = s.pc + 2 ∧
      UnchangedExcept [.pc, .status, .errorSeen] s t)

/-- Each of the eight statuses comes from its cause in the table of spec/60_exceptions.md R170 and from no other
(`FailureCause` holds the seven rows below SUCCESS), and SUCCESS is answered exactly when none of those causes holds.
Six of the eight rows are the spec's decisions D8 to D11, D18 and D19. -/
def Obligations.EachStatusHasItsCause : Prop :=
  ∀ (s t : State), step s = .next t →
    (∀ c, c ≠ .success → (t.status = some c ↔ FailureCause s c)) ∧
    (t.status = some .success ↔ ∀ c, ¬ FailureCause s c)

/-- From a state the spec describes, a step never stops: it answers a next state and a status
(spec/60_exceptions.md R170; the premise is the invariant of `StepKeepsTheStateOk`). -/
def Obligations.StepsAlwaysAnswer : Prop :=
  ∀ s : State, StateOk s → ∃ t c, step s = .next t ∧ t.status = some c

/-- The record of errors is sticky and exact: after a step it is set if it was set or the step's status is of the class
"error", which is every status but SUCCESS and KEY_WAIT (spec/60_exceptions.md R170, R180; the field is the model's
own, log 1). -/
def Obligations.ErrorRecordIsSticky : Prop :=
  ∀ (s t : State) (c : Status), step s = .next t → t.status = some c →
    (t.errorSeen = true ↔ s.errorSeen = true ∨ (c ≠ .success ∧ c ≠ .keyWait))

/-! ## Invariants -/

/-- Every step keeps the canonical form of memory and `SP <= 16` ("`stack_pointer` never exceeds capacity",
spec/10_state.md R17; the bound and the convention are decisions D6 and D7, the memory form is log 31). -/
def Obligations.StepKeepsTheStateOk : Prop :=
  ∀ s t : State, StateOk s → step s = .next t → StateOk t

/-- Reset, with any image it accepts, gives a state the spec describes, with `PC` and the return addresses within
their bounds and even (spec/70_reset_and_hazards.md R200, R204). -/
def Obligations.ResetStatesAreOk : Prop :=
  (StateOk State.reset ∧ PcBounded State.reset ∧ PcEven State.reset) ∧
  ∀ (image : List Byte) (s t : State), hostReset image s = .loaded t → StateOk t ∧ PcBounded t ∧ PcEven t

/-- No move of an agent outside the core breaks what the steps keep: the form of memory with the bound on `SP`, the
bounds on `PC` and the return addresses, and their evenness (spec/70_reset_and_hazards.md R213). -/
def Obligations.MovesKeepTheStateOk : Prop :=
  ∀ (m : Move) (s : State),
    (StateOk s → StateOk (applyMove m s)) ∧ (PcBounded s → PcBounded (applyMove m s)) ∧
    (PcEven s → PcEven (applyMove m s))

/-- `PC` never exceeds 0x10FE and no return address exceeds 0x1000, so no `PC` arithmetic wraps
(spec/41_flow.md R95 (g) and spec/10_state.md R14, both derived by the spec). -/
def Obligations.PcStaysBounded : Prop :=
  ∀ s t : State, PcBounded s → step s = .next t → PcBounded t

/-- `PC` and the return addresses stay even as long as every jump target is even
(spec/20_memory.md R45, spec/10_state.md R14; that an odd `PC` is legal is decision D12, log 13). -/
def Obligations.PcStaysEvenWithEvenTargets : Prop :=
  ∀ s t : State, PcEven s → step s = .next t →
    (∀ nnn, Fetches s (.jp nnn) ∨ Fetches s (.call nnn) → nnn.toNat % 2 = 0) →
    (∀ nnn, Fetches s (.jpV0 nnn) → (nnn.toNat + (s.reg 0).toNat) % 2 = 0) → PcEven t

/-! ## Rules about the whole machine -/

/-- Only the writers that spec/10_state.md R32 names change an item of state: `V` as R11's table says, and in the
completing poll of a key wait `V[WAIT_X]`; memory by `FX33` and `FX55`; the framebuffer and DIRTY by `00E0` and
`DXYN`; the slots by `2NNN`; `SP` by `2NNN` and `00EE`; `I` by `ANNN`, `FX1E` and `FX29`; `DT` and `ST` by `FX15` and
`FX18` and the countdown of a SUCCESS; WAIT, WAIT_X and KEY_PREV by the issuing `FX0A` and the polls (R29); `PC` by no
poll. The core never writes KEYS and never clears DIRTY (R24, R27). Of the model's own fields, the draw counter
changes in `CXNN` only (log 3) and the cancel input in no step (DESIGN CHOICE, log 2). -/
def Obligations.OnlyTheNamedInstructionsWrite : Prop :=
  ∀ s t : State, step s = .next t →
    (∀ r, (∀ i, Fetches s i → writesReg i r = false) →
      (s.wait = true → t.status = some .success → r ≠ s.waitX) → t.reg r = s.reg r) ∧
    ((∀ x, ¬ Fetches s (.ldB x) ∧ ¬ Fetches s (.ldMemVx x)) → samePart .mem s t) ∧
    (¬ Fetches s .cls → (∀ x y n, ¬ Fetches s (.drw x y n)) → samePart .fb s t ∧ samePart .dirty s t) ∧
    ((∀ nnn, ¬ Fetches s (.call nnn)) → samePart .stack s t) ∧
    ((∀ nnn, ¬ Fetches s (.call nnn)) → ¬ Fetches s .ret → samePart .sp s t) ∧
    ((∀ nnn, ¬ Fetches s (.ldI nnn)) → (∀ x, ¬ Fetches s (.addI x) ∧ ¬ Fetches s (.ldF x)) →
      samePart .i s t) ∧
    ((∀ x, ¬ Fetches s (.ldDtVx x)) →
      t.dt.toNat = s.dt.toNat - (if t.status = some .success then 1 else 0)) ∧
    ((∀ x, ¬ Fetches s (.ldStVx x)) →
      t.st.toNat = s.st.toNat - (if t.status = some .success then 1 else 0)) ∧
    (s.wait = false → (∀ x, ¬ Fetches s (.ldVxK x)) →
      samePart .wait s t ∧ samePart .waitX s t ∧ samePart .keyPrev s t) ∧
    (s.wait = true → samePart .pc s t ∧ samePart .waitX s t) ∧
    ((∀ x nn, ¬ Fetches s (.rnd x nn)) → samePart .draws s t) ∧
    samePart .keys s t ∧ samePart .cancel s t ∧ (s.dirty = true → t.dirty = true)

/-- KEYS is read by `EX9E`, `EXA1` and `FX0A` only: any other instruction does the same whatever keys are held
(spec/10_state.md R25). -/
def Obligations.OnlyKeyInstructionsReadKeys : Prop :=
  ∀ (i : Instr) (s : State) (k : Word),
    (∀ x, i ≠ .skp x ∧ i ≠ .sknp x ∧ i ≠ .ldVxK x) →
    exec i { s with keys := k } = mapNext (fun t => { t with keys := k }) (exec i s)

/-- No step reads `ST` or DIRTY: two states that differ there only step to states that differ there only
(spec/10_state.md R21, R27). -/
def Obligations.SoundTimerAndDirtyAreNeverRead : Prop :=
  ∀ (s t : State) (b : Byte) (d : Bool), step s = .next t →
    ∃ u, step { s with st := b, dirty := d } = .next u ∧ UnchangedExcept [.st, .dirty] t u

/-- Instructions come from memory as it is at the moment of the fetch: after a successful `FX55` or `FX33`, any fetch
from memory as that step left it, the very next one among them, takes each of its two bytes as stored if the store
covers it, and as it was before if not (spec/20_memory.md R52, derived by the spec). -/
def Obligations.StoreIsSeenByTheNextFetch : Prop :=
  ∀ (s t u : State) (x : RegIx), s.mem.wf = true → step s = .next t → t.status = some .success →
    (∀ a, u.mem.read a = t.mem.read a) →
    (Fetches s (.ldMemVx x) →
      let byte := overlay s.mem s.i.toNat (x.toNat + 1) fun k => s.reg (BitVec.ofNat 4 k)
      u.fetchWord = joinBytes (byte u.pc.toNat) (byte (u.pc.toNat + 1))) ∧
    (Fetches s (.ldB x) →
      let byte := overlay s.mem s.i.toNat 3 fun k => BitVec.ofNat 8 ((s.reg x).toNat / 10 ^ (2 - k) % 10)
      u.fetchWord = joinBytes (byte u.pc.toNat) (byte (u.pc.toNat + 1)))

/-- An instruction placed where the step fetches is what the step runs (spec/40_cycle.md R81, spec/20_memory.md
R44; placing stands for the image load, log 26). -/
def Obligations.PlacedInstructionIsFetched : Prop :=
  ∀ (s : State) (i : Instr), StateOk s → i.wellFormed = true →
    Fetches (s.withFetchWord 16 (encode i).toNat) i

/-! ## Reset and image load -/

/-- The values reset leaves (spec/10_state.md R32, spec/70_reset_and_hazards.md R200, R201). The numbers 0x200, 0
for `SP` and the font's place and bytes are the spec's decisions D2 to D5 and D7 (logs 6, 7, 8). -/
def Obligations.ResetLeavesTheseValues : Prop :=
  (∀ r, State.reset.reg r = 0) ∧ State.reset.i = 0 ∧ State.reset.pc = 0x200 ∧
  (∀ k < 16, State.reset.slot? k = some 0) ∧ State.reset.sp = 0 ∧ State.reset.dt = 0 ∧ State.reset.st = 0 ∧
  State.reset.keys = 0 ∧ (∀ x y, pixel State.reset.fb x y = false) ∧ State.reset.dirty = false ∧
  State.reset.wait = false ∧ State.reset.waitX = 0 ∧ State.reset.keyPrev = 0 ∧
  (∀ (a : Nat) (h : a < fontTable.length), State.reset.mem.read a = fontTable[a]) ∧ fontTable.length = 80 ∧
  (∀ a, 80 ≤ a → State.reset.mem.read a = 0)

/-- An image of at most 3584 bytes is copied verbatim from 0x200 on and everything else is as after reset; a larger
one is rejected (spec/70_reset_and_hazards.md R204; the load address is decision D5, the result's name D32; that the
draw counter goes on is the model's choice, log 3). -/
def Obligations.ImageIsLoadedVerbatim : Prop :=
  ∀ (image : List Byte) (s : State),
    (image.length ≤ 3584 → ∃ t, hostReset image s = .loaded t ∧
      UnchangedExcept [.mem, .draws] State.reset t ∧
      (∀ (j : Nat) (h : j < image.length), t.mem.read (0x200 + j) = image[j]) ∧
      (∀ a, a < 0x200 ∨ 0x200 + image.length ≤ a → t.mem.read a = State.reset.mem.read a) ∧
      t.draws = s.draws) ∧
    (image.length > 3584 → hostReset image s = .imageTooLarge)

/-! ## Control transfer -/

/-- `0NNN` answers UNSUPPORTED_OPCODE and writes nothing; `PC` stays past the word and the timers do not count; its
words are the family-0 words but 0x00E0 and 0x00EE (spec/41_flow.md R90). -/
def Obligations.SysAnswersUnsupportedOpcode : Prop :=
  (∀ (nnn : Addr12) (s : State), OnlyAnswers (.sys nnn) s .unsupportedOpcode) ∧
  (∀ (nnn : Addr12) (s : State), Fetches s (.sys nnn) →
    ∃ t, step s = .next t ∧ t.status = some .unsupportedOpcode ∧ t.pc = s.pc + 2 ∧
      UnchangedExcept [.pc, .status, .errorSeen] s t) ∧
  (∀ w : Word, opField w = 0 → w ≠ 0x00E0 → w ≠ 0x00EE → decode w = .ok (.sys (nnnField w)))

/-- `1NNN` sets `PC` to `NNN`, whatever `NNN` is, and changes nothing else (spec/41_flow.md R91). -/
def Obligations.JumpGoesToTheAddress : Prop :=
  ∀ (nnn : Addr12) (s : State), CompletesWith (.jp nnn) s [.pc] fun t => t.pc.toNat = nnn.toNat

/-- `BNNN` sets `PC` to the unreduced sum of `NNN` and `V[0]` and changes nothing else, `VF` neither
(spec/41_flow.md R94; that the sum is not cut to 12 bits is decision D13, log 14). -/
def Obligations.IndexedJumpAddsV0 : Prop :=
  ∀ (nnn : Addr12) (s : State),
    CompletesWith (.jpV0 nnn) s [.pc] fun t => t.pc.toNat = nnn.toNat + (s.reg 0).toNat

/-- `00EE` pops the top slot into `PC` and leaves the slot as it is; with an empty stack it answers STACK_UNDERFLOW
and changes nothing (spec/41_flow.md R92; the underflow is decision D9 and the stop above 16 the model's, logs 9
and 10). -/
def Obligations.ReturnPopsTheTopSlot : Prop :=
  ∀ s : State,
    (s.sp.toNat = 0 → OnlyAnswers .ret s .stackUnderflow) ∧
    (1 ≤ s.sp.toNat → s.sp.toNat ≤ 16 → CompletesWith .ret s [.pc, .sp] fun t =>
      t.sp.toNat = s.sp.toNat - 1 ∧ s.slot? (s.sp.toNat - 1) = some t.pc) ∧
    (16 < s.sp.toNat → exec .ret s = .fault .stackSlotAbsent)

/-- `2NNN` pushes the advanced `PC` and goes to `NNN`, touching no other slot; with 16 slots occupied it answers
STACK_OVERFLOW and changes nothing (spec/41_flow.md R93; the overflow is decision D8 and the stop above 16 the
model's, logs 9 and 10). -/
def Obligations.CallPushesTheReturnAddress : Prop :=
  ∀ (nnn : Addr12) (s : State),
    (s.sp.toNat = 16 → OnlyAnswers (.call nnn) s .stackOverflow) ∧
    (s.sp.toNat < 16 → CompletesWith (.call nnn) s [.pc, .sp, .stack] fun t =>
      t.pc.toNat = nnn.toNat ∧ t.sp.toNat = s.sp.toNat + 1 ∧ t.slot? s.sp.toNat = some s.pc ∧
      ∀ k, k ≠ s.sp.toNat → t.slot? k = s.slot? k) ∧
    (16 < s.sp.toNat → exec (.call nnn) s = .fault .stackSlotAbsent)

/-- A call whose next executed instruction is a return comes back to the instruction after the call, with the stack
as deep as before and the return address left in its slot (spec/41_flow.md R96, derived by the spec). -/
def Obligations.CallThenReturnComesBack : Prop :=
  ∀ (nnn : Addr12) (s u : State), s.sp.toNat < 16 → Fetches s (.call nnn) → step s = .next u →
    Fetches u .ret →
    ∃ t, step u = .next t ∧ t.status = some .success ∧ t.sp = s.sp ∧ t.pc = s.pc + 2 ∧
      t.slot? s.sp.toNat = some (s.pc + 2)

/-! ## Skips -/

/-- `3XNN`, `4XNN`, `5XY0` and `9XY0` move `PC` one instruction further exactly when their condition holds, and
write nothing else, no flag and no register (spec/42_skip.md R100 to R104). -/
def Obligations.SkipsMovePcOnTheirCondition : Prop :=
  ∀ (x y : RegIx) (nn : Byte) (s : State),
    CompletesWith (.seImm x nn) s [.pc] (fun t => t.pc = if s.reg x = nn then s.pc + 2 else s.pc) ∧
    CompletesWith (.sneImm x nn) s [.pc] (fun t => t.pc = if s.reg x ≠ nn then s.pc + 2 else s.pc) ∧
    CompletesWith (.seReg x y) s [.pc] (fun t => t.pc = if s.reg x = s.reg y then s.pc + 2 else s.pc) ∧
    CompletesWith (.sneReg x y) s [.pc] (fun t => t.pc = if s.reg x ≠ s.reg y then s.pc + 2 else s.pc)

/-! ## Load, arithmetic, logic -/

/-- `6XNN`, `8XY0`, `8XY1`, `8XY2`, `8XY3` write their result to `V[X]` and no other register, so `VF` only when
`X = 15` (spec/43_alu.md R110, R112 to R115). -/
def Obligations.LoadAndLogicWriteVxOnly : Prop :=
  ∀ (x y : RegIx) (nn : Byte) (s : State),
    CompletesWith (.ldImm x nn) s [.v] (fun t => t.reg x = nn ∧ RegsUnchangedExcept [x] s t) ∧
    CompletesWith (.ldReg x y) s [.v] (fun t => t.reg x = s.reg y ∧ RegsUnchangedExcept [x] s t) ∧
    CompletesWith (.orReg x y) s [.v] (fun t => t.reg x = s.reg x ||| s.reg y ∧ RegsUnchangedExcept [x] s t) ∧
    CompletesWith (.andReg x y) s [.v] (fun t => t.reg x = s.reg x &&& s.reg y ∧ RegsUnchangedExcept [x] s t) ∧
    CompletesWith (.xorReg x y) s [.v] (fun t => t.reg x = s.reg x ^^^ s.reg y ∧ RegsUnchangedExcept [x] s t)

/-- `7XNN` adds modulo 256 into `V[X]` and never writes the flag (spec/43_alu.md R111). -/
def Obligations.AddImmediateWrapsWithoutFlag : Prop :=
  ∀ (x : RegIx) (nn : Byte) (s : State), CompletesWith (.addImm x nn) s [.v] fun t =>
    (t.reg x).toNat = ((s.reg x).toNat + nn.toNat) % 256 ∧ RegsUnchangedExcept [x] s t

/-- `8XY4`: the sum modulo 256 in `V[X]`, the carry in `VF`; with `X = 15` the sum stands, with `Y = 15` the old
`VF` is added (spec/43_alu.md R116; the two cases with 15 are decision D14 of R121, log 15). -/
def Obligations.AddSetsCarry : Prop :=
  ∀ (x y : RegIx) (s : State), CompletesWith (.addReg x y) s [.v] fun t =>
    (t.reg x).toNat = ((s.reg x).toNat + (s.reg y).toNat) % 256 ∧
    (x ≠ 15 → t.reg 15 = if (s.reg x).toNat + (s.reg y).toNat > 255 then 1 else 0) ∧
    RegsUnchangedExcept [x, 15] s t

/-- `8XY5` and `8XY7`: the difference modulo 256 in `V[X]`, and in `VF` 1 when there is no borrow, equality included;
with `X = 15` the difference stands (spec/43_alu.md R117, R119; the cases with 15 are decision D14 of R121, log
15). -/
def Obligations.SubtractSetsNoBorrow : Prop :=
  ∀ (x y : RegIx) (s : State),
    (CompletesWith (.sub x y) s [.v] fun t =>
      (t.reg x).toNat = ((s.reg x).toNat + 256 - (s.reg y).toNat) % 256 ∧
      (x ≠ 15 → t.reg 15 = if (s.reg x).toNat ≥ (s.reg y).toNat then 1 else 0) ∧
      RegsUnchangedExcept [x, 15] s t) ∧
    (CompletesWith (.subn x y) s [.v] fun t =>
      (t.reg x).toNat = ((s.reg y).toNat + 256 - (s.reg x).toNat) % 256 ∧
      (x ≠ 15 → t.reg 15 = if (s.reg y).toNat ≥ (s.reg x).toNat then 1 else 0) ∧
      RegsUnchangedExcept [x, 15] s t)

/-- `8XY6` and `8XYE` shift `V[X]` by one, whatever `Y` is, with the bit shifted out in `VF`; with `X = 15` the
shifted value stands (spec/43_alu.md R118, R120; the case `X = 15` is decision D14 of R121, log 15). -/
def Obligations.ShiftsSetTheBitShiftedOut : Prop :=
  ∀ (x y : RegIx) (s : State),
    (CompletesWith (.shr x y) s [.v] fun t =>
      (t.reg x).toNat = (s.reg x).toNat / 2 ∧ (x ≠ 15 → (t.reg 15).toNat = (s.reg x).toNat % 2) ∧
      RegsUnchangedExcept [x, 15] s t) ∧
    (CompletesWith (.shl x y) s [.v] fun t =>
      (t.reg x).toNat = (s.reg x).toNat * 2 % 256 ∧ (x ≠ 15 → (t.reg 15).toNat = (s.reg x).toNat / 128) ∧
      RegsUnchangedExcept [x, 15] s t)

/-- `CXNN` writes to `V[X]` the drawn byte masked by `NN`: no bit outside `NN`, and at most `NN`; the draw is
consumed. It holds for every value of the draw, a free value (spec/43_alu.md R122, decision D23, log 3). -/
def Obligations.RandomByteIsMasked : Prop :=
  ∀ (x : RegIx) (nn : Byte) (s : State), CompletesWith (.rnd x nn) s [.v, .draws] fun t =>
    t.reg x = Config.draw8 s.draws &&& nn ∧ t.reg x &&& ~~~nn = 0 ∧ (t.reg x).toNat ≤ nn.toNat ∧
    t.draws = s.draws + 1 ∧ RegsUnchangedExcept [x] s t

/-! ## Index register and memory -/

/-- `ANNN` sets `I` to `NNN` and changes nothing else (spec/44_index_memory.md R130). -/
def Obligations.LoadIndexTakesTheAddress : Prop :=
  ∀ (nnn : Addr12) (s : State),
    CompletesWith (.ldI nnn) s [.i] fun t => t.i.toNat = nnn.toNat ∧ t.i.toNat ≤ 0xFFF

/-- `FX1E` adds `V[X]` to `I` modulo 2^16 and always writes `VF`: 1 when the unbounded sum exceeds 0xFFF; with
`X = 15` the old `VF` is added (spec/44_index_memory.md R131; that `I` is not cut to 12 bits is decision D13, the
case `X = 15` is D14, logs 14 and 15). -/
def Obligations.AddIndexFlagsTheRange : Prop :=
  ∀ (x : RegIx) (s : State), CompletesWith (.addI x) s [.i, .v] fun t =>
    t.i.toNat = (s.i.toNat + (s.reg x).toNat) % 65536 ∧
    t.reg 15 = (if s.i.toNat + (s.reg x).toNat > 0xFFF then 1 else 0) ∧ RegsUnchangedExcept [15] s t

/-- `FX29` sets `I` to five times the whole value of `V[X]` (spec/44_index_memory.md R132; the base 0 and the 5 are
decisions D2 and D3, log 6). -/
def Obligations.FontAddressIsFiveTimesTheDigit : Prop :=
  ∀ (x : RegIx) (s : State), CompletesWith (.ldF x) s [.i] fun t => t.i.toNat = (s.reg x).toNat * 5

/-- `FX33` stores hundreds, tens and units at `I`, `I + 1`, `I + 2` and no other byte; where `I + 2` lies beyond
memory it answers MEM_RANGE and changes nothing (spec/44_index_memory.md R133; the range error is decision D10,
log 11). -/
def Obligations.DecimalDigitsAreStored : Prop :=
  ∀ (x : RegIx) (s : State), s.mem.wf = true →
    (s.i.toNat + 2 ≤ 4095 → CompletesWith (.ldB x) s [.mem] fun t =>
      (t.mem.read (s.indexed 0)).toNat = (s.reg x).toNat / 100 ∧
      (t.mem.read (s.indexed 1)).toNat = (s.reg x).toNat / 10 % 10 ∧
      (t.mem.read (s.indexed 2)).toNat = (s.reg x).toNat % 10 ∧
      ∀ a, a < s.indexed 0 ∨ s.indexed 0 + 3 ≤ a → t.mem.read a = s.mem.read a) ∧
    (s.i.toNat + 2 > 4095 → OnlyAnswers (.ldB x) s .memRange)

/-- `FX55` stores `V[k]` at `I + k` for `k = 0 .. X` and no other byte, `I` unchanged; where `I + X` lies beyond
memory it answers MEM_RANGE and stores nothing (spec/44_index_memory.md R134, R136; the range error is decision
D10, log 11). -/
def Obligations.StoreMultipleStoresV0ToVx : Prop :=
  ∀ (x : RegIx) (s : State), s.mem.wf = true →
    (s.i.toNat + x.toNat ≤ 4095 → CompletesWith (.ldMemVx x) s [.mem] fun t =>
      (∀ k : RegIx, k ≤ x → t.mem.read (s.indexed k.toNat) = s.reg k) ∧
      ∀ a, a < s.indexed 0 ∨ s.indexed 0 + (x.toNat + 1) ≤ a → t.mem.read a = s.mem.read a) ∧
    (s.i.toNat + x.toNat > 4095 → OnlyAnswers (.ldMemVx x) s .memRange)

/-- `FX65` loads `V[k]` from `I + k` for `k = 0 .. X` and no other register, `I` and memory unchanged; where `I + X`
lies beyond memory it answers MEM_RANGE and loads nothing (spec/44_index_memory.md R135, R136; the range error is
decision D10, log 11). -/
def Obligations.LoadMultipleLoadsV0ToVx : Prop :=
  ∀ (x : RegIx) (s : State),
    (s.i.toNat + x.toNat ≤ 4095 → CompletesWith (.ldVxMem x) s [.v] fun t =>
      (∀ k : RegIx, k ≤ x → t.reg k = s.mem.read (s.indexed k.toNat)) ∧
      ∀ k : RegIx, x < k → t.reg k = s.reg k) ∧
    (s.i.toNat + x.toNat > 4095 → OnlyAnswers (.ldVxMem x) s .memRange)

/-- What `FK55` stored, a later `FK65` at the same `I` loads back into `V[0]` to `V[K]`, with the registers above `K`
untouched, if nothing has written those bytes (spec/44_index_memory.md R137, derived by the spec). -/
def Obligations.StoreThenLoadGivesBackTheRegisters : Prop :=
  ∀ (k : RegIx) (s t u : State), s.mem.wf = true → s.i.toNat + k.toNat ≤ 4095 →
    exec (.ldMemVx k) s = .next t → u.i = s.i →
    (∀ j, j ≤ k.toNat → u.mem.read (s.indexed j) = t.mem.read (s.indexed j)) →
    CompletesWith (.ldVxMem k) u [.v] fun w =>
      (∀ j : RegIx, j ≤ k → w.reg j = s.reg j) ∧ ∀ j : RegIx, k < j → w.reg j = u.reg j

/-! ## Display -/

/-- `00E0` turns every cell off and sets DIRTY, and changes nothing else, `VF` neither (spec/45_display.md R140). -/
def Obligations.ClearTurnsEveryCellOff : Prop :=
  ∀ s : State, CompletesWith .cls s [.fb, .dirty] fun t =>
    (∀ x y, pixel t.fb x y = false) ∧ t.dirty = true

/-- `DXYN` in closed form: a cell changes exactly if a set bit of a sprite row is placed on it, wrapped modulo 64
and 32; `VF` is 1 exactly if a cell went from on to off, and is always written; DIRTY is set; nothing else
changes. Beyond memory it answers MEM_RANGE and changes nothing; with `N = 0` it reads no byte
(spec/45_display.md R141, R142, R143; the range error, the source `I` and the wrap are decisions D10, D15, D16,
logs 11, 16, 17). -/
def Obligations.DrawXorsThePlacedSprite : Prop :=
  ∀ (x y : RegIx) (n : Nibble) (s : State),
    (n.toNat = 0 ∨ s.i.toNat + n.toNat - 1 ≤ 4095 → CompletesWith (.drw x y n) s [.v, .fb, .dirty] fun t =>
      (∀ (cx : Col) (cy : Row), (pixel t.fb cx cy ≠ pixel s.fb cx cy) ↔
        ∃ r < n.toNat, ∃ c < 8, (s.mem.read (s.indexed r)).getLsbD (7 - c) = true ∧
          ((s.reg x).toNat + c) % 64 = cx.val ∧ ((s.reg y).toNat + r) % 32 = cy.val) ∧
      (t.reg 15 = 1 ∨ t.reg 15 = 0) ∧
      (t.reg 15 = 1 ↔ ∃ cx cy, pixel s.fb cx cy = true ∧ pixel t.fb cx cy = false) ∧
      t.dirty = true ∧ RegsUnchangedExcept [15] s t) ∧
    (n.toNat ≥ 1 → s.i.toNat + n.toNat - 1 > 4095 → OnlyAnswers (.drw x y n) s .memRange)

/-- Drawing the same sprite at the same place twice gives back the framebuffer, and the second draw's `VF` is 1
exactly if the sprite sets a cell that was off before the first (spec/45_display.md R144 as its R142 has it: the
restored framebuffer is R144's sentence, the condition on `VF` is the model's derivation, log 29). -/
def Obligations.DrawingTwiceRestoresTheFramebuffer : Prop :=
  ∀ (x y : RegIx) (n : Nibble) (s t u w : State),
    exec (.drw x y n) s = .next t → t.status = some .success →
    u.fb = t.fb → u.i = s.i → u.reg x = s.reg x → u.reg y = s.reg y →
    (∀ r < n.toNat, u.mem.read (s.indexed r) = s.mem.read (s.indexed r)) →
    exec (.drw x y n) u = .next w →
    w.status = some .success ∧ (∀ cx cy, pixel w.fb cx cy = pixel s.fb cx cy) ∧
    (w.reg 15 = 1 ↔ ∃ r < n.toNat, ∃ c < 8, (s.mem.read (s.indexed r)).getLsbD (7 - c) = true ∧
      pixel s.fb (Fin.ofNat 64 ((s.reg x).toNat + c)) (Fin.ofNat 32 ((s.reg y).toNat + r)) = false)

/-- EXPECTED TO FAIL. The second half of spec/45_display.md R144 to the letter: the second of two equal draws with a
set bit always leaves `VF = 1`. By R142 it does not when every cell of the sprite was on before the first draw
(log 29). -/
def Obligations.SecondEqualDrawAlwaysCollides : Prop :=
  ∀ (x y : RegIx) (n : Nibble) (s t u w : State),
    exec (.drw x y n) s = .next t → t.status = some .success →
    u.fb = t.fb → u.i = s.i → u.reg x = s.reg x → u.reg y = s.reg y →
    (∀ r < n.toNat, u.mem.read (s.indexed r) = s.mem.read (s.indexed r)) →
    (∃ r < n.toNat, s.mem.read (s.indexed r) ≠ 0) →
    exec (.drw x y n) u = .next w → w.reg 15 = 1

/-! ## Keys -/

/-- `EX9E` and `EXA1` skip on the state of the key that the low four bits of `V[X]` name, and change nothing else
(spec/46_keys.md R150, R151, R157; that the high bits are ignored is decision D17, log 18). -/
def Obligations.KeySkipsTestTheNamedKey : Prop :=
  ∀ (x : RegIx) (s : State),
    CompletesWith (.skp x) s [.pc] (fun t =>
      t.pc = if s.keys.getLsbD ((s.reg x).toNat % 16) = true then s.pc + 2 else s.pc) ∧
    CompletesWith (.sknp x) s [.pc] (fun t =>
      t.pc = if s.keys.getLsbD ((s.reg x).toNat % 16) = true then s.pc else s.pc + 2)

/-- `FX0A` completes: its handler enters the wait with this step's sample of KEYS and answers KEY_WAIT, with nothing
else changed; and if the input source then presses keys and the host does not cancel, the next step writes the
index of the lowest newly held key to `V[X]`, leaves the wait, counts the timers once and answers SUCCESS, with
`PC` as it was (spec/46_keys.md R152, R153, decisions D18 and D24, logs 19 and 21). -/
def Obligations.KeyWaitIssuesAndCompletesOnAPress : Prop :=
  ∀ (x : RegIx) (s : State), ∃ t, exec (.ldVxK x) s = .next t ∧ t.status = some .keyWait ∧
    t.wait = true ∧ t.waitX = x ∧ t.keyPrev = s.keys ∧
    UnchangedExcept [.wait, .waitX, .keyPrev, .status] s t ∧
    ∀ (keys : Word) (k : Nat), s.cancel = false → k < 16 →
      keys.getLsbD k = true → s.keys.getLsbD k = false →
      (∀ j < k, keys.getLsbD j = false ∨ s.keys.getLsbD j = true) →
      ∃ w, step (applyMove (.keys keys) t) = .next w ∧ w.status = some .success ∧ w.wait = false ∧
        (w.reg x).toNat = k ∧ RegsUnchangedExcept [x] s w ∧
        w.dt.toNat = s.dt.toNat - 1 ∧ w.st.toNat = s.st.toNat - 1 ∧ w.keys = keys ∧
        UnchangedExcept [.v, .wait, .waitX, .keyPrev, .keys, .dt, .st, .status] s w

/-- A poll step fetches nothing. With `cancel` it ends the wait with WAIT_CANCELLED and changes nothing else; without
a newly held key it samples KEYS and changes nothing else; otherwise it completes with the lowest such key
(spec/46_keys.md R153, R154, R155, decisions D18, D19 and D24, logs 19, 20 and 21). -/
def Obligations.PollStepWaitsCancelsOrCompletes : Prop :=
  ∀ s : State, s.wait = true →
    (s.cancel = true → ∃ t, step s = .next t ∧ t.status = some .waitCancelled ∧ t.wait = false ∧
      t.errorSeen = true ∧ UnchangedExcept [.wait, .status, .errorSeen] s t) ∧
    (s.cancel = false → s.keys &&& ~~~s.keyPrev = 0 → ∃ t, step s = .next t ∧ t.status = some .keyWait ∧
      t.keyPrev = s.keys ∧ UnchangedExcept [.keyPrev, .status] s t) ∧
    (s.cancel = false → s.keys &&& ~~~s.keyPrev ≠ 0 → ∃ t k, step s = .next t ∧ t.status = some .success ∧
      k < 16 ∧ (s.keys &&& ~~~s.keyPrev).getLsbD k = true ∧
      (∀ j < k, (s.keys &&& ~~~s.keyPrev).getLsbD j = false) ∧
      (t.reg s.waitX).toNat = k ∧ RegsUnchangedExcept [s.waitX] s t ∧ t.wait = false ∧
      t.dt.toNat = s.dt.toNat - 1 ∧ t.st.toNat = s.st.toNat - 1 ∧
      UnchangedExcept [.v, .wait, .dt, .st, .status] s t)

/-! ## Timers -/

/-- `FX07` copies `DT` as it stands before the step's countdown to `V[X]`, and writes no other register; the step
then counts `DT` down (spec/47_timers.md R160). -/
def Obligations.ReadDelayTimerBeforeCountdown : Prop :=
  (∀ (x : RegIx) (s : State), CompletesWith (.ldVxDt x) s [.v] fun t =>
    t.reg x = s.dt ∧ RegsUnchangedExcept [x] s t) ∧
  (∀ (x : RegIx) (s : State), Fetches s (.ldVxDt x) →
    ∃ t, step s = .next t ∧ t.status = some .success ∧ t.reg x = s.dt ∧ t.dt.toNat = s.dt.toNat - 1)

/-- `FX15` sets `DT` and `FX18` sets `ST` to `V[X]`, changing nothing else; after the countdown of the same step the
timer is `V[X] - 1`, or 0 when `V[X] = 0` (spec/47_timers.md R161, R162; the value after the step is the spec's
derivation from spec/40_cycle.md R84). -/
def Obligations.SetTimersThenCount : Prop :=
  (∀ (x : RegIx) (s : State),
    CompletesWith (.ldDtVx x) s [.dt] (fun t => t.dt = s.reg x) ∧
    CompletesWith (.ldStVx x) s [.st] (fun t => t.st = s.reg x)) ∧
  (∀ (x : RegIx) (s : State), Fetches s (.ldDtVx x) →
    ∃ t, step s = .next t ∧ t.dt.toNat = (s.reg x).toNat - 1 ∧ t.st.toNat = s.st.toNat - 1) ∧
  (∀ (x : RegIx) (s : State), Fetches s (.ldStVx x) →
    ∃ t, step s = .next t ∧ t.st.toNat = (s.reg x).toNat - 1 ∧ t.dt.toNat = s.dt.toNat - 1)

/-! ## What the host can tell -/

/-- EXPECTED TO FAIL. The claim of spec/60_exceptions.md R177 that `PC` tells a MEM_RANGE at fetch from a MEM_RANGE
of a handler: both can leave `PC` at 0xFFF or 0x1000 (log 30). -/
def Obligations.PcTellsFetchFailuresApart : Prop :=
  ∀ s s' t t' : State, s.wait = false → memSize ≤ s.pc.toNat + 1 → step s = .next t →
    s'.wait = false → s'.pc.toNat + 1 < memSize → step s' = .next t' → t'.status = some .memRange →
    t.pc ≠ t'.pc

/-! ## The key wait under fair input -/

/-- Under the fairness premise P5 every key wait ends; and a wait ends in three ways only: by a newly held key seen at
a poll, by `cancel` at a poll, or by reset (spec/70_reset_and_hazards.md R214, spec/46_keys.md R153,
spec/60_exceptions.md R190). -/
def Obligations.FairInputEndsEveryKeyWait : Prop :=
  (∀ (es : Schedule) (s : State), FairInput es s →
    ∀ n t, stateAt es s n = some t → t.wait = true → ∃ m u, n < m ∧ stateAt es s m = some u ∧ u.wait = false) ∧
  (∀ (e : Event) (t u : State), t.wait = true → happen e t = .next u → u.wait = false →
    (e = .step ∧ (t.cancel = true ∨ t.keys &&& ~~~t.keyPrev ≠ 0)) ∨ ∃ image, e = .move (.reset image))

/-! ## The configuration -/

/-- `DXYN` at any configuration, under either edge policy: `wrap` reduces each coordinate, `clip` drops what lies
outside the grid and counts no collision there; the range error follows the configured size of memory
(spec/45_display.md R141, R142, R143 with the parameters MEM_SIZE and EDGE_POLICY of spec/00_scope.md R5; logs 5 and
17). -/
def Obligations.DrawFollowsTheEdgePolicy : Prop :=
  ∀ (c : Config) (x y : RegIx) (n : Nibble) (s : State),
    (n.toNat = 0 ∨ s.i.toNat + n.toNat - 1 < c.memSize →
      Completes (execIn c (.drw x y n) s) s [.v, .fb, .dirty] fun t =>
        (∀ (cx : Col) (cy : Row), (pixel t.fb cx cy ≠ pixel s.fb cx cy) ↔
          ∃ r < n.toNat, ∃ k < 8, (s.mem.read (s.indexed r)).getLsbD (7 - k) = true ∧
            FallsOn c.edgePolicy ((s.reg x).toNat + k) ((s.reg y).toNat + r) cx cy) ∧
        (t.reg 15 = 1 ∨ t.reg 15 = 0) ∧
        (t.reg 15 = 1 ↔ ∃ cx cy, pixel s.fb cx cy = true ∧ pixel t.fb cx cy = false) ∧
        t.dirty = true ∧ RegsUnchangedExcept [15] s t) ∧
    (n.toNat ≥ 1 → c.memSize ≤ s.i.toNat + n.toNat - 1 → Answers (execIn c (.drw x y n) s) s .memRange)

/-- What depends on the configuration follows it, in the step and in the five other handlers that read it: the range of
the fetch and of `FX33`, `FX55` and `FX65` (MEM_SIZE), the overflow of `2NNN` and the width of a return address
(STACK_DEPTH, STACK_ENTRY_BITS), and the glyph address (FONT_BASE, GLYPH_BYTES). The parameters are those of
spec/00_scope.md R5, the handlers' rules spec/40_cycle.md R81, spec/41_flow.md R93 and spec/44_index_memory.md R132 to
R135, with `I` modulo 2^16 by spec/10_state.md R13. Two clauses are the model's choice and no rule of the spec: R93
pushes `PC` and R5 gives no truncation, so that a slot keeps `PC` modulo 2^STACK_ENTRY_BITS is DESIGN CHOICE, log 33
(at 16 bits or more that is `PC` itself); and that a call with `SP` of 16 or more below a greater configured depth
stops in the fault stackSlotAbsent is DESIGN CHOICE, logs 9 and 33. -/
def Obligations.ConfigurationIsFollowed : Prop :=
  ∀ (c : Config) (x : RegIx) (nnn : Addr12) (s : State),
    (s.wait = false → c.memSize ≤ s.pc.toNat + 1 → Answers (stepIn c s) s .memRange) ∧
    (∀ i, s.wait = false → s.pc.toNat + 1 < c.memSize → decode s.fetchWord = .ok i →
      stepIn c s = endStep (execIn c i { s with pc := s.pc + 2 })) ∧
    (s.i.toNat + 2 < c.memSize → Memory.wfIn c.memSize s.mem = true →
      Completes (execIn c (.ldB x) s) s [.mem] fun t =>
        ∀ a, t.mem.read a =
          overlay s.mem s.i.toNat 3 (fun k => BitVec.ofNat 8 ((s.reg x).toNat / 10 ^ (2 - k) % 10)) a) ∧
    (c.memSize ≤ s.i.toNat + 2 → Answers (execIn c (.ldB x) s) s .memRange) ∧
    (s.i.toNat + x.toNat < c.memSize → Memory.wfIn c.memSize s.mem = true →
      Completes (execIn c (.ldMemVx x) s) s [.mem] fun t =>
        ∀ a, t.mem.read a = overlay s.mem s.i.toNat (x.toNat + 1) (fun k => s.reg (BitVec.ofNat 4 k)) a) ∧
    (s.i.toNat + x.toNat < c.memSize →
      Completes (execIn c (.ldVxMem x) s) s [.v] fun t =>
        ∀ r, t.reg r = if r ≤ x then s.mem.read (s.indexed r.toNat) else s.reg r) ∧
    (c.memSize ≤ s.i.toNat + x.toNat →
      Answers (execIn c (.ldMemVx x) s) s .memRange ∧ Answers (execIn c (.ldVxMem x) s) s .memRange) ∧
    (s.sp.toNat = c.stackDepth → Answers (execIn c (.call nnn) s) s .stackOverflow) ∧
    (s.sp.toNat ≠ c.stackDepth → s.sp.toNat < 16 →
      Completes (execIn c (.call nnn) s) s [.pc, .sp, .stack] fun t =>
        t.pc.toNat = nnn.toNat ∧ t.sp.toNat = s.sp.toNat + 1 ∧
        (∃ w, t.slot? s.sp.toNat = some w ∧ w.toNat = s.pc.toNat % 2 ^ c.stackEntryBits) ∧
        ∀ k, k ≠ s.sp.toNat → t.slot? k = s.slot? k) ∧
    (s.sp.toNat ≠ c.stackDepth → 16 ≤ s.sp.toNat → execIn c (.call nnn) s = .fault .stackSlotAbsent) ∧
    Completes (execIn c (.ldF x) s) s [.i] fun t =>
      t.i.toNat = (c.fontBase + (s.reg x).toNat * c.glyphBytes) % 65536

/-- Reset and image load at any configuration that has room for its font and for the spec's own (the 80 bytes that an
unlisted cell reads as, logs 31 and 33): `PC` at the configured base modulo 2^16, the configured font at its base, 0
elsewhere, and the image from the base on; an image too large for the configured memory is rejected
(spec/70_reset_and_hazards.md R200, R204 with the parameters MEM_SIZE, FONT_BASE, FONT_TABLE and PROGRAM_BASE of
spec/00_scope.md R5; logs 5, 6 and 7). Two clauses are the model's choice and no rule of the spec: that the draw counter
goes on (DESIGN CHOICE, log 3), and that of a base above 0xFFFF `PC` has the low 16 bits (DESIGN CHOICE, log 33; a base
of at most 0xFFFF is `PC` itself). -/
def Obligations.ResetFollowsTheConfiguration : Prop :=
  ∀ (c : Config) (image : List Byte) (s : State), 80 ≤ c.memSize → c.fontBase + c.fontTable.length ≤ c.memSize →
    c.programBase ≤ c.memSize →
    (resetIn c).pc.toNat = c.programBase % 65536 ∧ UnchangedExcept [.pc, .mem] State.reset (resetIn c) ∧
    (∀ a, (resetIn c).mem.read a = if c.fontBase ≤ a then c.fontTable.getD (a - c.fontBase) 0 else 0) ∧
    (image.length ≤ c.memSize - c.programBase → ∃ t, hostResetIn c image s = .loaded t ∧
      UnchangedExcept [.mem, .draws] (resetIn c) t ∧ t.draws = s.draws ∧
      ∀ a, t.mem.read a =
        if c.programBase ≤ a then image.getD (a - c.programBase) ((resetIn c).mem.read a) else (resetIn c).mem.read a) ∧
    (image.length > c.memSize - c.programBase → hostResetIn c image s = .imageTooLarge)

/-- The invariant of `StepKeepsTheStateOk` at every configuration whose stack fits the state: a step answers a next
state with a status, memory stays in canonical form within its configured size, and `SP` within the configured depth
(spec/10_state.md R17, spec/20_memory.md R40, spec/60_exceptions.md R170, with R5 of spec/00_scope.md). -/
def Obligations.StepsKeepTheStateOkAtEveryConfiguration : Prop :=
  ∀ (c : Config) (s : State), c.stackDepth ≤ 16 → Memory.wfIn c.memSize s.mem = true → s.sp.toNat ≤ c.stackDepth →
    ∃ t st, stepIn c s = .next t ∧ t.status = some st ∧
      Memory.wfIn c.memSize t.mem = true ∧ t.sp.toNat ≤ c.stackDepth
end

