-- ==== Sys2Proof/Laws/Decode.lean ====
section
/-!
SUPPORT. The fields of a word and of an encoded word (spec/30_encoding.md R61, R62) as numbers: each format gives
back what it was made of, and a word is its bytes.
-/
namespace Sys2Proof

/-! ### Fields as numbers -/

theorem opField_toNat (w : Word) : (opField w).toNat = w.toNat / 4096 := by
  have := w.isLt
  simp only [opField, BitVec.extractLsb'_toNat, Nat.shiftRight_eq_div_pow]; omega
theorem xField_toNat (w : Word) : (xField w).toNat = w.toNat / 256 % 16 := by
  simp only [xField, BitVec.extractLsb'_toNat, Nat.shiftRight_eq_div_pow]
theorem yField_toNat (w : Word) : (yField w).toNat = w.toNat / 16 % 16 := by
  simp only [yField, BitVec.extractLsb'_toNat, Nat.shiftRight_eq_div_pow]
theorem nField_toNat (w : Word) : (nField w).toNat = w.toNat % 16 := by
  simp only [nField, BitVec.extractLsb'_toNat, Nat.shiftRight_eq_div_pow]; omega
theorem nnField_toNat (w : Word) : (nnField w).toNat = w.toNat % 256 := by
  simp only [nnField, BitVec.extractLsb'_toNat, Nat.shiftRight_eq_div_pow]; omega
theorem nnnField_toNat (w : Word) : (nnnField w).toNat = w.toNat % 4096 := by
  simp only [nnnField, BitVec.extractLsb'_toNat, Nat.shiftRight_eq_div_pow]; omega

/-- A concatenation as a number: `{a, b}` places `a` in the more significant bits (spec/00_scope.md R7). -/
theorem append_toNat {n m : Nat} (a : BitVec n) (b : BitVec m) : (a ++ b).toNat = a.toNat * 2 ^ m + b.toNat := by
  rw [BitVec.toNat_append, ← Nat.shiftLeft_add_eq_or_of_lt b.isLt, Nat.shiftLeft_eq]

theorem encA_toNat (op : BitVec 4) (nnn : Addr12) : (encA op nnn).toNat = op.toNat * 4096 + nnn.toNat :=
  append_toNat op nnn
theorem encRI_toNat (op : BitVec 4) (x : RegIx) (nn : Byte) :
    (encRI op x nn).toNat = op.toNat * 4096 + x.toNat * 256 + nn.toNat := by
  have h1 := append_toNat (n := 8) (op ++ x) nn
  have h2 := append_toNat op x
  simp only [encRI] at *
  exact h1.trans (by rw [h2]; omega)
theorem encRR_toNat (op : BitVec 4) (x y : RegIx) (n : Nibble) :
    (encRR op x y n).toNat = op.toNat * 4096 + x.toNat * 256 + y.toNat * 16 + n.toNat := by
  have h1 := append_toNat (n := 8) (m := 8) (op ++ x) (y ++ n)
  have h2 := append_toNat op x
  have h3 := append_toNat y n
  simp only [encRR] at *
  exact h1.trans (by rw [h2, h3]; omega)

/-! ### Fields of the formats -/

@[simp] theorem opField_encA (op : BitVec 4) (nnn : Addr12) : opField (encA op nnn) = op := by
  apply BitVec.eq_of_toNat_eq; have := nnn.isLt; rw [opField_toNat, encA_toNat]; omega
@[simp] theorem nnnField_encA (op : BitVec 4) (nnn : Addr12) : nnnField (encA op nnn) = nnn := by
  apply BitVec.eq_of_toNat_eq; have := nnn.isLt; rw [nnnField_toNat, encA_toNat]; omega

@[simp] theorem opField_encRI (op : BitVec 4) (x : RegIx) (nn : Byte) : opField (encRI op x nn) = op := by
  apply BitVec.eq_of_toNat_eq; have := x.isLt; have := nn.isLt; rw [opField_toNat, encRI_toNat]; omega
@[simp] theorem xField_encRI (op : BitVec 4) (x : RegIx) (nn : Byte) : xField (encRI op x nn) = x := by
  apply BitVec.eq_of_toNat_eq; have := x.isLt; have := nn.isLt; rw [xField_toNat, encRI_toNat]; omega
@[simp] theorem nnField_encRI (op : BitVec 4) (x : RegIx) (nn : Byte) : nnField (encRI op x nn) = nn := by
  apply BitVec.eq_of_toNat_eq; have := x.isLt; have := nn.isLt; rw [nnField_toNat, encRI_toNat]; omega

@[simp] theorem opField_encRR (op : BitVec 4) (x y : RegIx) (n : Nibble) : opField (encRR op x y n) = op := by
  apply BitVec.eq_of_toNat_eq; have := x.isLt; have := y.isLt; have := n.isLt; rw [opField_toNat, encRR_toNat]; omega
@[simp] theorem xField_encRR (op : BitVec 4) (x y : RegIx) (n : Nibble) : xField (encRR op x y n) = x := by
  apply BitVec.eq_of_toNat_eq; have := x.isLt; have := y.isLt; have := n.isLt; rw [xField_toNat, encRR_toNat]; omega
@[simp] theorem yField_encRR (op : BitVec 4) (x y : RegIx) (n : Nibble) : yField (encRR op x y n) = y := by
  apply BitVec.eq_of_toNat_eq; have := x.isLt; have := y.isLt; have := n.isLt; rw [yField_toNat, encRR_toNat]; omega
@[simp] theorem nField_encRR (op : BitVec 4) (x y : RegIx) (n : Nibble) : nField (encRR op x y n) = n := by
  apply BitVec.eq_of_toNat_eq; have := x.isLt; have := y.isLt; have := n.isLt; rw [nField_toNat, encRR_toNat]; omega

/-- A word is its four fields. -/
theorem encRR_fields (w : Word) : encRR (opField w) (xField w) (yField w) (nField w) = w := by
  apply BitVec.eq_of_toNat_eq
  rw [encRR_toNat, opField_toNat, xField_toNat, yField_toNat, nField_toNat]; omega
theorem encRI_fields (w : Word) : encRI (opField w) (xField w) (nnField w) = w := by
  apply BitVec.eq_of_toNat_eq
  rw [encRI_toNat, opField_toNat, xField_toNat, nnField_toNat]; omega
theorem encA_fields (w : Word) : encA (opField w) (nnnField w) = w := by
  apply BitVec.eq_of_toNat_eq
  rw [encA_toNat, opField_toNat, nnnField_toNat]; omega

/-! ### Bytes -/

theorem hiByte_toNat (w : Word) : (hiByte w).toNat = w.toNat / 256 := by
  have := w.isLt
  simp only [hiByte, BitVec.extractLsb'_toNat, Nat.shiftRight_eq_div_pow]; omega
theorem loByte_toNat (w : Word) : (loByte w).toNat = w.toNat % 256 := by
  simp only [loByte, BitVec.extractLsb'_toNat, Nat.shiftRight_eq_div_pow]; omega
theorem joinBytes_toNat (hi lo : Byte) : (joinBytes hi lo).toNat = hi.toNat * 256 + lo.toNat :=
  append_toNat hi lo

/-- A word is the join of its two bytes. -/
@[simp] theorem joinBytes_hi_lo (w : Word) : joinBytes (hiByte w) (loByte w) = w := by
  apply BitVec.eq_of_toNat_eq
  rw [joinBytes_toNat, hiByte_toNat, loByte_toNat]; omega

end Sys2Proof
end

