-- ==== Sys2Proof/Laws/Draw.lean ====
section
/-!
SUPPORT. The sprite compositor's loop in closed form (spec/45_display.md R142, R143): which cells a sprite sets,
what a cell is after a draw, and when a draw collides.
-/
namespace Sys2Proof.Machine

/-- A toggle changes one cell. -/
theorem pixel_toggle (fb : Framebuffer) (x x' : Col) (y y' : Row) :
    pixel (toggle fb x y) x' y' = if x' = x ∧ y' = y then !pixel fb x' y' else pixel fb x' y' := by
  by_cases hy : y' = y
  · subst y'
    by_cases hx : x' = x
    · subst x'; simp [pixel, toggle]
    · have hn : (x : Nat) ≠ x' := fun e => hx (Fin.ext e.symm)
      simp [pixel, toggle, hx, Vector.getElem_set_ne, hn]
  · have hn : (y : Nat) ≠ y' := fun e => hy (Fin.ext e.symm)
    simp [pixel, toggle, hy, Vector.getElem_set_ne, hn]

/-- A blank framebuffer has no cell on. -/
@[simp] theorem pixel_blankFb (x : Col) (y : Row) : pixel blankFb x y = false := by
  simp [pixel, blankFb]

/-- Two framebuffers with the same cells are the same. -/
theorem fb_ext {f g : Framebuffer} (h : ∀ x y, pixel f x y = pixel g x y) : f = g := by
  apply Vector.ext; intro y hy
  apply Vector.ext; intro x hx
  exact h ⟨x, hx⟩ ⟨y, hy⟩

/-- After a list of toggles a cell differs from before exactly if it was toggled an odd number of times. -/
theorem pixel_foldl (cells : List (Col × Row)) (acc : Framebuffer × Bool) (x : Col) (y : Row) :
    pixel (cells.foldl drawPixel acc).1 x y = (pixel acc.1 x y ^^ decide (cells.count (x, y) % 2 = 1)) := by
  induction cells generalizing acc with
  | nil => simp
  | cons p ps ih =>
    obtain ⟨px, py⟩ := p
    rw [List.foldl_cons, ih]
    simp only [drawPixel, pixel_toggle, List.count_cons, beq_iff_eq, Prod.mk.injEq]
    by_cases h : x = px ∧ y = py
    · obtain ⟨rfl, rfl⟩ := h
      simp only [and_self, if_true]
      rcases Nat.mod_two_eq_zero_or_one (List.count (x, y) ps) with e | e
      · have : (List.count (x, y) ps + 1) % 2 = 1 := by omega
        simp [e, this]
      · have : ¬ (List.count (x, y) ps + 1) % 2 = 1 := by omega
        simp [e, this]
    · have h' : ¬ (px = x ∧ py = y) := fun e => h ⟨e.1.symm, e.2.symm⟩
      simp [h, h']

/-- Where no cell is listed twice, a draw collides exactly if one of its cells was on before it. -/
theorem collision_foldl (cells : List (Col × Row)) (hn : cells.Nodup) (acc : Framebuffer × Bool) :
    (cells.foldl drawPixel acc).2 = (acc.2 || cells.any fun p => pixel acc.1 p.1 p.2) := by
  induction cells generalizing acc with
  | nil => simp
  | cons p ps ih =>
    obtain ⟨px, py⟩ := p
    rw [List.nodup_cons] at hn
    rw [List.foldl_cons, ih hn.2]
    have key : (ps.any fun q => pixel (drawPixel acc (px, py)).1 q.1 q.2) = ps.any fun q => pixel acc.1 q.1 q.2 := by
      rw [Bool.eq_iff_iff]
      simp only [List.any_eq_true]
      have hq : ∀ q ∈ ps, pixel (drawPixel acc (px, py)).1 q.1 q.2 = pixel acc.1 q.1 q.2 := by
        intro q hq
        have : ¬ (q.1 = px ∧ q.2 = py) := by
          rintro ⟨rfl, rfl⟩; exact hn.1 hq
        simp [drawPixel, pixel_toggle, this]
      exact ⟨fun ⟨q, hm, h⟩ => ⟨q, hm, (hq q hm) ▸ h⟩, fun ⟨q, hm, h⟩ => ⟨q, hm, (hq q hm).symm ▸ h⟩⟩
    rw [key]
    simp [drawPixel, Bool.or_assoc]

/-- The cells of one row. -/
theorem mem_rowCells (policy : EdgePolicy) (x0 py : Nat) (b : Byte) (cell : Col × Row) :
    cell ∈ rowCells policy x0 py b ↔ ∃ c < 8, b.getLsbD (7 - c) = true ∧ place policy (x0 + c) py = some cell := by
  simp only [rowCells, List.mem_filterMap, List.mem_range]
  constructor
  · rintro ⟨c, hc, h⟩
    by_cases hb : b.getLsbD (7 - c) = true
    · exact ⟨c, hc, hb, by simpa [hb] using h⟩
    · simp [hb] at h
  · rintro ⟨c, hc, hb, h⟩
    exact ⟨c, hc, by simpa [hb] using h⟩

/-- The cells of a sprite: the placed cells of the set bits of its rows. -/
theorem mem_spriteCells (policy : EdgePolicy) (x0 y0 : Nat) (bs : List Byte) (cell : Col × Row) :
    cell ∈ spriteCells policy x0 y0 bs ↔
      ∃ r, ∃ h : r < bs.length, ∃ c < 8, bs[r].getLsbD (7 - c) = true ∧ place policy (x0 + c) (y0 + r) = some cell := by
  induction bs generalizing y0 with
  | nil => simp [spriteCells]
  | cons b bs ih =>
    simp only [spriteCells, List.mem_append, mem_rowCells, ih]
    constructor
    · rintro (⟨c, hc, hb, hp⟩ | ⟨r, hr, c, hc, hb, hp⟩)
      · exact ⟨0, by simp, c, hc, by simpa using hb, by simpa using hp⟩
      · refine ⟨r + 1, by simpa using hr, c, hc, by simpa using hb, ?_⟩
        have e : y0 + (r + 1) = y0 + 1 + r := by omega
        rw [e]; exact hp
    · rintro ⟨r, hr, c, hc, hb, hp⟩
      cases r with
      | zero => exact .inl ⟨c, hc, by simpa using hb, by simpa using hp⟩
      | succ r =>
        refine .inr ⟨r, by simpa using hr, c, hc, by simpa using hb, ?_⟩
        have e : y0 + (r + 1) = y0 + 1 + r := by omega
        rw [← e]; exact hp

/-- What a placed cell says of the pixel: its coordinates modulo the grid. -/
theorem place_mod {policy : EdgePolicy} {px py : Nat} {cell : Col × Row} (h : place policy px py = some cell) :
    cell.1.val = px % 64 ∧ cell.2.val = py % 32 := by
  cases policy with
  | wrap => simp only [place, Option.some.injEq] at h; subst h; exact ⟨rfl, rfl⟩
  | clip =>
    simp only [place] at h
    split at h
    · simp only [Option.some.injEq] at h; subst h; exact ⟨rfl, rfl⟩
    · cases h

/-- No sprite of at most 32 rows names a cell twice, under either policy. -/
theorem nodup_spriteCells (policy : EdgePolicy) (x0 y0 : Nat) (bs : List Byte) (hl : bs.length ≤ 32) :
    (spriteCells policy x0 y0 bs).Nodup := by
  induction bs generalizing y0 with
  | nil => simp [spriteCells]
  | cons b bs ih =>
    simp only [List.length_cons] at hl
    rw [spriteCells, List.nodup_append]
    refine ⟨?_, ih _ (by omega), ?_⟩
    · unfold rowCells List.Nodup
      rw [List.pairwise_filterMap]
      refine List.Pairwise.imp_of_mem ?_ (List.nodup_range (n := 8))
      intro c c' hc hc' hne p hp p' hp'
      rintro rfl
      simp only [List.mem_range] at hc hc'
      have h1 : place policy (x0 + c) y0 = some p := by
        by_cases hb : b.getLsbD (7 - c) = true <;> simp_all
      have h2 : place policy (x0 + c') y0 = some p := by
        by_cases hb : b.getLsbD (7 - c') = true <;> simp_all
      have e1 := (place_mod h1).1
      have e2 := (place_mod h2).1
      omega
    · rintro cell h cell' h' rfl
      rw [mem_rowCells] at h
      rw [mem_spriteCells] at h'
      obtain ⟨c, hc, _, hp⟩ := h
      obtain ⟨r, hr, c', hc', _, hp'⟩ := h'
      have h1 := (place_mod hp).2
      have h2 := (place_mod hp').2
      omega

/-- A draw toggles exactly the cells of its sprite. -/
theorem pixel_compose (cells : List (Col × Row)) (hn : cells.Nodup) (fb : Framebuffer) (x : Col) (y : Row) :
    pixel (compose cells fb).1 x y = (pixel fb x y ^^ decide ((x, y) ∈ cells)) := by
  rw [compose, pixel_foldl]
  congr 1
  by_cases h : (x, y) ∈ cells
  · rw [List.count_eq_one_of_mem hn h]; simp [h]
  · rw [List.count_eq_zero_of_not_mem h]; simp [h]

/-- A draw collides exactly if a cell of its sprite was on before it. -/
theorem collision_compose (cells : List (Col × Row)) (hn : cells.Nodup) (fb : Framebuffer) :
    (compose cells fb).2 = true ↔ ∃ x y, (x, y) ∈ cells ∧ pixel fb x y = true := by
  rw [compose, collision_foldl _ hn]
  simp [List.any_eq_true]

end Sys2Proof.Machine
end

