-- ==== Sys2Proof/Laws/Memory.lean ====
section
/-!
SUPPORT. The laws of `MEM`: reading after writing, the canonical form is kept by every operation, and equal
contents are equal data.
-/
namespace Sys2Proof.Machine

/-! ### The parameters as numbers (spec/00_scope.md R5) -/

@[simp] theorem memSize_eq : memSize = 4096 := rfl
@[simp] theorem stackDepth_eq : stackDepth = 16 := rfl
@[simp] theorem fontBase_eq : fontBase = 0 := rfl
@[simp] theorem glyphBytes_eq : glyphBytes = 5 := rfl
@[simp] theorem programBase_eq : programBase = 0x200 := rfl

/-! ### The configuration at the spec's values -/

@[simp] theorem params_memSize : params.memSize = 4096 := rfl
@[simp] theorem params_stackDepth : params.stackDepth = 16 := rfl
@[simp] theorem params_stackEntryBits : params.stackEntryBits = 16 := rfl
@[simp] theorem params_fontBase : params.fontBase = 0 := rfl
@[simp] theorem params_glyphBytes : params.glyphBytes = 5 := rfl
@[simp] theorem params_programBase : params.programBase = 0x200 := rfl
@[simp] theorem params_edgePolicy : params.edgePolicy = .wrap := rfl

/-! ### Reading and writing -/

variable {size : Nat}

theorem Memory.read_cons (a : Nat) (b : Byte) (m : Memory) (k : Nat) (h : k ≠ a) :
    (Memory.cons a b m).read k = m.read k := by
  unfold Memory.cons
  split
  · rfl
  · simp [Memory.read, h.symm]

/-- Every address of a canonical list lies at or above its bound. -/
theorem Memory.read_below {lo : Nat} {m : Memory} (h : Memory.wfFrom size lo m = true) {a : Nat} (ha : a < lo) :
    m.read a = Memory.resetByte a := by
  induction m generalizing lo with
  | nil => rfl
  | cons c m ih =>
    obtain ⟨k, c⟩ := c
    simp only [Memory.wfFrom, Bool.and_eq_true, decide_eq_true_eq] at h
    have hk : k ≠ a := by omega
    simp only [Memory.read, hk, if_false]
    exact ih h.2 (by omega)

theorem Memory.read_cons_same {lo a : Nat} (b : Byte) {m : Memory} (h : Memory.wfFrom size lo m = true)
    (ha : a < lo) :
    (Memory.cons a b m).read a = b := by
  unfold Memory.cons
  split
  · rw [Memory.read_below h ha]; exact (‹b = _›).symm
  · simp [Memory.read]

/-- A write leaves every other address alone. -/
theorem Memory.read_write_ne (m : Memory) (a k : Nat) (b : Byte) (h : k ≠ a) :
    (m.write a b).read k = m.read k := by
  induction m with
  | nil => exact Memory.read_cons a b [] k h
  | cons c m ih =>
    obtain ⟨k', c⟩ := c
    simp only [Memory.write]
    split
    · exact Memory.read_cons a b _ k h
    · split
      · subst a
        rw [Memory.read_cons k' b m k h]
        simp [Memory.read, Ne.symm h]
      · simp only [Memory.read]
        split
        · rfl
        · exact ih

/-- A byte reads as written. -/
theorem Memory.read_write_same_from {lo : Nat} {m : Memory} (h : Memory.wfFrom size lo m = true) (a : Nat)
    (b : Byte) :
    (m.write a b).read a = b := by
  induction m generalizing lo with
  | nil => exact Memory.read_cons_same (size := 0) (lo := a + 1) b rfl (by omega)
  | cons c m ih =>
    obtain ⟨k, c⟩ := c
    simp only [Memory.wfFrom, Bool.and_eq_true, decide_eq_true_eq] at h
    simp only [Memory.write]
    split
    · refine Memory.read_cons_same (size := size) (lo := k) b ?_ ‹_›
      simp only [Memory.wfFrom, Bool.and_eq_true, decide_eq_true_eq]
      exact ⟨⟨⟨le_refl k, h.1.1.2⟩, h.1.2⟩, h.2⟩
    · split
      · exact Memory.read_cons_same (size := size) (lo := k + 1) b h.2 (by omega)
      · have hk : k ≠ a := fun e => ‹¬a = k› e.symm
        simp only [Memory.read, hk, if_false]
        exact ih h.2

/-- A byte reads as written. -/
theorem Memory.read_write_same {m : Memory} (h : Memory.wfIn size m = true) (a : Nat) (b : Byte) :
    (m.write a b).read a = b :=
  Memory.read_write_same_from h a b

/-- Reading after a write, for any two addresses. -/
theorem Memory.read_write {m : Memory} (h : Memory.wfIn size m = true) (a k : Nat) (b : Byte) :
    (m.write a b).read k = if k = a then b else m.read k := by
  split
  · subst k; exact Memory.read_write_same h a b
  · exact Memory.read_write_ne m a k b ‹_›

theorem Memory.wfFrom_mono {lo lo' : Nat} {m : Memory} (h : Memory.wfFrom size lo m = true)
    (hl : lo' ≤ lo) :
    Memory.wfFrom size lo' m = true := by
  cases m with
  | nil => rfl
  | cons c m =>
    obtain ⟨k, c⟩ := c
    simp only [Memory.wfFrom, Bool.and_eq_true, decide_eq_true_eq] at h ⊢
    exact ⟨⟨⟨by omega, h.1.1.2⟩, h.1.2⟩, h.2⟩

theorem Memory.wfFrom_cons {lo a : Nat} (b : Byte) {m : Memory} (h : Memory.wfFrom size (a + 1) m = true)
    (hl : lo ≤ a) (ha : a < size) : Memory.wfFrom size lo (Memory.cons a b m) = true := by
  unfold Memory.cons
  split
  · exact Memory.wfFrom_mono h (by omega)
  · simp only [Memory.wfFrom, Bool.and_eq_true, decide_eq_true_eq, bne_iff_ne]
    exact ⟨⟨⟨hl, ha⟩, ‹_›⟩, h⟩

theorem Memory.wfFrom_write {lo a : Nat} (b : Byte) {m : Memory} (h : Memory.wfFrom size lo m = true)
    (hl : lo ≤ a) (ha : a < size) : Memory.wfFrom size lo (m.write a b) = true := by
  induction m generalizing lo with
  | nil => exact Memory.wfFrom_cons b rfl hl ha
  | cons c m ih =>
    obtain ⟨k, c⟩ := c
    have h' := h
    simp only [Memory.wfFrom, Bool.and_eq_true, decide_eq_true_eq] at h
    simp only [Memory.write]
    split
    · refine Memory.wfFrom_cons b ?_ hl ha
      simp only [Memory.wfFrom, Bool.and_eq_true, decide_eq_true_eq]
      exact ⟨⟨⟨by omega, h.1.1.2⟩, h.1.2⟩, h.2⟩
    · split
      · subst a; exact Memory.wfFrom_cons b h.2 hl ha
      · simp only [Memory.wfFrom, Bool.and_eq_true, decide_eq_true_eq]
        exact ⟨⟨⟨h.1.1.1, h.1.1.2⟩, h.1.2⟩, ih h.2 (by omega)⟩

/-- A write within memory keeps the canonical form. -/
theorem Memory.wf_write {m : Memory} (h : Memory.wfIn size m = true) {a : Nat} (ha : a < size) (b : Byte) :
    Memory.wfIn size (m.write a b) = true := Memory.wfFrom_write b h (Nat.zero_le a) ha

/-- A sequence of writes within memory keeps the canonical form. -/
theorem Memory.wf_writeBytes {m : Memory} (h : Memory.wfIn size m = true) {a : Nat} (bs : List Byte)
    (ha : bs.length = 0 ∨ a + bs.length ≤ size) : Memory.wfIn size (m.writeBytes a bs) = true := by
  induction bs generalizing m a with
  | nil => exact h
  | cons b bs ih =>
    simp only [List.length_cons] at ha
    exact ih (Memory.wf_write h (by omega) b) (by omega)

/-- A sequence of writes leaves every address outside it alone. -/
theorem Memory.read_writeBytes_outside (m : Memory) (a : Nat) (bs : List Byte) (k : Nat)
    (hk : k < a ∨ a + bs.length ≤ k) : (m.writeBytes a bs).read k = m.read k := by
  induction bs generalizing m a with
  | nil => rfl
  | cons b bs ih =>
    simp only [List.length_cons] at hk
    rw [Memory.writeBytes, ih _ _ (by omega), Memory.read_write_ne m a k b (by omega)]

/-- A sequence of bytes within memory reads as written. -/
theorem Memory.read_writeBytes_inside {m : Memory} (h : Memory.wfIn size m = true) {a : Nat} (bs : List Byte)
    (ha : a + bs.length ≤ size) (j : Nat) (hj : j < bs.length) :
    (m.writeBytes a bs).read (a + j) = bs[j] := by
  induction bs generalizing m a j with
  | nil => simp at hj
  | cons b bs ih =>
    simp only [List.length_cons] at ha hj
    cases j with
    | zero =>
      rw [Memory.writeBytes, Memory.read_writeBytes_outside _ _ _ _ (by omega)]
      exact Memory.read_write_same h a b
    | succ j =>
      have e : a + (j + 1) = (a + 1) + j := by omega
      rw [Memory.writeBytes, e, ih (Memory.wf_write h (by omega) b) (by omega) j (by omega)]
      rfl

/-- The bytes read are the bytes at their addresses. -/
theorem Memory.length_readBytes (m : Memory) (a n : Nat) : (m.readBytes a n).length = n := by
  induction n generalizing a with
  | zero => rfl
  | succ n ih => simp [Memory.readBytes, ih]

theorem Memory.getElem_readBytes (m : Memory) (a n j : Nat) (hj : j < (m.readBytes a n).length) :
    (m.readBytes a n)[j] = m.read (a + j) := by
  induction n generalizing a j with
  | zero => simp [Memory.readBytes] at hj
  | succ n ih =>
    cases j with
    | zero => rfl
    | succ j =>
      have e : a + (j + 1) = (a + 1) + j := by omega
      simp only [Memory.readBytes, List.getElem_cons_succ, e]
      exact ih (a + 1) j (by simpa [Memory.readBytes] using hj)

theorem Memory.eq_of_read_eq_from {lo : Nat} {m m' : Memory} (h : Memory.wfFrom size lo m = true)
    (h' : Memory.wfFrom size lo m' = true) (hr : ∀ a, lo ≤ a → m.read a = m'.read a) : m = m' := by
  induction m generalizing lo m' with
  | nil =>
    cases m' with
    | nil => rfl
    | cons c m' =>
      obtain ⟨k, c⟩ := c
      simp only [Memory.wfFrom, Bool.and_eq_true, decide_eq_true_eq, bne_iff_ne] at h'
      have := hr k h'.1.1.1
      simp only [Memory.read, if_true] at this
      exact absurd this.symm h'.1.2
  | cons c m ih =>
    obtain ⟨k, c⟩ := c
    simp only [Memory.wfFrom, Bool.and_eq_true, decide_eq_true_eq, bne_iff_ne] at h
    cases m' with
    | nil =>
      have := hr k h.1.1.1
      simp only [Memory.read, if_true] at this
      exact absurd this h.1.2
    | cons c' m' =>
      obtain ⟨k', c'⟩ := c'
      simp only [Memory.wfFrom, Bool.and_eq_true, decide_eq_true_eq, bne_iff_ne] at h'
      have hkk : k = k' := by
        rcases Nat.lt_trichotomy k k' with hlt | he | hlt
        · have e := hr k h.1.1.1
          have hne : k' ≠ k := by omega
          simp only [Memory.read, if_true, hne, if_false] at e
          exact absurd (e.trans (Memory.read_below h'.2 (by omega))) h.1.2
        · exact he
        · have e := hr k' h'.1.1.1
          have hne : k ≠ k' := by omega
          simp only [Memory.read, if_true, hne, if_false] at e
          exact absurd (e.symm.trans (Memory.read_below h.2 (by omega))) h'.1.2
      subst k'
      have hc : c = c' := by simpa [Memory.read] using hr k h.1.1.1
      subst c'
      have hm : m = m' := by
        refine ih h.2 h'.2 fun a ha => ?_
        have hne : k ≠ a := by omega
        simpa [Memory.read, hne] using hr a (by omega)
      rw [hm]

/-- Two memories in canonical form that read the same everywhere are the same data. -/
theorem Memory.eq_of_read_eq {m m' : Memory} (h : Memory.wfIn size m = true) (h' : Memory.wfIn size m' = true)
    (hr : ∀ a, m.read a = m'.read a) : m = m' := Memory.eq_of_read_eq_from h h' fun a _ => hr a

end Sys2Proof.Machine
end

