-- ==== Sys2Proof/Laws/State.lean ====
section
/-!
SUPPORT. One lemma per field per update of the state, so that no proof unfolds a record update; and the same
for what is read through `State.reg` and `State.slot?`.
-/
namespace Sys2Proof.Machine

/-! ### Which statuses are errors (spec/60_exceptions.md R170) -/

@[simp] theorem Status.isError_success : Status.success.isError = false := rfl
@[simp] theorem Status.isError_unsupportedOpcode : Status.unsupportedOpcode.isError = true := rfl
@[simp] theorem Status.isError_invalidOpcode : Status.invalidOpcode.isError = true := rfl
@[simp] theorem Status.isError_stackOverflow : Status.stackOverflow.isError = true := rfl
@[simp] theorem Status.isError_stackUnderflow : Status.stackUnderflow.isError = true := rfl
@[simp] theorem Status.isError_memRange : Status.memRange.isError = true := rfl
@[simp] theorem Status.isError_keyWait : Status.keyWait.isError = false := rfl
@[simp] theorem Status.isError_waitCancelled : Status.waitCancelled.isError = true := rfl

variable (s : State)

/-! ### `State.writeReg` -/

@[simp] theorem State.writeReg_v (x : RegIx) (b : Byte) : (s.writeReg x b).v = s.v.set x.toNat b x.isLt := rfl
@[simp] theorem State.writeReg_i (x : RegIx) (b : Byte) : (s.writeReg x b).i = s.i := rfl
@[simp] theorem State.writeReg_pc (x : RegIx) (b : Byte) : (s.writeReg x b).pc = s.pc := rfl
@[simp] theorem State.writeReg_stack (x : RegIx) (b : Byte) : (s.writeReg x b).stack = s.stack := rfl
@[simp] theorem State.writeReg_sp (x : RegIx) (b : Byte) : (s.writeReg x b).sp = s.sp := rfl
@[simp] theorem State.writeReg_dt (x : RegIx) (b : Byte) : (s.writeReg x b).dt = s.dt := rfl
@[simp] theorem State.writeReg_st (x : RegIx) (b : Byte) : (s.writeReg x b).st = s.st := rfl
@[simp] theorem State.writeReg_keys (x : RegIx) (b : Byte) : (s.writeReg x b).keys = s.keys := rfl
@[simp] theorem State.writeReg_mem (x : RegIx) (b : Byte) : (s.writeReg x b).mem = s.mem := rfl
@[simp] theorem State.writeReg_fb (x : RegIx) (b : Byte) : (s.writeReg x b).fb = s.fb := rfl
@[simp] theorem State.writeReg_dirty (x : RegIx) (b : Byte) : (s.writeReg x b).dirty = s.dirty := rfl
@[simp] theorem State.writeReg_wait (x : RegIx) (b : Byte) : (s.writeReg x b).wait = s.wait := rfl
@[simp] theorem State.writeReg_waitX (x : RegIx) (b : Byte) : (s.writeReg x b).waitX = s.waitX := rfl
@[simp] theorem State.writeReg_keyPrev (x : RegIx) (b : Byte) : (s.writeReg x b).keyPrev = s.keyPrev := rfl
@[simp] theorem State.writeReg_cancel (x : RegIx) (b : Byte) : (s.writeReg x b).cancel = s.cancel := rfl
@[simp] theorem State.writeReg_draws (x : RegIx) (b : Byte) : (s.writeReg x b).draws = s.draws := rfl
@[simp] theorem State.writeReg_status (x : RegIx) (b : Byte) : (s.writeReg x b).status = s.status := rfl
@[simp] theorem State.writeReg_errorSeen (x : RegIx) (b : Byte) : (s.writeReg x b).errorSeen = s.errorSeen := rfl
@[simp] theorem State.writeReg_slot (x : RegIx) (b : Byte) (k : Nat) : (s.writeReg x b).slot? k = s.slot? k := rfl

/-! ### `State.setI` -/

@[simp] theorem State.setI_v (w : Word) : (s.setI w).v = s.v := rfl
@[simp] theorem State.setI_i (w : Word) : (s.setI w).i = w := rfl
@[simp] theorem State.setI_pc (w : Word) : (s.setI w).pc = s.pc := rfl
@[simp] theorem State.setI_stack (w : Word) : (s.setI w).stack = s.stack := rfl
@[simp] theorem State.setI_sp (w : Word) : (s.setI w).sp = s.sp := rfl
@[simp] theorem State.setI_dt (w : Word) : (s.setI w).dt = s.dt := rfl
@[simp] theorem State.setI_st (w : Word) : (s.setI w).st = s.st := rfl
@[simp] theorem State.setI_keys (w : Word) : (s.setI w).keys = s.keys := rfl
@[simp] theorem State.setI_mem (w : Word) : (s.setI w).mem = s.mem := rfl
@[simp] theorem State.setI_fb (w : Word) : (s.setI w).fb = s.fb := rfl
@[simp] theorem State.setI_dirty (w : Word) : (s.setI w).dirty = s.dirty := rfl
@[simp] theorem State.setI_wait (w : Word) : (s.setI w).wait = s.wait := rfl
@[simp] theorem State.setI_waitX (w : Word) : (s.setI w).waitX = s.waitX := rfl
@[simp] theorem State.setI_keyPrev (w : Word) : (s.setI w).keyPrev = s.keyPrev := rfl
@[simp] theorem State.setI_cancel (w : Word) : (s.setI w).cancel = s.cancel := rfl
@[simp] theorem State.setI_draws (w : Word) : (s.setI w).draws = s.draws := rfl
@[simp] theorem State.setI_status (w : Word) : (s.setI w).status = s.status := rfl
@[simp] theorem State.setI_errorSeen (w : Word) : (s.setI w).errorSeen = s.errorSeen := rfl
@[simp] theorem State.setI_reg (w : Word) (r : RegIx) : (s.setI w).reg r = s.reg r := rfl
@[simp] theorem State.setI_slot (w : Word) (k : Nat) : (s.setI w).slot? k = s.slot? k := rfl

/-! ### `State.setPc` -/

@[simp] theorem State.setPc_v (w : Word) : (s.setPc w).v = s.v := rfl
@[simp] theorem State.setPc_i (w : Word) : (s.setPc w).i = s.i := rfl
@[simp] theorem State.setPc_pc (w : Word) : (s.setPc w).pc = w := rfl
@[simp] theorem State.setPc_stack (w : Word) : (s.setPc w).stack = s.stack := rfl
@[simp] theorem State.setPc_sp (w : Word) : (s.setPc w).sp = s.sp := rfl
@[simp] theorem State.setPc_dt (w : Word) : (s.setPc w).dt = s.dt := rfl
@[simp] theorem State.setPc_st (w : Word) : (s.setPc w).st = s.st := rfl
@[simp] theorem State.setPc_keys (w : Word) : (s.setPc w).keys = s.keys := rfl
@[simp] theorem State.setPc_mem (w : Word) : (s.setPc w).mem = s.mem := rfl
@[simp] theorem State.setPc_fb (w : Word) : (s.setPc w).fb = s.fb := rfl
@[simp] theorem State.setPc_dirty (w : Word) : (s.setPc w).dirty = s.dirty := rfl
@[simp] theorem State.setPc_wait (w : Word) : (s.setPc w).wait = s.wait := rfl
@[simp] theorem State.setPc_waitX (w : Word) : (s.setPc w).waitX = s.waitX := rfl
@[simp] theorem State.setPc_keyPrev (w : Word) : (s.setPc w).keyPrev = s.keyPrev := rfl
@[simp] theorem State.setPc_cancel (w : Word) : (s.setPc w).cancel = s.cancel := rfl
@[simp] theorem State.setPc_draws (w : Word) : (s.setPc w).draws = s.draws := rfl
@[simp] theorem State.setPc_status (w : Word) : (s.setPc w).status = s.status := rfl
@[simp] theorem State.setPc_errorSeen (w : Word) : (s.setPc w).errorSeen = s.errorSeen := rfl
@[simp] theorem State.setPc_reg (w : Word) (r : RegIx) : (s.setPc w).reg r = s.reg r := rfl
@[simp] theorem State.setPc_slot (w : Word) (k : Nat) : (s.setPc w).slot? k = s.slot? k := rfl

/-! ### `State.advancePc` -/

@[simp] theorem State.advancePc_v : (s.advancePc).v = s.v := rfl
@[simp] theorem State.advancePc_i : (s.advancePc).i = s.i := rfl
@[simp] theorem State.advancePc_pc : (s.advancePc).pc = s.pc + 2#16 := rfl
@[simp] theorem State.advancePc_stack : (s.advancePc).stack = s.stack := rfl
@[simp] theorem State.advancePc_sp : (s.advancePc).sp = s.sp := rfl
@[simp] theorem State.advancePc_dt : (s.advancePc).dt = s.dt := rfl
@[simp] theorem State.advancePc_st : (s.advancePc).st = s.st := rfl
@[simp] theorem State.advancePc_keys : (s.advancePc).keys = s.keys := rfl
@[simp] theorem State.advancePc_mem : (s.advancePc).mem = s.mem := rfl
@[simp] theorem State.advancePc_fb : (s.advancePc).fb = s.fb := rfl
@[simp] theorem State.advancePc_dirty : (s.advancePc).dirty = s.dirty := rfl
@[simp] theorem State.advancePc_wait : (s.advancePc).wait = s.wait := rfl
@[simp] theorem State.advancePc_waitX : (s.advancePc).waitX = s.waitX := rfl
@[simp] theorem State.advancePc_keyPrev : (s.advancePc).keyPrev = s.keyPrev := rfl
@[simp] theorem State.advancePc_cancel : (s.advancePc).cancel = s.cancel := rfl
@[simp] theorem State.advancePc_draws : (s.advancePc).draws = s.draws := rfl
@[simp] theorem State.advancePc_status : (s.advancePc).status = s.status := rfl
@[simp] theorem State.advancePc_errorSeen : (s.advancePc).errorSeen = s.errorSeen := rfl
@[simp] theorem State.advancePc_reg (r : RegIx) : (s.advancePc).reg r = s.reg r := rfl
@[simp] theorem State.advancePc_slot (k : Nat) : (s.advancePc).slot? k = s.slot? k := rfl

/-! ### `State.setDt` -/

@[simp] theorem State.setDt_v (b : Byte) : (s.setDt b).v = s.v := rfl
@[simp] theorem State.setDt_i (b : Byte) : (s.setDt b).i = s.i := rfl
@[simp] theorem State.setDt_pc (b : Byte) : (s.setDt b).pc = s.pc := rfl
@[simp] theorem State.setDt_stack (b : Byte) : (s.setDt b).stack = s.stack := rfl
@[simp] theorem State.setDt_sp (b : Byte) : (s.setDt b).sp = s.sp := rfl
@[simp] theorem State.setDt_dt (b : Byte) : (s.setDt b).dt = b := rfl
@[simp] theorem State.setDt_st (b : Byte) : (s.setDt b).st = s.st := rfl
@[simp] theorem State.setDt_keys (b : Byte) : (s.setDt b).keys = s.keys := rfl
@[simp] theorem State.setDt_mem (b : Byte) : (s.setDt b).mem = s.mem := rfl
@[simp] theorem State.setDt_fb (b : Byte) : (s.setDt b).fb = s.fb := rfl
@[simp] theorem State.setDt_dirty (b : Byte) : (s.setDt b).dirty = s.dirty := rfl
@[simp] theorem State.setDt_wait (b : Byte) : (s.setDt b).wait = s.wait := rfl
@[simp] theorem State.setDt_waitX (b : Byte) : (s.setDt b).waitX = s.waitX := rfl
@[simp] theorem State.setDt_keyPrev (b : Byte) : (s.setDt b).keyPrev = s.keyPrev := rfl
@[simp] theorem State.setDt_cancel (b : Byte) : (s.setDt b).cancel = s.cancel := rfl
@[simp] theorem State.setDt_draws (b : Byte) : (s.setDt b).draws = s.draws := rfl
@[simp] theorem State.setDt_status (b : Byte) : (s.setDt b).status = s.status := rfl
@[simp] theorem State.setDt_errorSeen (b : Byte) : (s.setDt b).errorSeen = s.errorSeen := rfl
@[simp] theorem State.setDt_reg (b : Byte) (r : RegIx) : (s.setDt b).reg r = s.reg r := rfl
@[simp] theorem State.setDt_slot (b : Byte) (k : Nat) : (s.setDt b).slot? k = s.slot? k := rfl

/-! ### `State.setSt` -/

@[simp] theorem State.setSt_v (b : Byte) : (s.setSt b).v = s.v := rfl
@[simp] theorem State.setSt_i (b : Byte) : (s.setSt b).i = s.i := rfl
@[simp] theorem State.setSt_pc (b : Byte) : (s.setSt b).pc = s.pc := rfl
@[simp] theorem State.setSt_stack (b : Byte) : (s.setSt b).stack = s.stack := rfl
@[simp] theorem State.setSt_sp (b : Byte) : (s.setSt b).sp = s.sp := rfl
@[simp] theorem State.setSt_dt (b : Byte) : (s.setSt b).dt = s.dt := rfl
@[simp] theorem State.setSt_st (b : Byte) : (s.setSt b).st = b := rfl
@[simp] theorem State.setSt_keys (b : Byte) : (s.setSt b).keys = s.keys := rfl
@[simp] theorem State.setSt_mem (b : Byte) : (s.setSt b).mem = s.mem := rfl
@[simp] theorem State.setSt_fb (b : Byte) : (s.setSt b).fb = s.fb := rfl
@[simp] theorem State.setSt_dirty (b : Byte) : (s.setSt b).dirty = s.dirty := rfl
@[simp] theorem State.setSt_wait (b : Byte) : (s.setSt b).wait = s.wait := rfl
@[simp] theorem State.setSt_waitX (b : Byte) : (s.setSt b).waitX = s.waitX := rfl
@[simp] theorem State.setSt_keyPrev (b : Byte) : (s.setSt b).keyPrev = s.keyPrev := rfl
@[simp] theorem State.setSt_cancel (b : Byte) : (s.setSt b).cancel = s.cancel := rfl
@[simp] theorem State.setSt_draws (b : Byte) : (s.setSt b).draws = s.draws := rfl
@[simp] theorem State.setSt_status (b : Byte) : (s.setSt b).status = s.status := rfl
@[simp] theorem State.setSt_errorSeen (b : Byte) : (s.setSt b).errorSeen = s.errorSeen := rfl
@[simp] theorem State.setSt_reg (b : Byte) (r : RegIx) : (s.setSt b).reg r = s.reg r := rfl
@[simp] theorem State.setSt_slot (b : Byte) (k : Nat) : (s.setSt b).slot? k = s.slot? k := rfl

/-! ### `State.setMem` -/

@[simp] theorem State.setMem_v (m : Memory) : (s.setMem m).v = s.v := rfl
@[simp] theorem State.setMem_i (m : Memory) : (s.setMem m).i = s.i := rfl
@[simp] theorem State.setMem_pc (m : Memory) : (s.setMem m).pc = s.pc := rfl
@[simp] theorem State.setMem_stack (m : Memory) : (s.setMem m).stack = s.stack := rfl
@[simp] theorem State.setMem_sp (m : Memory) : (s.setMem m).sp = s.sp := rfl
@[simp] theorem State.setMem_dt (m : Memory) : (s.setMem m).dt = s.dt := rfl
@[simp] theorem State.setMem_st (m : Memory) : (s.setMem m).st = s.st := rfl
@[simp] theorem State.setMem_keys (m : Memory) : (s.setMem m).keys = s.keys := rfl
@[simp] theorem State.setMem_mem (m : Memory) : (s.setMem m).mem = m := rfl
@[simp] theorem State.setMem_fb (m : Memory) : (s.setMem m).fb = s.fb := rfl
@[simp] theorem State.setMem_dirty (m : Memory) : (s.setMem m).dirty = s.dirty := rfl
@[simp] theorem State.setMem_wait (m : Memory) : (s.setMem m).wait = s.wait := rfl
@[simp] theorem State.setMem_waitX (m : Memory) : (s.setMem m).waitX = s.waitX := rfl
@[simp] theorem State.setMem_keyPrev (m : Memory) : (s.setMem m).keyPrev = s.keyPrev := rfl
@[simp] theorem State.setMem_cancel (m : Memory) : (s.setMem m).cancel = s.cancel := rfl
@[simp] theorem State.setMem_draws (m : Memory) : (s.setMem m).draws = s.draws := rfl
@[simp] theorem State.setMem_status (m : Memory) : (s.setMem m).status = s.status := rfl
@[simp] theorem State.setMem_errorSeen (m : Memory) : (s.setMem m).errorSeen = s.errorSeen := rfl
@[simp] theorem State.setMem_reg (m : Memory) (r : RegIx) : (s.setMem m).reg r = s.reg r := rfl
@[simp] theorem State.setMem_slot (m : Memory) (k : Nat) : (s.setMem m).slot? k = s.slot? k := rfl

/-! ### `State.setFb` -/

@[simp] theorem State.setFb_v (f : Framebuffer) : (s.setFb f).v = s.v := rfl
@[simp] theorem State.setFb_i (f : Framebuffer) : (s.setFb f).i = s.i := rfl
@[simp] theorem State.setFb_pc (f : Framebuffer) : (s.setFb f).pc = s.pc := rfl
@[simp] theorem State.setFb_stack (f : Framebuffer) : (s.setFb f).stack = s.stack := rfl
@[simp] theorem State.setFb_sp (f : Framebuffer) : (s.setFb f).sp = s.sp := rfl
@[simp] theorem State.setFb_dt (f : Framebuffer) : (s.setFb f).dt = s.dt := rfl
@[simp] theorem State.setFb_st (f : Framebuffer) : (s.setFb f).st = s.st := rfl
@[simp] theorem State.setFb_keys (f : Framebuffer) : (s.setFb f).keys = s.keys := rfl
@[simp] theorem State.setFb_mem (f : Framebuffer) : (s.setFb f).mem = s.mem := rfl
@[simp] theorem State.setFb_fb (f : Framebuffer) : (s.setFb f).fb = f := rfl
@[simp] theorem State.setFb_dirty (f : Framebuffer) : (s.setFb f).dirty = true := rfl
@[simp] theorem State.setFb_wait (f : Framebuffer) : (s.setFb f).wait = s.wait := rfl
@[simp] theorem State.setFb_waitX (f : Framebuffer) : (s.setFb f).waitX = s.waitX := rfl
@[simp] theorem State.setFb_keyPrev (f : Framebuffer) : (s.setFb f).keyPrev = s.keyPrev := rfl
@[simp] theorem State.setFb_cancel (f : Framebuffer) : (s.setFb f).cancel = s.cancel := rfl
@[simp] theorem State.setFb_draws (f : Framebuffer) : (s.setFb f).draws = s.draws := rfl
@[simp] theorem State.setFb_status (f : Framebuffer) : (s.setFb f).status = s.status := rfl
@[simp] theorem State.setFb_errorSeen (f : Framebuffer) : (s.setFb f).errorSeen = s.errorSeen := rfl
@[simp] theorem State.setFb_reg (f : Framebuffer) (r : RegIx) : (s.setFb f).reg r = s.reg r := rfl
@[simp] theorem State.setFb_slot (f : Framebuffer) (k : Nat) : (s.setFb f).slot? k = s.slot? k := rfl

/-! ### `State.beginWait` -/

@[simp] theorem State.beginWait_v (x : RegIx) : (s.beginWait x).v = s.v := rfl
@[simp] theorem State.beginWait_i (x : RegIx) : (s.beginWait x).i = s.i := rfl
@[simp] theorem State.beginWait_pc (x : RegIx) : (s.beginWait x).pc = s.pc := rfl
@[simp] theorem State.beginWait_stack (x : RegIx) : (s.beginWait x).stack = s.stack := rfl
@[simp] theorem State.beginWait_sp (x : RegIx) : (s.beginWait x).sp = s.sp := rfl
@[simp] theorem State.beginWait_dt (x : RegIx) : (s.beginWait x).dt = s.dt := rfl
@[simp] theorem State.beginWait_st (x : RegIx) : (s.beginWait x).st = s.st := rfl
@[simp] theorem State.beginWait_keys (x : RegIx) : (s.beginWait x).keys = s.keys := rfl
@[simp] theorem State.beginWait_mem (x : RegIx) : (s.beginWait x).mem = s.mem := rfl
@[simp] theorem State.beginWait_fb (x : RegIx) : (s.beginWait x).fb = s.fb := rfl
@[simp] theorem State.beginWait_dirty (x : RegIx) : (s.beginWait x).dirty = s.dirty := rfl
@[simp] theorem State.beginWait_wait (x : RegIx) : (s.beginWait x).wait = true := rfl
@[simp] theorem State.beginWait_waitX (x : RegIx) : (s.beginWait x).waitX = x := rfl
@[simp] theorem State.beginWait_keyPrev (x : RegIx) : (s.beginWait x).keyPrev = s.keys := rfl
@[simp] theorem State.beginWait_cancel (x : RegIx) : (s.beginWait x).cancel = s.cancel := rfl
@[simp] theorem State.beginWait_draws (x : RegIx) : (s.beginWait x).draws = s.draws := rfl
@[simp] theorem State.beginWait_status (x : RegIx) : (s.beginWait x).status = s.status := rfl
@[simp] theorem State.beginWait_errorSeen (x : RegIx) : (s.beginWait x).errorSeen = s.errorSeen := rfl
@[simp] theorem State.beginWait_reg (x : RegIx) (r : RegIx) : (s.beginWait x).reg r = s.reg r := rfl
@[simp] theorem State.beginWait_slot (x : RegIx) (k : Nat) : (s.beginWait x).slot? k = s.slot? k := rfl

/-! ### `State.endWait` -/

@[simp] theorem State.endWait_v : (s.endWait).v = s.v := rfl
@[simp] theorem State.endWait_i : (s.endWait).i = s.i := rfl
@[simp] theorem State.endWait_pc : (s.endWait).pc = s.pc := rfl
@[simp] theorem State.endWait_stack : (s.endWait).stack = s.stack := rfl
@[simp] theorem State.endWait_sp : (s.endWait).sp = s.sp := rfl
@[simp] theorem State.endWait_dt : (s.endWait).dt = s.dt := rfl
@[simp] theorem State.endWait_st : (s.endWait).st = s.st := rfl
@[simp] theorem State.endWait_keys : (s.endWait).keys = s.keys := rfl
@[simp] theorem State.endWait_mem : (s.endWait).mem = s.mem := rfl
@[simp] theorem State.endWait_fb : (s.endWait).fb = s.fb := rfl
@[simp] theorem State.endWait_dirty : (s.endWait).dirty = s.dirty := rfl
@[simp] theorem State.endWait_wait : (s.endWait).wait = false := rfl
@[simp] theorem State.endWait_waitX : (s.endWait).waitX = s.waitX := rfl
@[simp] theorem State.endWait_keyPrev : (s.endWait).keyPrev = s.keyPrev := rfl
@[simp] theorem State.endWait_cancel : (s.endWait).cancel = s.cancel := rfl
@[simp] theorem State.endWait_draws : (s.endWait).draws = s.draws := rfl
@[simp] theorem State.endWait_status : (s.endWait).status = s.status := rfl
@[simp] theorem State.endWait_errorSeen : (s.endWait).errorSeen = s.errorSeen := rfl
@[simp] theorem State.endWait_reg (r : RegIx) : (s.endWait).reg r = s.reg r := rfl
@[simp] theorem State.endWait_slot (k : Nat) : (s.endWait).slot? k = s.slot? k := rfl

/-! ### `State.sampleKeys` -/

@[simp] theorem State.sampleKeys_v : (s.sampleKeys).v = s.v := rfl
@[simp] theorem State.sampleKeys_i : (s.sampleKeys).i = s.i := rfl
@[simp] theorem State.sampleKeys_pc : (s.sampleKeys).pc = s.pc := rfl
@[simp] theorem State.sampleKeys_stack : (s.sampleKeys).stack = s.stack := rfl
@[simp] theorem State.sampleKeys_sp : (s.sampleKeys).sp = s.sp := rfl
@[simp] theorem State.sampleKeys_dt : (s.sampleKeys).dt = s.dt := rfl
@[simp] theorem State.sampleKeys_st : (s.sampleKeys).st = s.st := rfl
@[simp] theorem State.sampleKeys_keys : (s.sampleKeys).keys = s.keys := rfl
@[simp] theorem State.sampleKeys_mem : (s.sampleKeys).mem = s.mem := rfl
@[simp] theorem State.sampleKeys_fb : (s.sampleKeys).fb = s.fb := rfl
@[simp] theorem State.sampleKeys_dirty : (s.sampleKeys).dirty = s.dirty := rfl
@[simp] theorem State.sampleKeys_wait : (s.sampleKeys).wait = s.wait := rfl
@[simp] theorem State.sampleKeys_waitX : (s.sampleKeys).waitX = s.waitX := rfl
@[simp] theorem State.sampleKeys_keyPrev : (s.sampleKeys).keyPrev = s.keys := rfl
@[simp] theorem State.sampleKeys_cancel : (s.sampleKeys).cancel = s.cancel := rfl
@[simp] theorem State.sampleKeys_draws : (s.sampleKeys).draws = s.draws := rfl
@[simp] theorem State.sampleKeys_status : (s.sampleKeys).status = s.status := rfl
@[simp] theorem State.sampleKeys_errorSeen : (s.sampleKeys).errorSeen = s.errorSeen := rfl
@[simp] theorem State.sampleKeys_reg (r : RegIx) : (s.sampleKeys).reg r = s.reg r := rfl
@[simp] theorem State.sampleKeys_slot (k : Nat) : (s.sampleKeys).slot? k = s.slot? k := rfl

/-! ### `State.consumeDraw` -/

@[simp] theorem State.consumeDraw_v : (s.consumeDraw).v = s.v := rfl
@[simp] theorem State.consumeDraw_i : (s.consumeDraw).i = s.i := rfl
@[simp] theorem State.consumeDraw_pc : (s.consumeDraw).pc = s.pc := rfl
@[simp] theorem State.consumeDraw_stack : (s.consumeDraw).stack = s.stack := rfl
@[simp] theorem State.consumeDraw_sp : (s.consumeDraw).sp = s.sp := rfl
@[simp] theorem State.consumeDraw_dt : (s.consumeDraw).dt = s.dt := rfl
@[simp] theorem State.consumeDraw_st : (s.consumeDraw).st = s.st := rfl
@[simp] theorem State.consumeDraw_keys : (s.consumeDraw).keys = s.keys := rfl
@[simp] theorem State.consumeDraw_mem : (s.consumeDraw).mem = s.mem := rfl
@[simp] theorem State.consumeDraw_fb : (s.consumeDraw).fb = s.fb := rfl
@[simp] theorem State.consumeDraw_dirty : (s.consumeDraw).dirty = s.dirty := rfl
@[simp] theorem State.consumeDraw_wait : (s.consumeDraw).wait = s.wait := rfl
@[simp] theorem State.consumeDraw_waitX : (s.consumeDraw).waitX = s.waitX := rfl
@[simp] theorem State.consumeDraw_keyPrev : (s.consumeDraw).keyPrev = s.keyPrev := rfl
@[simp] theorem State.consumeDraw_cancel : (s.consumeDraw).cancel = s.cancel := rfl
@[simp] theorem State.consumeDraw_draws : (s.consumeDraw).draws = s.draws + 1 := rfl
@[simp] theorem State.consumeDraw_status : (s.consumeDraw).status = s.status := rfl
@[simp] theorem State.consumeDraw_errorSeen : (s.consumeDraw).errorSeen = s.errorSeen := rfl
@[simp] theorem State.consumeDraw_reg (r : RegIx) : (s.consumeDraw).reg r = s.reg r := rfl
@[simp] theorem State.consumeDraw_slot (k : Nat) : (s.consumeDraw).slot? k = s.slot? k := rfl

/-! ### `State.returnStatus` -/

@[simp] theorem State.returnStatus_v (c : Status) : (s.returnStatus c).v = s.v := rfl
@[simp] theorem State.returnStatus_i (c : Status) : (s.returnStatus c).i = s.i := rfl
@[simp] theorem State.returnStatus_pc (c : Status) : (s.returnStatus c).pc = s.pc := rfl
@[simp] theorem State.returnStatus_stack (c : Status) : (s.returnStatus c).stack = s.stack := rfl
@[simp] theorem State.returnStatus_sp (c : Status) : (s.returnStatus c).sp = s.sp := rfl
@[simp] theorem State.returnStatus_dt (c : Status) : (s.returnStatus c).dt = s.dt := rfl
@[simp] theorem State.returnStatus_st (c : Status) : (s.returnStatus c).st = s.st := rfl
@[simp] theorem State.returnStatus_keys (c : Status) : (s.returnStatus c).keys = s.keys := rfl
@[simp] theorem State.returnStatus_mem (c : Status) : (s.returnStatus c).mem = s.mem := rfl
@[simp] theorem State.returnStatus_fb (c : Status) : (s.returnStatus c).fb = s.fb := rfl
@[simp] theorem State.returnStatus_dirty (c : Status) : (s.returnStatus c).dirty = s.dirty := rfl
@[simp] theorem State.returnStatus_wait (c : Status) : (s.returnStatus c).wait = s.wait := rfl
@[simp] theorem State.returnStatus_waitX (c : Status) : (s.returnStatus c).waitX = s.waitX := rfl
@[simp] theorem State.returnStatus_keyPrev (c : Status) : (s.returnStatus c).keyPrev = s.keyPrev := rfl
@[simp] theorem State.returnStatus_cancel (c : Status) : (s.returnStatus c).cancel = s.cancel := rfl
@[simp] theorem State.returnStatus_draws (c : Status) : (s.returnStatus c).draws = s.draws := rfl
@[simp] theorem State.returnStatus_status (c : Status) : (s.returnStatus c).status = some c := rfl
@[simp] theorem State.returnStatus_errorSeen (c : Status) : (s.returnStatus c).errorSeen = (s.errorSeen || c.isError) := rfl
@[simp] theorem State.returnStatus_reg (c : Status) (r : RegIx) : (s.returnStatus c).reg r = s.reg r := rfl
@[simp] theorem State.returnStatus_slot (c : Status) (k : Nat) : (s.returnStatus c).slot? k = s.slot? k := rfl

/-! ### `State.countdown` -/

@[simp] theorem State.countdown_v : (s.countdown).v = s.v := rfl
@[simp] theorem State.countdown_i : (s.countdown).i = s.i := rfl
@[simp] theorem State.countdown_pc : (s.countdown).pc = s.pc := rfl
@[simp] theorem State.countdown_stack : (s.countdown).stack = s.stack := rfl
@[simp] theorem State.countdown_sp : (s.countdown).sp = s.sp := rfl
@[simp] theorem State.countdown_dt : (s.countdown).dt = timerTick s.dt := rfl
@[simp] theorem State.countdown_st : (s.countdown).st = timerTick s.st := rfl
@[simp] theorem State.countdown_keys : (s.countdown).keys = s.keys := rfl
@[simp] theorem State.countdown_mem : (s.countdown).mem = s.mem := rfl
@[simp] theorem State.countdown_fb : (s.countdown).fb = s.fb := rfl
@[simp] theorem State.countdown_dirty : (s.countdown).dirty = s.dirty := rfl
@[simp] theorem State.countdown_wait : (s.countdown).wait = s.wait := rfl
@[simp] theorem State.countdown_waitX : (s.countdown).waitX = s.waitX := rfl
@[simp] theorem State.countdown_keyPrev : (s.countdown).keyPrev = s.keyPrev := rfl
@[simp] theorem State.countdown_cancel : (s.countdown).cancel = s.cancel := rfl
@[simp] theorem State.countdown_draws : (s.countdown).draws = s.draws := rfl
@[simp] theorem State.countdown_status : (s.countdown).status = s.status := rfl
@[simp] theorem State.countdown_errorSeen : (s.countdown).errorSeen = s.errorSeen := rfl
@[simp] theorem State.countdown_reg (r : RegIx) : (s.countdown).reg r = s.reg r := rfl
@[simp] theorem State.countdown_slot (k : Nat) : (s.countdown).slot? k = s.slot? k := rfl

/-! ### `State.skipIf` -/

@[simp] theorem State.skipIf_v (c : Bool) : (s.skipIf c).v = s.v := by cases c <;> rfl
@[simp] theorem State.skipIf_i (c : Bool) : (s.skipIf c).i = s.i := by cases c <;> rfl
@[simp] theorem State.skipIf_pc (c : Bool) : (s.skipIf c).pc = if c then s.pc + 2#16 else s.pc := by cases c <;> rfl
@[simp] theorem State.skipIf_stack (c : Bool) : (s.skipIf c).stack = s.stack := by cases c <;> rfl
@[simp] theorem State.skipIf_sp (c : Bool) : (s.skipIf c).sp = s.sp := by cases c <;> rfl
@[simp] theorem State.skipIf_dt (c : Bool) : (s.skipIf c).dt = s.dt := by cases c <;> rfl
@[simp] theorem State.skipIf_st (c : Bool) : (s.skipIf c).st = s.st := by cases c <;> rfl
@[simp] theorem State.skipIf_keys (c : Bool) : (s.skipIf c).keys = s.keys := by cases c <;> rfl
@[simp] theorem State.skipIf_mem (c : Bool) : (s.skipIf c).mem = s.mem := by cases c <;> rfl
@[simp] theorem State.skipIf_fb (c : Bool) : (s.skipIf c).fb = s.fb := by cases c <;> rfl
@[simp] theorem State.skipIf_dirty (c : Bool) : (s.skipIf c).dirty = s.dirty := by cases c <;> rfl
@[simp] theorem State.skipIf_wait (c : Bool) : (s.skipIf c).wait = s.wait := by cases c <;> rfl
@[simp] theorem State.skipIf_waitX (c : Bool) : (s.skipIf c).waitX = s.waitX := by cases c <;> rfl
@[simp] theorem State.skipIf_keyPrev (c : Bool) : (s.skipIf c).keyPrev = s.keyPrev := by cases c <;> rfl
@[simp] theorem State.skipIf_cancel (c : Bool) : (s.skipIf c).cancel = s.cancel := by cases c <;> rfl
@[simp] theorem State.skipIf_draws (c : Bool) : (s.skipIf c).draws = s.draws := by cases c <;> rfl
@[simp] theorem State.skipIf_status (c : Bool) : (s.skipIf c).status = s.status := by cases c <;> rfl
@[simp] theorem State.skipIf_errorSeen (c : Bool) : (s.skipIf c).errorSeen = s.errorSeen := by cases c <;> rfl
@[simp] theorem State.skipIf_reg (c : Bool) (r : RegIx) : (s.skipIf c).reg r = s.reg r := by cases c <;> rfl
@[simp] theorem State.skipIf_slot (c : Bool) (k : Nat) : (s.skipIf c).slot? k = s.slot? k := by cases c <;> rfl

/-! ### Registers -/

/-- A register reads as written. -/
@[simp] theorem State.writeReg_reg_same (x : RegIx) (b : Byte) : (s.writeReg x b).reg x = b := by
  simp [State.reg, State.writeReg]

/-- A write leaves every other register alone. -/
theorem State.writeReg_reg_ne (x r : RegIx) (b : Byte) (h : r ≠ x) : (s.writeReg x b).reg r = s.reg r := by
  have hn : x.toNat ≠ r.toNat := fun e => h (BitVec.eq_of_toNat_eq e.symm)
  simp only [State.reg, State.writeReg]
  exact Vector.getElem_set_ne x.isLt r.isLt hn

/-- Reading after a write, for any two registers. -/
theorem State.writeReg_reg (x r : RegIx) (b : Byte) : (s.writeReg x b).reg r = if r = x then b else s.reg r := by
  split
  · subst r; simp
  · exact s.writeReg_reg_ne x r b ‹_›

end Sys2Proof.Machine
end

