-- ==== Sys2Proof/Laws/Ops.lean ====
section
/-!
SUPPORT. One specification lemma per shared operation of the meanings: what it can answer and what it leaves
alone.
-/
namespace Sys2Proof.Machine

variable (s : State)

/-! ### How an instruction ends -/

theorem answer_eq (c : Status) : answer c s = .next (s.returnStatus c) := rfl
theorem succeed_eq : succeed s = .next (s.returnStatus .success) := rfl

/-- An answer is a next state that carries the status. -/
theorem answer_next {c : Status} {t : State} (h : answer c s = .next t) : t = s.returnStatus c := by
  cases h; rfl
theorem succeed_next {t : State} (h : succeed s = .next t) : t = s.returnStatus .success := by
  cases h; rfl

/-! ### Flags and the countdown -/

theorem flagByte_toNat (c : Bool) : (flagByte c).toNat = if c then 1 else 0 := by cases c <;> rfl

/-- A timer's countdown as a number: one less, never below zero. -/
theorem timerTick_toNat (t : Byte) : (timerTick t).toNat = t.toNat - 1 := by
  have := t.isLt
  unfold timerTick
  split
  · rw [BitVec.toNat_sub]; have : (1 : Byte).toNat = 1 := rfl; omega
  · omega

/-! ### Flag and result -/

/-- After the two writes of a flag-setting instruction: the result in `V[x]`, the flag in `VF` unless `x = 15`,
every other register as before. -/
theorem State.writeFlagResult_reg (x r : RegIx) (f b : Byte) :
    (s.writeFlagResult x f b).reg r = if r = x then b else if r = flagReg then f else s.reg r := by
  simp only [State.writeFlagResult, State.writeReg_reg]

@[simp] theorem State.writeFlagResult_i (x : RegIx) (f b : Byte) : (s.writeFlagResult x f b).i = s.i := rfl
@[simp] theorem State.writeFlagResult_pc (x : RegIx) (f b : Byte) : (s.writeFlagResult x f b).pc = s.pc := rfl
@[simp] theorem State.writeFlagResult_stack (x : RegIx) (f b : Byte) : (s.writeFlagResult x f b).stack = s.stack := rfl
@[simp] theorem State.writeFlagResult_sp (x : RegIx) (f b : Byte) : (s.writeFlagResult x f b).sp = s.sp := rfl
@[simp] theorem State.writeFlagResult_dt (x : RegIx) (f b : Byte) : (s.writeFlagResult x f b).dt = s.dt := rfl
@[simp] theorem State.writeFlagResult_st (x : RegIx) (f b : Byte) : (s.writeFlagResult x f b).st = s.st := rfl
@[simp] theorem State.writeFlagResult_keys (x : RegIx) (f b : Byte) : (s.writeFlagResult x f b).keys = s.keys := rfl
@[simp] theorem State.writeFlagResult_mem (x : RegIx) (f b : Byte) : (s.writeFlagResult x f b).mem = s.mem := rfl
@[simp] theorem State.writeFlagResult_fb (x : RegIx) (f b : Byte) : (s.writeFlagResult x f b).fb = s.fb := rfl
@[simp] theorem State.writeFlagResult_dirty (x : RegIx) (f b : Byte) : (s.writeFlagResult x f b).dirty = s.dirty := rfl
@[simp] theorem State.writeFlagResult_wait (x : RegIx) (f b : Byte) : (s.writeFlagResult x f b).wait = s.wait := rfl
@[simp] theorem State.writeFlagResult_waitX (x : RegIx) (f b : Byte) : (s.writeFlagResult x f b).waitX = s.waitX := rfl
@[simp] theorem State.writeFlagResult_keyPrev (x : RegIx) (f b : Byte) : (s.writeFlagResult x f b).keyPrev = s.keyPrev := rfl
@[simp] theorem State.writeFlagResult_cancel (x : RegIx) (f b : Byte) : (s.writeFlagResult x f b).cancel = s.cancel := rfl
@[simp] theorem State.writeFlagResult_draws (x : RegIx) (f b : Byte) : (s.writeFlagResult x f b).draws = s.draws := rfl
@[simp] theorem State.writeFlagResult_status (x : RegIx) (f b : Byte) : (s.writeFlagResult x f b).status = s.status := rfl
@[simp] theorem State.writeFlagResult_errorSeen (x : RegIx) (f b : Byte) : (s.writeFlagResult x f b).errorSeen = s.errorSeen := rfl

/-! ### Load-multiple -/

@[simp] theorem State.loadRegs_i (a n : Nat) : (s.loadRegs a n).i = s.i := by
  induction n with
  | zero => rfl
  | succ n ih => simpa [State.loadRegs] using ih
@[simp] theorem State.loadRegs_pc (a n : Nat) : (s.loadRegs a n).pc = s.pc := by
  induction n with
  | zero => rfl
  | succ n ih => simpa [State.loadRegs] using ih
@[simp] theorem State.loadRegs_stack (a n : Nat) : (s.loadRegs a n).stack = s.stack := by
  induction n with
  | zero => rfl
  | succ n ih => simpa [State.loadRegs] using ih
@[simp] theorem State.loadRegs_sp (a n : Nat) : (s.loadRegs a n).sp = s.sp := by
  induction n with
  | zero => rfl
  | succ n ih => simpa [State.loadRegs] using ih
@[simp] theorem State.loadRegs_dt (a n : Nat) : (s.loadRegs a n).dt = s.dt := by
  induction n with
  | zero => rfl
  | succ n ih => simpa [State.loadRegs] using ih
@[simp] theorem State.loadRegs_st (a n : Nat) : (s.loadRegs a n).st = s.st := by
  induction n with
  | zero => rfl
  | succ n ih => simpa [State.loadRegs] using ih
@[simp] theorem State.loadRegs_keys (a n : Nat) : (s.loadRegs a n).keys = s.keys := by
  induction n with
  | zero => rfl
  | succ n ih => simpa [State.loadRegs] using ih
@[simp] theorem State.loadRegs_mem (a n : Nat) : (s.loadRegs a n).mem = s.mem := by
  induction n with
  | zero => rfl
  | succ n ih => simpa [State.loadRegs] using ih
@[simp] theorem State.loadRegs_fb (a n : Nat) : (s.loadRegs a n).fb = s.fb := by
  induction n with
  | zero => rfl
  | succ n ih => simpa [State.loadRegs] using ih
@[simp] theorem State.loadRegs_dirty (a n : Nat) : (s.loadRegs a n).dirty = s.dirty := by
  induction n with
  | zero => rfl
  | succ n ih => simpa [State.loadRegs] using ih
@[simp] theorem State.loadRegs_wait (a n : Nat) : (s.loadRegs a n).wait = s.wait := by
  induction n with
  | zero => rfl
  | succ n ih => simpa [State.loadRegs] using ih
@[simp] theorem State.loadRegs_waitX (a n : Nat) : (s.loadRegs a n).waitX = s.waitX := by
  induction n with
  | zero => rfl
  | succ n ih => simpa [State.loadRegs] using ih
@[simp] theorem State.loadRegs_keyPrev (a n : Nat) : (s.loadRegs a n).keyPrev = s.keyPrev := by
  induction n with
  | zero => rfl
  | succ n ih => simpa [State.loadRegs] using ih
@[simp] theorem State.loadRegs_cancel (a n : Nat) : (s.loadRegs a n).cancel = s.cancel := by
  induction n with
  | zero => rfl
  | succ n ih => simpa [State.loadRegs] using ih
@[simp] theorem State.loadRegs_draws (a n : Nat) : (s.loadRegs a n).draws = s.draws := by
  induction n with
  | zero => rfl
  | succ n ih => simpa [State.loadRegs] using ih
@[simp] theorem State.loadRegs_status (a n : Nat) : (s.loadRegs a n).status = s.status := by
  induction n with
  | zero => rfl
  | succ n ih => simpa [State.loadRegs] using ih
@[simp] theorem State.loadRegs_errorSeen (a n : Nat) : (s.loadRegs a n).errorSeen = s.errorSeen := by
  induction n with
  | zero => rfl
  | succ n ih => simpa [State.loadRegs] using ih

/-- A load of `V[0]` to `V[n - 1]` fills exactly those registers. -/
theorem State.loadRegs_reg (a n : Nat) (hn : n ≤ 16) (r : RegIx) :
    (s.loadRegs a n).reg r = if r.toNat < n then s.mem.read (a + r.toNat) else s.reg r := by
  induction n with
  | zero => simp [State.loadRegs]
  | succ n ih =>
    rw [State.loadRegs, State.writeReg_reg, ih (by omega)]
    have hr := r.isLt
    by_cases h : r = BitVec.ofNat 4 n
    · have e : r.toNat = n := by rw [h, BitVec.toNat_ofNat]; omega
      simp [h.symm, e]
    · have e : r.toNat ≠ n := fun e => h (BitVec.eq_of_toNat_eq (by rw [BitVec.toNat_ofNat]; omega))
      rw [if_neg h]
      by_cases hl : r.toNat < n
      · rw [if_pos hl, if_pos (by omega)]
      · rw [if_neg hl, if_neg (by omega)]

/-- The values stored by a store-multiple. -/
@[simp] theorem State.length_firstRegs (n : Nat) : (s.firstRegs n).length = n := by simp [State.firstRegs]
theorem State.getElem_firstRegs (n j : Nat) (h : j < (s.firstRegs n).length) :
    (s.firstRegs n)[j] = s.reg (BitVec.ofNat 4 j) := by simp [State.firstRegs]

@[simp] theorem length_decimalDigits (b : Byte) : (decimalDigits b).length = 3 := rfl

/-! ### The compositor -/

@[simp] theorem State.drawSprite_i (p : EdgePolicy) (x y h a : Nat) : (s.drawSprite p x y h a).i = s.i := rfl
@[simp] theorem State.drawSprite_pc (p : EdgePolicy) (x y h a : Nat) : (s.drawSprite p x y h a).pc = s.pc := rfl
@[simp] theorem State.drawSprite_stack (p : EdgePolicy) (x y h a : Nat) : (s.drawSprite p x y h a).stack = s.stack := rfl
@[simp] theorem State.drawSprite_sp (p : EdgePolicy) (x y h a : Nat) : (s.drawSprite p x y h a).sp = s.sp := rfl
@[simp] theorem State.drawSprite_dt (p : EdgePolicy) (x y h a : Nat) : (s.drawSprite p x y h a).dt = s.dt := rfl
@[simp] theorem State.drawSprite_st (p : EdgePolicy) (x y h a : Nat) : (s.drawSprite p x y h a).st = s.st := rfl
@[simp] theorem State.drawSprite_keys (p : EdgePolicy) (x y h a : Nat) : (s.drawSprite p x y h a).keys = s.keys := rfl
@[simp] theorem State.drawSprite_mem (p : EdgePolicy) (x y h a : Nat) : (s.drawSprite p x y h a).mem = s.mem := rfl
@[simp] theorem State.drawSprite_wait (p : EdgePolicy) (x y h a : Nat) : (s.drawSprite p x y h a).wait = s.wait := rfl
@[simp] theorem State.drawSprite_waitX (p : EdgePolicy) (x y h a : Nat) : (s.drawSprite p x y h a).waitX = s.waitX := rfl
@[simp] theorem State.drawSprite_keyPrev (p : EdgePolicy) (x y h a : Nat) : (s.drawSprite p x y h a).keyPrev = s.keyPrev := rfl
@[simp] theorem State.drawSprite_cancel (p : EdgePolicy) (x y h a : Nat) : (s.drawSprite p x y h a).cancel = s.cancel := rfl
@[simp] theorem State.drawSprite_draws (p : EdgePolicy) (x y h a : Nat) : (s.drawSprite p x y h a).draws = s.draws := rfl
@[simp] theorem State.drawSprite_status (p : EdgePolicy) (x y h a : Nat) : (s.drawSprite p x y h a).status = s.status := rfl
@[simp] theorem State.drawSprite_errorSeen (p : EdgePolicy) (x y h a : Nat) : (s.drawSprite p x y h a).errorSeen = s.errorSeen := rfl
@[simp] theorem State.drawSprite_dirty (p : EdgePolicy) (x y h a : Nat) : (s.drawSprite p x y h a).dirty = true := rfl
theorem State.drawSprite_fb (p : EdgePolicy) (x y h a : Nat) :
    (s.drawSprite p x y h a).fb = (compose (spriteCells p x y (s.mem.readBytes a h)) s.fb).1 := rfl
@[simp] theorem State.drawSprite_slot (p : EdgePolicy) (x y h a k : Nat) :
    (s.drawSprite p x y h a).slot? k = s.slot? k := rfl
/-- A draw writes no register but `VF`. -/
theorem State.drawSprite_reg (p : EdgePolicy) (x y h a : Nat) (r : RegIx) :
    (s.drawSprite p x y h a).reg r =
      if r = flagReg then flagByte (compose (spriteCells p x y (s.mem.readBytes a h)) s.fb).2 else s.reg r := by
  simp only [State.drawSprite, State.writeReg_reg, State.setFb_reg]

/-! ### The call stack -/

theorem State.slot?_of_lt {k : Nat} (h : k < 16) : s.slot? k = some (s.stack[k]) := by
  simp [State.slot?, h]
theorem State.slot?_of_ge {k : Nat} (h : 16 ≤ k) : s.slot? k = none := by
  simp [State.slot?, h]

/-- A slot keeps the low bits of a return address, and at the spec's width all of it. -/
theorem stackEntry_toNat (c : Config) (w : Word) :
    (stackEntry c w).toNat = w.toNat % 2 ^ c.stackEntryBits := by
  simp only [stackEntry, BitVec.toNat_ofNat]
  exact Nat.mod_eq_of_lt (Nat.lt_of_le_of_lt (Nat.mod_le _ _) w.isLt)
@[simp] theorem stackEntry_params (w : Word) : stackEntry params w = w :=
  BitVec.eq_of_toNat_eq (by rw [stackEntry_toNat]; exact Nat.mod_eq_of_lt w.isLt)

/-- A push finds its slot while fewer than 16 are occupied. -/
theorem State.push?_of_lt (w : Word) (h : s.sp.toNat < 16) :
    s.push? w = some { s with stack := s.stack.set s.sp.toNat w h, sp := s.sp + 1 } := by
  simp [State.push?, h]
theorem State.push?_of_ge (w : Word) (h : 16 ≤ s.sp.toNat) : s.push? w = none := by
  simp [State.push?, Nat.not_lt.mpr h]

/-- A pop finds its slot while `SP` is 1 to 16. -/
theorem State.pop?_of_le (h : s.sp.toNat - 1 < 16) :
    s.pop? = some (s.stack[s.sp.toNat - 1], { s with sp := s.sp - 1 }) := by
  simp [State.pop?, s.slot?_of_lt h]
theorem State.pop?_of_gt (h : 16 < s.sp.toNat) : s.pop? = none := by
  simp [State.pop?, s.slot?_of_ge (k := s.sp.toNat - 1) (by omega)]

/-! ### Ranges and keys -/

theorem accessInRange_iff (size a len : Nat) : accessInRange size a len = true ↔ len = 0 ∨ a + len ≤ size := by
  simp [accessInRange]

/-- An access through `I` is in range exactly if it is empty or its last byte is in memory. -/
theorem indexInRange_iff (c : Config) (len : Nat) :
    s.indexInRange c len = true ↔ len = 0 ∨ s.i.toNat + len ≤ c.memSize := by
  simp [State.indexInRange, accessInRange_iff, State.indexed]
theorem indexInRange_eq_false (c : Config) (len : Nat) :
    s.indexInRange c len = false ↔ len ≠ 0 ∧ c.memSize < s.i.toNat + len := by
  rw [← Bool.not_eq_true, indexInRange_iff]; omega

/-- The lowest set bit, if there is one. -/
theorem lowestKey_eq_some {w : Word} {k : Nat} :
    lowestKey w = some k ↔ k < 16 ∧ w.getLsbD k = true ∧ ∀ j < k, w.getLsbD j = false := by
  have key : ∀ n, (List.range n).find? (fun k => w.getLsbD k) = some k ↔
      k < n ∧ w.getLsbD k = true ∧ ∀ j < k, w.getLsbD j = false := by
    intro n
    rw [List.find?_range_eq_some]
    constructor
    · rintro ⟨h1, h2, h3⟩
      exact ⟨by simpa using h2, h1, fun j hj => by simpa using h3 j hj⟩
    · rintro ⟨h1, h2, h3⟩
      exact ⟨h2, by simpa using h1, fun j hj => by simpa using h3 j hj⟩
  exact key 16

/-- There is none exactly if no bit is set. -/
theorem lowestKey_eq_none {w : Word} : lowestKey w = none ↔ w = 0 := by
  simp only [lowestKey, List.find?_eq_none, List.mem_range]
  constructor
  · intro h
    apply BitVec.eq_of_getLsbD_eq
    intro i hi
    simpa using h i hi
  · rintro rfl k _; simp

end Sys2Proof.Machine
end

