-- ==== Sys2Proof/Laws/PerInstr.lean ====
section
/-!
SUPPORT. Statements about every instruction as syntax, one lemma per constructor. `EncodeMatchesRow`: the word of
an instruction is selected by the instruction's own row of the opcode map (spec/30_encoding.md R66).
-/
namespace Sys2Proof.Laws

/-- The encoded word is selected by its row: `w & mask == match`. -/
def EncodeMatchesRow.Statement (i : Instr) : Prop := i.row.selects (encode i) = true

/-- A masked append whose masks split at the append. -/
theorem append_and {n m : Nat} (a c : BitVec n) (b d : BitVec m) : (a ++ b) &&& (c ++ d) = (a &&& c) ++ (b &&& d) := by
  ext k hk; simp only [BitVec.getElem_and, BitVec.getElem_append]; split <;> simp

theorem and_encA (op c : BitVec 4) (nnn d : Addr12) : encA op nnn &&& encA c d = encA (op &&& c) (nnn &&& d) :=
  append_and op c nnn d
theorem and_encRI (op c : BitVec 4) (x e : RegIx) (nn d : Byte) :
    encRI op x nn &&& encRI c e d = encRI (op &&& c) (x &&& e) (nn &&& d) :=
  (append_and (n := 8) _ _ nn d).trans (by rw [append_and op c x e]; rfl)
theorem and_encRR (op c : BitVec 4) (x e y f : RegIx) (n d : Nibble) :
    encRR op x y n &&& encRR c e f d = encRR (op &&& c) (x &&& e) (y &&& f) (n &&& d) :=
  (append_and (n := 8) (m := 8) _ _ _ _).trans (by rw [append_and op c x e, append_and y f n d]; rfl)

theorem and_ones4 (a : BitVec 4) : a &&& 15#4 = a := BitVec.and_allOnes
theorem and_ones8 (a : BitVec 8) : a &&& 255#8 = a := BitVec.and_allOnes

/-- Only the opcode nibble is fixed. -/
theorem selects_encA (s : String) (op : BitVec 4) (nnn : Addr12) :
    (OpcodeRow.mk s (encA 0xF 0) (encA op 0)).selects (encA op nnn) = true := by
  simp [OpcodeRow.selects, and_encA, and_ones4]
theorem selects_encRI (s : String) (op : BitVec 4) (x : RegIx) (nn : Byte) :
    (OpcodeRow.mk s (encRI 0xF 0 0) (encRI op 0 0)).selects (encRI op x nn) = true := by
  simp [OpcodeRow.selects, and_encRI, and_ones4]
/-- The opcode nibble and the selector byte are fixed. -/
theorem selects_encRS (s : String) (op : BitVec 4) (x : RegIx) (nn : Byte) :
    (OpcodeRow.mk s (encRI 0xF 0 0xFF) (encRI op 0 nn)).selects (encRI op x nn) = true := by
  simp [OpcodeRow.selects, and_encRI, and_ones4, and_ones8]
/-- The opcode nibble and the selector nibble are fixed. -/
theorem selects_encRR (s : String) (op : BitVec 4) (x y : RegIx) (n : Nibble) :
    (OpcodeRow.mk s (encRR 0xF 0 0 0xF) (encRR op 0 0 n)).selects (encRR op x y n) = true := by
  simp [OpcodeRow.selects, and_encRR, and_ones4]
theorem selects_encRRN (s : String) (op : BitVec 4) (x y : RegIx) (n : Nibble) :
    (OpcodeRow.mk s (encRR 0xF 0 0 0) (encRR op 0 0 0)).selects (encRR op x y n) = true := by
  simp [OpcodeRow.selects, and_encRR, and_ones4]

theorem EncodeMatchesRow.cls : EncodeMatchesRow.Statement .cls := rfl
theorem EncodeMatchesRow.ret : EncodeMatchesRow.Statement .ret := rfl
theorem EncodeMatchesRow.sys (nnn : Addr12) : EncodeMatchesRow.Statement (.sys nnn) := selects_encA _ _ nnn
theorem EncodeMatchesRow.jp (nnn : Addr12) : EncodeMatchesRow.Statement (.jp nnn) := selects_encA _ _ nnn
theorem EncodeMatchesRow.call (nnn : Addr12) : EncodeMatchesRow.Statement (.call nnn) := selects_encA _ _ nnn
theorem EncodeMatchesRow.seImm (x : RegIx) (nn : Byte) : EncodeMatchesRow.Statement (.seImm x nn) := selects_encRI _ _ x nn
theorem EncodeMatchesRow.sneImm (x : RegIx) (nn : Byte) : EncodeMatchesRow.Statement (.sneImm x nn) := selects_encRI _ _ x nn
theorem EncodeMatchesRow.seReg (x : RegIx) (y : RegIx) : EncodeMatchesRow.Statement (.seReg x y) := selects_encRR _ _ x y _
theorem EncodeMatchesRow.sneReg (x : RegIx) (y : RegIx) : EncodeMatchesRow.Statement (.sneReg x y) := selects_encRR _ _ x y _
theorem EncodeMatchesRow.ldImm (x : RegIx) (nn : Byte) : EncodeMatchesRow.Statement (.ldImm x nn) := selects_encRI _ _ x nn
theorem EncodeMatchesRow.addImm (x : RegIx) (nn : Byte) : EncodeMatchesRow.Statement (.addImm x nn) := selects_encRI _ _ x nn
theorem EncodeMatchesRow.ldReg (x : RegIx) (y : RegIx) : EncodeMatchesRow.Statement (.ldReg x y) := selects_encRR _ _ x y _
theorem EncodeMatchesRow.orReg (x : RegIx) (y : RegIx) : EncodeMatchesRow.Statement (.orReg x y) := selects_encRR _ _ x y _
theorem EncodeMatchesRow.andReg (x : RegIx) (y : RegIx) : EncodeMatchesRow.Statement (.andReg x y) := selects_encRR _ _ x y _
theorem EncodeMatchesRow.xorReg (x : RegIx) (y : RegIx) : EncodeMatchesRow.Statement (.xorReg x y) := selects_encRR _ _ x y _
theorem EncodeMatchesRow.addReg (x : RegIx) (y : RegIx) : EncodeMatchesRow.Statement (.addReg x y) := selects_encRR _ _ x y _
theorem EncodeMatchesRow.sub (x : RegIx) (y : RegIx) : EncodeMatchesRow.Statement (.sub x y) := selects_encRR _ _ x y _
theorem EncodeMatchesRow.shr (x : RegIx) (y : RegIx) : EncodeMatchesRow.Statement (.shr x y) := selects_encRR _ _ x y _
theorem EncodeMatchesRow.subn (x : RegIx) (y : RegIx) : EncodeMatchesRow.Statement (.subn x y) := selects_encRR _ _ x y _
theorem EncodeMatchesRow.shl (x : RegIx) (y : RegIx) : EncodeMatchesRow.Statement (.shl x y) := selects_encRR _ _ x y _
theorem EncodeMatchesRow.ldI (nnn : Addr12) : EncodeMatchesRow.Statement (.ldI nnn) := selects_encA _ _ nnn
theorem EncodeMatchesRow.jpV0 (nnn : Addr12) : EncodeMatchesRow.Statement (.jpV0 nnn) := selects_encA _ _ nnn
theorem EncodeMatchesRow.rnd (x : RegIx) (nn : Byte) : EncodeMatchesRow.Statement (.rnd x nn) := selects_encRI _ _ x nn
theorem EncodeMatchesRow.drw (x : RegIx) (y : RegIx) (n : Nibble) : EncodeMatchesRow.Statement (.drw x y n) := selects_encRRN _ _ x y n
theorem EncodeMatchesRow.skp (x : RegIx) : EncodeMatchesRow.Statement (.skp x) := selects_encRS _ _ x _
theorem EncodeMatchesRow.sknp (x : RegIx) : EncodeMatchesRow.Statement (.sknp x) := selects_encRS _ _ x _
theorem EncodeMatchesRow.ldVxDt (x : RegIx) : EncodeMatchesRow.Statement (.ldVxDt x) := selects_encRS _ _ x _
theorem EncodeMatchesRow.ldVxK (x : RegIx) : EncodeMatchesRow.Statement (.ldVxK x) := selects_encRS _ _ x _
theorem EncodeMatchesRow.ldDtVx (x : RegIx) : EncodeMatchesRow.Statement (.ldDtVx x) := selects_encRS _ _ x _
theorem EncodeMatchesRow.ldStVx (x : RegIx) : EncodeMatchesRow.Statement (.ldStVx x) := selects_encRS _ _ x _
theorem EncodeMatchesRow.addI (x : RegIx) : EncodeMatchesRow.Statement (.addI x) := selects_encRS _ _ x _
theorem EncodeMatchesRow.ldF (x : RegIx) : EncodeMatchesRow.Statement (.ldF x) := selects_encRS _ _ x _
theorem EncodeMatchesRow.ldB (x : RegIx) : EncodeMatchesRow.Statement (.ldB x) := selects_encRS _ _ x _
theorem EncodeMatchesRow.ldMemVx (x : RegIx) : EncodeMatchesRow.Statement (.ldMemVx x) := selects_encRS _ _ x _
theorem EncodeMatchesRow.ldVxMem (x : RegIx) : EncodeMatchesRow.Statement (.ldVxMem x) := selects_encRS _ _ x _

end Sys2Proof.Laws
end

