-- ==== Sys2Proof/Laws/Step.lean ====
section
/-!
SUPPORT. What a step can do, said once: the four ways of `beginStep`, the three ways of a poll, and the end of a
step. Later proofs cite these and never unfold the step.
-/
namespace Sys2Proof.Machine

variable (s : State)

theorem fetchInRange_iff (c : Config) : s.fetchInRange c = true ↔ s.pc.toNat + 1 < c.memSize := by
  simp only [State.fetchInRange, accessInRange_iff]; omega

/-! ### The spec's configuration: `execIn params` is `exec`, `stepIn params` is `step` -/

theorem execIn_params (i : Instr) : execIn params i s = exec i s := by cases i <;> rfl

theorem stepIn_params : stepIn params s = step s := by
  unfold stepIn step
  cases beginStep params s with
  | answered o => rfl
  | execute i t => exact congrArg endStep (execIn_params t i)

theorem happenIn_params (e : Event) : happenIn params e s = happen e s := by
  cases e with
  | step => exact stepIn_params s
  | move m => rfl

theorem runEventsIn_params (es : List Event) : runEventsIn params es s = runEvents es s := by
  induction es generalizing s with
  | nil => rfl
  | cons e es ih =>
    simp only [runEventsIn, runEvents, happenIn_params]
    cases happen e s with
    | next t => exact ih t
    | fault f => rfl
    | refused r => rfl

theorem resetMemory_params : resetMemory params = [] := by decide +kernel

theorem resetIn_params : resetIn params = State.reset := by simp [resetIn, resetMemory_params, State.reset]

/-! ### A step -/

/-- A step at any configuration polls a key wait, or fails to fetch, or rejects the word, or runs the handler of the
decoded instruction on the state with `PC` advanced (spec/60_exceptions.md R178). -/
theorem stepIn_cases (c : Config) :
    (s.wait = true ∧ stepIn c s = waitPoll s) ∨
    (s.wait = false ∧ c.memSize ≤ s.pc.toNat + 1 ∧ stepIn c s = .next (s.returnStatus .memRange)) ∨
    (s.wait = false ∧ s.pc.toNat + 1 < c.memSize ∧ (∃ e, decode s.fetchWord = .error e) ∧
      stepIn c s = .next (s.advancePc.returnStatus .invalidOpcode)) ∨
    (∃ i, (s.wait = false ∧ s.pc.toNat + 1 < c.memSize ∧ decode s.fetchWord = .ok i) ∧
      stepIn c s = endStep (execIn c i s.advancePc)) := by
  unfold stepIn beginStep
  cases hw : s.wait
  · cases hf : s.fetchInRange c
    · have : ¬ s.pc.toNat + 1 < c.memSize := fun h => by
        rw [(fetchInRange_iff s c).mpr h] at hf; cases hf
      exact .inr (.inl ⟨rfl, by omega, by simp [answer]⟩)
    · have hr := (fetchInRange_iff s c).mp hf
      cases hd : decode s.fetchWord with
      | error e => exact .inr (.inr (.inl ⟨rfl, hr, ⟨e, rfl⟩, by simp [answer]⟩))
      | ok i => exact .inr (.inr (.inr ⟨i, ⟨rfl, hr, rfl⟩, by simp⟩))
  · exact .inl ⟨rfl, by simp⟩

/-- `stepIn_cases` at the spec's configuration. -/
theorem step_cases :
    (s.wait = true ∧ step s = waitPoll s) ∨
    (s.wait = false ∧ memSize ≤ s.pc.toNat + 1 ∧ step s = .next (s.returnStatus .memRange)) ∨
    (s.wait = false ∧ s.pc.toNat + 1 < memSize ∧ (∃ e, decode s.fetchWord = .error e) ∧
      step s = .next (s.advancePc.returnStatus .invalidOpcode)) ∨
    (∃ i, Fetches s i ∧ step s = endStep (exec i s.advancePc)) := by
  have h := stepIn_cases s params
  simp only [stepIn_params, execIn_params] at h
  exact h

/-- A poll is cancelled, or completes with the lowest newly held key, or goes on (spec/46_keys.md R153, R155). -/
theorem waitPoll_cases :
    (s.cancel = true ∧ waitPoll s = .next (s.endWait.returnStatus .waitCancelled)) ∨
    (s.cancel = false ∧ s.newKeys = 0 ∧ waitPoll s = .next (s.sampleKeys.returnStatus .keyWait)) ∨
    (s.cancel = false ∧ ∃ k < 16, s.newKeys.getLsbD k = true ∧ (∀ j < k, s.newKeys.getLsbD j = false) ∧
      waitPoll s = .next ((s.writeReg s.waitX (BitVec.ofNat 8 k)).endWait.countdown.returnStatus .success)) := by
  unfold waitPoll
  cases hc : s.cancel
  · cases hk : lowestKey s.newKeys with
    | none => exact .inr (.inl ⟨rfl, lowestKey_eq_none.mp hk, by simp [answer]⟩)
    | some k =>
      obtain ⟨h1, h2, h3⟩ := lowestKey_eq_some.mp hk
      exact .inr (.inr ⟨rfl, k, h1, h2, h3, by simp [completeWait]⟩)
  · exact .inl ⟨rfl, by simp [answer]⟩

/-- The end of a step answers a next state exactly if the handler did. -/
theorem endStep_next {o : Host.Outcome State Fault Refusal} {t : State} :
    endStep o = .next t ↔ ∃ u, o = .next u ∧ t = if u.status = some .success then u.countdown else u := by
  cases o with
  | next u => simp [endStep, eq_comm]
  | fault f => simp [endStep]
  | refused r => simp [endStep]

/-- `RET` in its three cases. -/
theorem execRet_cases :
    (s.sp = 0 ∧ execRet s = .next (s.returnStatus .stackUnderflow)) ∨
    (s.sp ≠ 0 ∧ ∃ h : s.sp.toNat - 1 < 16, execRet s =
      .next ((State.setPc { s with sp := s.sp - 1 } (s.stack[s.sp.toNat - 1])).returnStatus .success)) ∨
    (16 < s.sp.toNat ∧ execRet s = .fault .stackSlotAbsent) := by
  unfold execRet
  by_cases h0 : s.sp = 0
  · exact .inl ⟨h0, by simp [h0, answer]⟩
  · by_cases h1 : s.sp.toNat - 1 < 16
    · exact .inr (.inl ⟨h0, h1, by rw [if_neg h0, s.pop?_of_le h1]; rfl⟩)
    · exact .inr (.inr ⟨by omega, by rw [if_neg h0, s.pop?_of_gt (by omega)]⟩)

/-- `CALL` in its three cases, at any configuration. -/
theorem execCallIn_cases (c : Config) (nnn : Addr12) :
    (s.sp.toNat = c.stackDepth ∧ execCallIn c nnn s = .next (s.returnStatus .stackOverflow)) ∨
    (s.sp.toNat ≠ c.stackDepth ∧ ∃ h : s.sp.toNat < 16, execCallIn c nnn s =
      .next ((State.setPc { s with stack := s.stack.set s.sp.toNat (stackEntry c s.pc) h, sp := s.sp + 1 }
        (addrOperand nnn)).returnStatus .success)) ∨
    (s.sp.toNat ≠ c.stackDepth ∧ 16 ≤ s.sp.toNat ∧ execCallIn c nnn s = .fault .stackSlotAbsent) := by
  unfold execCallIn
  by_cases h0 : s.sp.toNat = c.stackDepth
  · exact .inl ⟨h0, by simp [h0, answer]⟩
  · by_cases h1 : s.sp.toNat < 16
    · exact .inr (.inl ⟨h0, h1, by simp [h0, s.push?_of_lt _ h1, succeed, answer]⟩)
    · exact .inr (.inr ⟨h0, by omega, by simp [h0, s.push?_of_ge _ (by omega)]⟩)

/-- `CALL` in its three cases. -/
theorem execCall_cases (nnn : Addr12) :
    (s.sp.toNat = stackDepth ∧ execCall nnn s = .next (s.returnStatus .stackOverflow)) ∨
    (∃ h : s.sp.toNat < 16, execCall nnn s =
      .next ((State.setPc { s with stack := s.stack.set s.sp.toNat s.pc h, sp := s.sp + 1 }
        (addrOperand nnn)).returnStatus .success)) ∨
    (16 < s.sp.toNat ∧ execCall nnn s = .fault .stackSlotAbsent) := by
  rcases execCallIn_cases s params nnn with h | ⟨_, h1, h⟩ | ⟨h0, h1, h⟩
  · exact .inl h
  · exact .inr (.inl ⟨h1, by rw [stackEntry_params] at h; exact h⟩)
  · exact .inr (.inr ⟨by simp at h0; omega, h⟩)

/-- A state fetches at most one instruction. -/
theorem Fetches.unique {s : State} {i j : Instr} (hi : Fetches s i) (hj : Fetches s j) : i = j := by
  have := hi.2.2; rw [hj.2.2] at this; cases this; rfl

/-- A step that fetches an instruction is its handler and the end of a step. -/
theorem step_of_fetches {s : State} {i : Instr} (h : Fetches s i) : step s = endStep (exec i s.advancePc) := by
  rcases step_cases s with ⟨h1, _⟩ | ⟨_, h1, _⟩ | ⟨_, _, ⟨e, h1⟩, _⟩ | ⟨j, hj, h1⟩
  · rw [h.1] at h1; cases h1
  · exact absurd h.2.1 (by omega)
  · rw [h.2.2] at h1; cases h1
  · rw [h.unique hj]; exact h1

/-- The four ways a handler ends, at any configuration (spec/60_exceptions.md R170 to R175): it succeeds with the
error record as it was, and then none of the other ways applies; it answers the error of its one capacity check and
writes nothing else; it issues a key wait; or it stops because `SP` names a slot that does not exist. -/
theorem execIn_ends (c : Config) (i : Instr) :
    (∃ u : State, execIn c i s = .next (u.returnStatus .success) ∧ u.errorSeen = s.errorSeen ∧
      (∀ nnn, i ≠ .sys nnn) ∧ (∀ x, i ≠ .ldVxK x) ∧ (i = .ret → s.sp.toNat ≠ 0) ∧
      (∀ nnn, i = .call nnn → s.sp.toNat ≠ c.stackDepth) ∧ (∀ x, i = .ldB x → s.i.toNat + 2 < c.memSize) ∧
      (∀ x, i = .ldMemVx x ∨ i = .ldVxMem x → s.i.toNat + x.toNat < c.memSize) ∧
      (∀ x y n, i = .drw x y n → n.toNat ≥ 1 → s.i.toNat + n.toNat - 1 < c.memSize)) ∨
    (∃ e : Status, e.isError = true ∧ execIn c i s = .next (s.returnStatus e) ∧
      ((∃ nnn, i = .sys nnn ∧ e = .unsupportedOpcode) ∨
       (i = .ret ∧ s.sp.toNat = 0 ∧ e = .stackUnderflow) ∨
       (∃ nnn, i = .call nnn ∧ s.sp.toNat = c.stackDepth ∧ e = .stackOverflow) ∨
       (∃ x, i = .ldB x ∧ c.memSize ≤ s.i.toNat + 2 ∧ e = .memRange) ∨
       (∃ x, (i = .ldMemVx x ∨ i = .ldVxMem x) ∧ c.memSize ≤ s.i.toNat + x.toNat ∧ e = .memRange) ∨
       (∃ x y n, i = .drw x y n ∧ n.toNat ≥ 1 ∧ c.memSize ≤ s.i.toNat + n.toNat - 1 ∧ e = .memRange))) ∨
    (∃ x, i = .ldVxK x ∧ execIn c i s = .next ((s.beginWait x).returnStatus .keyWait)) ∨
    (16 ≤ s.sp.toNat ∧ (i = .ret ∨ ∃ nnn, i = .call nnn) ∧ execIn c i s = .fault .stackSlotAbsent) := by
  cases i
  case sys nnn => exact .inr (.inl ⟨_, by rfl, rfl, .inl ⟨nnn, rfl, rfl⟩⟩)
  case ret =>
    rcases execRet_cases s with ⟨h, h'⟩ | ⟨h, h1, h'⟩ | ⟨h, h'⟩
    · exact .inr (.inl ⟨_, by rfl, h', .inr (.inl ⟨rfl, by simp [h], rfl⟩)⟩)
    · refine .inl ⟨_, h', rfl, ?_⟩; simp; intro h0; exact h (BitVec.eq_of_toNat_eq h0)
    · exact .inr (.inr (.inr ⟨by omega, .inl rfl, h'⟩))
  case call nnn =>
    rcases execCallIn_cases s c nnn with ⟨h, h'⟩ | ⟨h0, h1, h'⟩ | ⟨_, h, h'⟩
    · exact .inr (.inl ⟨_, by rfl, h', .inr (.inr (.inl ⟨nnn, rfl, h, rfl⟩))⟩)
    · refine .inl ⟨_, h', rfl, ?_⟩; simp; omega
    · exact .inr (.inr (.inr ⟨h, .inr ⟨nnn, rfl⟩, h'⟩))
  case ldVxK x => exact .inr (.inr (.inl ⟨x, rfl, rfl⟩))
  case ldB x =>
    cases h : s.indexInRange c 3
    · have h' := (indexInRange_eq_false s c _).1 h
      exact .inr (.inl ⟨.memRange, rfl, by simp [execIn, execLdBIn, h, answer],
        .inr (.inr (.inr (.inl ⟨x, rfl, by omega, rfl⟩)))⟩)
    · exact .inl ⟨s.setMem (s.mem.writeBytes (s.indexed 0) (decimalDigits (s.reg x))),
        by simp only [execIn, execLdBIn, h, if_true]; rfl, rfl, by
        have := (indexInRange_iff s c _).1 h
        simp; omega⟩
  case ldMemVx x =>
    cases h : s.indexInRange c (x.toNat + 1)
    · have h' := (indexInRange_eq_false s c _).1 h
      exact .inr (.inl ⟨.memRange, rfl, by simp [execIn, execLdMemVxIn, h, answer],
        .inr (.inr (.inr (.inr (.inl ⟨x, .inl rfl, by omega, rfl⟩))))⟩)
    · exact .inl ⟨s.setMem (s.mem.writeBytes (s.indexed 0) (s.firstRegs (x.toNat + 1))),
        by simp only [execIn, execLdMemVxIn, h, if_true]; rfl, rfl, by
        have := (indexInRange_iff s c _).1 h
        simp; omega⟩
  case ldVxMem x =>
    cases h : s.indexInRange c (x.toNat + 1)
    · have h' := (indexInRange_eq_false s c _).1 h
      exact .inr (.inl ⟨.memRange, rfl, by simp [execIn, execLdVxMemIn, h, answer],
        .inr (.inr (.inr (.inr (.inl ⟨x, .inr rfl, by omega, rfl⟩))))⟩)
    · exact .inl ⟨s.loadRegs _ _, by simp only [execIn, execLdVxMemIn, h, if_true]; rfl, by simp, by
        have := (indexInRange_iff s c _).1 h
        simp; omega⟩
  case drw x y n =>
    cases h : s.indexInRange c n.toNat
    · have h' := (indexInRange_eq_false s c _).1 h
      exact .inr (.inl ⟨.memRange, rfl, by simp [execIn, execDrwIn, h, answer],
        .inr (.inr (.inr (.inr (.inr ⟨x, y, n, rfl, by omega, by omega, rfl⟩))))⟩)
    · exact .inl ⟨s.drawSprite _ _ _ _ _, by simp only [execIn, execDrwIn, h, if_true]; rfl, rfl, by
        have := (indexInRange_iff s c _).1 h
        simp; omega⟩
  all_goals exact .inl ⟨_, by rfl, by first | rfl | simp, by simp⟩

/-- `execIn_ends` at the spec's configuration. -/
theorem exec_ends (i : Instr) :
    (∃ u : State, exec i s = .next (u.returnStatus .success) ∧ u.errorSeen = s.errorSeen ∧
      (∀ nnn, i ≠ .sys nnn) ∧ (∀ x, i ≠ .ldVxK x) ∧ (i = .ret → s.sp.toNat ≠ 0) ∧
      (∀ nnn, i = .call nnn → s.sp.toNat ≠ stackDepth) ∧ (∀ x, i = .ldB x → s.i.toNat + 2 < memSize) ∧
      (∀ x, i = .ldMemVx x ∨ i = .ldVxMem x → s.i.toNat + x.toNat < memSize) ∧
      (∀ x y n, i = .drw x y n → n.toNat ≥ 1 → s.i.toNat + n.toNat - 1 < memSize)) ∨
    (∃ e : Status, e.isError = true ∧ exec i s = .next (s.returnStatus e) ∧
      ((∃ nnn, i = .sys nnn ∧ e = .unsupportedOpcode) ∨
       (i = .ret ∧ s.sp.toNat = 0 ∧ e = .stackUnderflow) ∨
       (∃ nnn, i = .call nnn ∧ s.sp.toNat = stackDepth ∧ e = .stackOverflow) ∨
       (∃ x, i = .ldB x ∧ memSize ≤ s.i.toNat + 2 ∧ e = .memRange) ∨
       (∃ x, (i = .ldMemVx x ∨ i = .ldVxMem x) ∧ memSize ≤ s.i.toNat + x.toNat ∧ e = .memRange) ∨
       (∃ x y n, i = .drw x y n ∧ n.toNat ≥ 1 ∧ memSize ≤ s.i.toNat + n.toNat - 1 ∧ e = .memRange))) ∨
    (∃ x, i = .ldVxK x ∧ exec i s = .next ((s.beginWait x).returnStatus .keyWait)) ∨
    (16 < s.sp.toNat ∧ (i = .ret ∨ ∃ nnn, i = .call nnn) ∧ exec i s = .fault .stackSlotAbsent) := by
  have h := execIn_ends s params i
  rw [execIn_params] at h
  refine h.imp_right (Or.imp_right (Or.imp_right ?_))
  rintro ⟨h1, hi, h2⟩
  refine ⟨?_, hi, h2⟩
  rcases hi with rfl | ⟨nnn, rfl⟩
  · rcases execRet_cases s with ⟨_, h'⟩ | ⟨_, _, h'⟩ | ⟨h', _⟩
    · rw [exec, h'] at h2; cases h2
    · rw [exec, h'] at h2; cases h2
    · exact h'
  · rcases execCall_cases s nnn with ⟨_, h'⟩ | ⟨_, h'⟩ | ⟨h', _⟩
    · rw [exec, h'] at h2; cases h2
    · rw [exec, h'] at h2; cases h2
    · exact h'

end Sys2Proof.Machine
end

