-- ==== Sys2Proof/Laws/Run.lean ====
section
/-!
SUPPORT. The laws that the statements' own terms have: what only answering is, what a reset answers, what memory reads
as after a sequence of writes, where a pixel is placed, and that a step in a key wait is a poll.
-/
namespace Sys2Proof.Machine

variable (s : State)

/-- The class "error" of spec/60_exceptions.md R170 is every status but two. -/
theorem Status.isError_iff (c : Status) : c.isError = true ↔ c ≠ .success ∧ c ≠ .keyWait := by
  cases c <;> simp [Status.isError]

/-- A handler that only returns a status only answers it. -/
theorem answers_returnStatus (c : Status) : Answers (.next (s.returnStatus c)) s c := by
  refine ⟨_, rfl, rfl, by rw [← Status.isError_iff]; simp, fun p hp => ?_⟩
  cases p <;> first | exact absurd (by decide) hp | simp [samePart, State.slot?]

/-- While a key wait is on, a step is a poll. -/
theorem step_of_wait {s : State} (h : s.wait = true) : step s = waitPoll s := by
  simp [step, beginStep, h]

/-- A reset with an image is rejected, or it is the reset state, the draw counter kept, with the image in memory. -/
theorem hostResetIn_cases (c : Config) (image : List Byte) :
    (c.memSize - c.programBase < image.length ∧ hostResetIn c image s = .imageTooLarge) ∨
    (image.length ≤ c.memSize - c.programBase ∧ hostResetIn c image s = .loaded
      (State.setMem { resetIn c with draws := s.draws } ((resetMemory c).writeBytes c.programBase image))) := by
  simp only [hostResetIn, loadImage]
  split
  · exact .inl ⟨‹_›, rfl⟩
  · exact .inr ⟨by omega, rfl⟩

/-- `hostResetIn_cases` at the spec's configuration. -/
theorem hostReset_cases (image : List Byte) :
    (memSize - programBase < image.length ∧ hostReset image s = .imageTooLarge) ∨
    (image.length ≤ memSize - programBase ∧ hostReset image s = .loaded
      (State.setMem { State.reset with draws := s.draws } (Memory.writeBytes [] programBase image))) := by
  have h := hostResetIn_cases s params image
  rw [resetIn_params, resetMemory_params] at h
  exact h

/-- A sequence of writes within memory, as one function of the address. -/
theorem Memory.read_writeBytes {size : Nat} {m : Memory} (h : Memory.wfIn size m = true) {base : Nat}
    (bs : List Byte) (hb : base + bs.length ≤ size) (f : Nat → Byte) (hf : ∀ k (hk : k < bs.length), bs[k] = f k)
    (a : Nat) : (m.writeBytes base bs).read a = overlay m base bs.length f a := by
  unfold overlay
  split
  · have h1 := Memory.read_writeBytes_inside h bs hb (a - base) (by omega)
    rw [show base + (a - base) = a by omega] at h1
    rw [h1, hf]
  · exact Memory.read_writeBytes_outside _ _ _ _ (by omega)

/-- The digits of a register value by their places. -/
theorem getElem_decimalDigits (v : Byte) (k : Nat) (hk : k < (decimalDigits v).length) :
    (decimalDigits v)[k] = BitVec.ofNat 8 (v.toNat / 10 ^ (2 - k) % 10) := by
  have hv := v.isLt
  have h : k = 0 ∨ k = 1 ∨ k = 2 := by simp at hk; omega
  rcases h with rfl | rfl | rfl
  · simp only [decimalDigits, List.getElem_cons_zero]; congr 1; norm_num; omega
  · simp [decimalDigits]
  · simp [decimalDigits]

/-- The cell a pixel is placed on is the one it falls on. -/
theorem place_eq_some (policy : EdgePolicy) (px py : Nat) (cell : Col × Row) :
    place policy px py = some cell ↔ FallsOn policy px py cell.1 cell.2 := by
  have hx := cell.1.isLt
  have hy := cell.2.isLt
  cases policy <;> simp only [place, FallsOn]
  · constructor
    · intro h; cases h; exact ⟨rfl, rfl⟩
    · rintro ⟨h1, h2⟩; congr 1; ext <;> simp [h1, h2]
  · constructor
    · intro h
      split at h
      · cases h; simp; omega
      · cases h
    · rintro ⟨rfl, rfl⟩; rw [if_pos (by omega)]; congr 1; ext <;> simp

end Sys2Proof.Machine
end

