-- ==== Sys2Proof/Tests/Slice0.lean ====
section
/-!
SUPPORT. Tests and witnesses. Expected results come from the spec: words are written bit by bit from the formats of
spec/30_encoding.md R62 and the rows of its R66, single steps are the vectors of spec/95_test_vectors.md, named in
each comment. A witness shows a concrete state and operands that meet the hypotheses of the obligation it names.
-/
namespace Sys2Proof.Tests
open Sys2Proof.Machine

/-! ## Helpers -/

/-- The fresh state of spec/95_test_vectors.md with the word placed at `PC`. -/
def fresh (w : Word) : State := State.reset.placeWord w

/-- The state with some registers written. -/
def withRegs (rs : List (RegIx × Byte)) (s : State) : State := rs.foldl (fun t r => t.writeReg r.1 r.2) s

/-- The state with some bytes written from an address on. -/
def withBytes (a : Nat) (bs : List Byte) (s : State) : State := s.setMem (s.mem.writeBytes a bs)

/-- Does one step answer a next state with the status, and does that state pass the check? -/
def after (s : State) (c : Status) (check : State → Bool) : Bool :=
  match step s with
  | .next t => t.status == some c && check t
  | .fault _ => false
  | .refused _ => false

/-- Are the first cells on and the second ones off? -/
def cells (fb : Framebuffer) (on off : List (Col × Row)) : Bool :=
  (on.all fun c => pixel fb c.1 c.2) && off.all fun c => !pixel fb c.1 c.2

/-! ## Well-formedness -/

/-- 0x00E0 is no word of `SYS` (spec/30_encoding.md R64). -/
theorem test_wellFormed_refuses_sys_0E0 : Instr.wellFormed (.sys 0x0E0) = false := by decide

/-- 0x00EE is no word of `SYS` (spec/30_encoding.md R64). -/
theorem test_wellFormed_refuses_sys_0EE : Instr.wellFormed (.sys 0x0EE) = false := by decide

theorem test_wellFormed_accepts_sys_0E1 : Instr.wellFormed (.sys 0x0E1) = true := by decide
theorem test_wellFormed_accepts_drw : Instr.wellFormed (.drw 0xF 0xF 0x0) = true := by decide

/-! ## Decoding, one word per constructor, written bit by bit from the spec's encoding -/

theorem test_decode_cls : decode 0b0000_0000_1110_0000 = .ok (.cls) := by decide
theorem test_decode_ret : decode 0b0000_0000_1110_1110 = .ok (.ret) := by decide
theorem test_decode_sys : decode 0b0000_0001_1110_0000 = .ok (.sys 0x1E0) := by decide
theorem test_decode_jp : decode 0b0001_1010_1011_1100 = .ok (.jp 0xABC) := by decide
theorem test_decode_call : decode 0b0010_0011_0000_0000 = .ok (.call 0x300) := by decide
theorem test_decode_seImm : decode 0b0011_0001_0100_0010 = .ok (.seImm 1 0x42) := by decide
theorem test_decode_sneImm : decode 0b0100_0001_0100_0010 = .ok (.sneImm 1 0x42) := by decide
theorem test_decode_seReg : decode 0b0101_0001_0010_0000 = .ok (.seReg 1 2) := by decide
theorem test_decode_sneReg : decode 0b1001_0001_0010_0000 = .ok (.sneReg 1 2) := by decide
theorem test_decode_ldImm : decode 0b0110_1010_0111_1111 = .ok (.ldImm 0xA 0x7F) := by decide
theorem test_decode_addImm : decode 0b0111_1010_0010_0011 = .ok (.addImm 0xA 0x23) := by decide
theorem test_decode_ldReg : decode 0b1000_0011_1111_0000 = .ok (.ldReg 3 0xF) := by decide
theorem test_decode_orReg : decode 0b1000_0001_0010_0001 = .ok (.orReg 1 2) := by decide
theorem test_decode_andReg : decode 0b1000_0001_0010_0010 = .ok (.andReg 1 2) := by decide
theorem test_decode_xorReg : decode 0b1000_0001_0010_0011 = .ok (.xorReg 1 2) := by decide
theorem test_decode_addReg : decode 0b1000_0001_1010_0100 = .ok (.addReg 1 0xA) := by decide
theorem test_decode_sub : decode 0b1000_0001_0010_0101 = .ok (.sub 1 2) := by decide
theorem test_decode_shr : decode 0b1000_1010_1011_0110 = .ok (.shr 0xA 0xB) := by decide
theorem test_decode_subn : decode 0b1000_0001_0010_0111 = .ok (.subn 1 2) := by decide
theorem test_decode_shl : decode 0b1000_0011_0100_1110 = .ok (.shl 3 4) := by decide
theorem test_decode_ldI : decode 0b1010_0001_0010_0011 = .ok (.ldI 0x123) := by decide
theorem test_decode_jpV0 : decode 0b1011_0011_0100_0101 = .ok (.jpV0 0x345) := by decide
theorem test_decode_rnd : decode 0b1100_0101_0000_1111 = .ok (.rnd 5 0x0F) := by decide
theorem test_decode_drw : decode 0b1101_0001_0010_0101 = .ok (.drw 1 2 5) := by decide
theorem test_decode_skp : decode 0b1110_0010_1001_1110 = .ok (.skp 2) := by decide
theorem test_decode_sknp : decode 0b1110_0010_1010_0001 = .ok (.sknp 2) := by decide
theorem test_decode_ldVxDt : decode 0b1111_0001_0000_0111 = .ok (.ldVxDt 1) := by decide
theorem test_decode_ldVxK : decode 0b1111_0101_0000_1010 = .ok (.ldVxK 5) := by decide
theorem test_decode_ldDtVx : decode 0b1111_0000_0001_0101 = .ok (.ldDtVx 0) := by decide
theorem test_decode_ldStVx : decode 0b1111_0010_0001_1000 = .ok (.ldStVx 2) := by decide
theorem test_decode_addI : decode 0b1111_0100_0001_1110 = .ok (.addI 4) := by decide
theorem test_decode_ldF : decode 0b1111_0000_0010_1001 = .ok (.ldF 0) := by decide
theorem test_decode_ldB : decode 0b1111_0000_0011_0011 = .ok (.ldB 0) := by decide
theorem test_decode_ldMemVx : decode 0b1111_0010_0101_0101 = .ok (.ldMemVx 2) := by decide
theorem test_decode_ldVxMem : decode 0b1111_1111_0110_0101 = .ok (.ldVxMem 0xF) := by decide

/-- One word of each class of R67, at a field next to a legal one (E7, E9, E8, E12, E16). -/
theorem test_decode_rejects_each_class :
    decode 0x5001 = .error .family5 ∧ decode 0x8008 = .error .family8 ∧ decode 0x9AB5 = .error .family9 ∧
    decode 0xE09F = .error .familyE ∧ decode 0xF056 = .error .familyF := by decide

/-- The host's numbering: bit 0 is the least significant bit of the one word. -/
theorem test_decodeTableWord : decodeTableWord 16 0x8AB6 = some (.shr 0xA 0xB) := by decide

/-- The encoder writes the formats of R62: the word of P3's `DRW V1, V2, 5` and of T4's `8XY4`. -/
theorem test_encode : encode (.drw 1 2 5) = 0xD125 ∧ encode (.addReg 1 0xA) = 0x81A4 := by decide

/-- Two rows select a common word only if both are rows of family 0 (spec/30_encoding.md R64, R66). -/
theorem test_opcode_rows_overlap_in_family_0_only :
    opcodeTable.Pairwise (fun r q => r.pattern &&& q.mask ≠ q.pattern &&& r.mask ∨
      (r.pattern &&& 0xF000 = 0 ∧ q.pattern &&& 0xF000 = 0)) := by decide

/-! ## Single steps -/

/-- G1: the flag register keeps its value. -/
theorem test_cls :
    after ({ withRegs [(15, 7)] (fresh 0x00E0) with fb := toggle blankFb 5 3 }) .success
      (fun t => cells t.fb [] [(5, 3), (0, 0)] && t.dirty && t.reg 15 == 7 && t.pc == 0x202) = true := by decide

/-- F10: last in, first out. -/
theorem test_ret :
    after ({ fresh 0x00EE with sp := 2, stack := (Vector.replicate 16 0x0111).set 1 0x0222 }) .success
      (fun t => t.pc == 0x222 && t.sp == 1) = true := by decide

/-- F9, D10v: no slot occupied, and the timers do not count. -/
theorem test_ret_underflow :
    after ({ fresh 0x00EE with dt := 3 }) .stackUnderflow
      (fun t => t.pc == 0x202 && t.sp == 0 && t.dt == 3 && t.errorSeen) = true := by decide

/-- S9, F15. -/
theorem test_sys :
    after ({ fresh 0x0123 with dt := 5, st := 1 }) .unsupportedOpcode
      (fun t => t.pc == 0x202 && t.dt == 5 && t.st == 1) = true := by decide

/-- F1. -/
theorem test_jp :
    after (fresh 0x1ABC) .success
      (fun t => t.pc == 0xABC) = true := by decide

/-- F4: an odd target is legal. -/
theorem test_jp_odd :
    after (fresh 0x1301) .success
      (fun t => t.pc == 0x301) = true := by decide

/-- F6. -/
theorem test_call_last_slot :
    after ({ fresh 0x2300 with sp := 15 }) .success
      (fun t => t.slot? 15 == some 0x202 && t.sp == 16 && t.pc == 0x300) = true := by decide

/-- F7. -/
theorem test_call_overflow :
    after ({ fresh 0x2300 with sp := 16 }) .stackOverflow
      (fun t => t.pc == 0x202 && t.sp == 16 && t.slot? 15 == some 0) = true := by decide

/-- K11: VF is compared like any register. -/
theorem test_seImm :
    after (withRegs [(15, 1)] (fresh 0x3F01)) .success
      (fun t => t.pc == 0x204) = true := by decide

/-- K2. -/
theorem test_seImm_not :
    after (withRegs [(1, 0x43)] (fresh 0x3142)) .success
      (fun t => t.pc == 0x202) = true := by decide

/-- K4. -/
theorem test_sneImm :
    after (withRegs [(1, 0x43)] (fresh 0x4142)) .success
      (fun t => t.pc == 0x204) = true := by decide

/-- K3. -/
theorem test_sneImm_not :
    after (withRegs [(1, 0x42)] (fresh 0x4142)) .success
      (fun t => t.pc == 0x202) = true := by decide

/-- K7: X = Y always skips. -/
theorem test_seReg :
    after (fresh 0x5330) .success
      (fun t => t.pc == 0x204) = true := by decide

/-- K6. -/
theorem test_seReg_not :
    after (withRegs [(1, 9), (2, 10)] (fresh 0x5120)) .success
      (fun t => t.pc == 0x202) = true := by decide

/-- K8. -/
theorem test_sneReg :
    after (withRegs [(1, 9), (2, 10)] (fresh 0x9120)) .success
      (fun t => t.pc == 0x204) = true := by decide

/-- K10: X = Y never skips. -/
theorem test_sneReg_not :
    after (fresh 0x9330) .success
      (fun t => t.pc == 0x202) = true := by decide

/-- A2: an ordinary write to register 15. -/
theorem test_ldImm :
    after (fresh 0x6FFF) .success
      (fun t => t.reg 15 == 0xFF) = true := by decide

/-- T3 (b): no flag on wrap-around. -/
theorem test_addImm :
    after (withRegs [(10, 0xFF), (15, 0x33)] (fresh 0x7A02)) .success
      (fun t => t.reg 10 == 1 && t.reg 15 == 0x33) = true := by decide

/-- A6. -/
theorem test_ldReg :
    after (withRegs [(2, 0x99)] (fresh 0x8120)) .success
      (fun t => t.reg 1 == 0x99) = true := by decide

/-- A8. -/
theorem test_orReg :
    after (withRegs [(1, 0xF0), (2, 0x0F), (15, 0x55)] (fresh 0x8121)) .success
      (fun t => t.reg 1 == 0xFF && t.reg 15 == 0x55) = true := by decide

/-- A9. -/
theorem test_andReg :
    after (withRegs [(1, 0xF3), (2, 0x3C), (15, 0x55)] (fresh 0x8122)) .success
      (fun t => t.reg 1 == 0x30 && t.reg 15 == 0x55) = true := by decide

/-- A10. -/
theorem test_xorReg :
    after (withRegs [(1, 0xFF), (2, 0x0F), (15, 0x55)] (fresh 0x8123)) .success
      (fun t => t.reg 1 == 0xF0 && t.reg 15 == 0x55) = true := by decide

/-- A16. -/
theorem test_addReg_carry :
    after (withRegs [(1, 0xC8), (2, 0x64)] (fresh 0x8124)) .success
      (fun t => t.reg 1 == 0x2C && t.reg 15 == 1) = true := by decide

/-- A14: the sum 255 is no carry. -/
theorem test_addReg_255 :
    after (withRegs [(1, 0x80), (2, 0x7F), (15, 1)] (fresh 0x8124)) .success
      (fun t => t.reg 1 == 0xFF && t.reg 15 == 0) = true := by decide

/-- A20: equality is no borrow. -/
theorem test_sub_equal :
    after (withRegs [(1, 0x33), (2, 0x33)] (fresh 0x8125)) .success
      (fun t => t.reg 1 == 0 && t.reg 15 == 1) = true := by decide

/-- A19. -/
theorem test_sub_borrow :
    after (withRegs [(1, 0x0A), (2, 0x0F)] (fresh 0x8125)) .success
      (fun t => t.reg 1 == 0xFB && t.reg 15 == 0) = true := by decide

/-- A26: Y is unused. -/
theorem test_shr :
    after (withRegs [(3, 5), (4, 0xEE)] (fresh 0x8346)) .success
      (fun t => t.reg 3 == 2 && t.reg 15 == 1 && t.reg 4 == 0xEE) = true := by decide

/-- A22. -/
theorem test_subn :
    after (withRegs [(1, 0x0A), (2, 0x0F)] (fresh 0x8127)) .success
      (fun t => t.reg 1 == 5 && t.reg 15 == 1) = true := by decide

/-- A25. -/
theorem test_subn_borrow :
    after (withRegs [(1, 0xFF)] (fresh 0x8127)) .success
      (fun t => t.reg 1 == 1 && t.reg 15 == 0) = true := by decide

/-- A29. -/
theorem test_shl :
    after (withRegs [(3, 0x81), (4, 0xEE)] (fresh 0x834E)) .success
      (fun t => t.reg 3 == 2 && t.reg 15 == 1 && t.reg 4 == 0xEE) = true := by decide

/-- A44: the result stands over the flag. -/
theorem test_shl_into_flag :
    after (withRegs [(15, 0x81)] (fresh 0x8FFE)) .success
      (fun t => t.reg 15 == 2) = true := by decide

/-- A43: the result stands over the flag. -/
theorem test_shr_into_flag :
    after (withRegs [(15, 3)] (fresh 0x8F06)) .success
      (fun t => t.reg 15 == 1) = true := by decide

/-- M2. -/
theorem test_ldI :
    after ({ fresh 0xA000 with i := 0xFFFF }) .success
      (fun t => t.i == 0) = true := by decide

/-- F12: the sum leaves the 12-bit range. -/
theorem test_jpV0 :
    after (withRegs [(0, 0xFF)] (fresh 0xBFFF)) .success
      (fun t => t.pc == 0x10FE && t.reg 15 == 0) = true := by decide

/-- F13: the X position is part of NNN. -/
theorem test_jpV0_field :
    after (withRegs [(3, 0x77)] (fresh 0xB345)) .success
      (fun t => t.pc == 0x345) = true := by decide

/-- M5. -/
theorem test_addI :
    after ({ withRegs [(4, 1)] (fresh 0xF41E) with i := 0x0FFF }) .success
      (fun t => t.i == 0x1000 && t.reg 15 == 1) = true := by decide

/-- M9. -/
theorem test_addI_flag_as_operand :
    after ({ withRegs [(15, 2)] (fresh 0xFF1E) with i := 0x0100 }) .success
      (fun t => t.i == 0x102 && t.reg 15 == 0) = true := by decide

/-- M10. -/
theorem test_ldF :
    after (withRegs [(0, 0x0A)] (fresh 0xF029)) .success
      (fun t => t.i == 0x32) = true := by decide

/-- M14. -/
theorem test_ldF_not_masked :
    after (withRegs [(0, 0xFF)] (fresh 0xF029)) .success
      (fun t => t.i == 0x4FB) = true := by decide

/-- M15. -/
theorem test_ldB :
    after ({ withRegs [(0, 0xC9)] (fresh 0xF033) with i := 0x300 }) .success
      (fun t => t.mem.readBytes 0x300 4 == [2, 0, 1, 0] && t.i == 0x300) = true := by decide

/-- M18. -/
theorem test_ldB_range :
    after ({ withRegs [(0, 0x7B)] (fresh 0xF033) with i := 0xFFE }) .memRange
      (fun t => t.pc == 0x202 && t.mem.readBytes 0xFFE 2 == [0, 0]) = true := by decide

/-- M20. -/
theorem test_ldMemVx :
    after ({ withRegs [(0, 0x11), (1, 0x22), (2, 0x33), (3, 0x44)] (fresh 0xF255) with i := 0x400 }) .success
      (fun t => t.mem.readBytes 0x400 4 == [0x11, 0x22, 0x33, 0] && t.i == 0x400) = true := by decide

/-- M23: no partial store. -/
theorem test_ldMemVx_range :
    after ({ withRegs [(0, 0x11)] (fresh 0xFF55) with i := 0xFF1 }) .memRange
      (fun t => t.mem.read 0xFF1 == 0 && t.pc == 0x202) = true := by decide

/-- M26: reads the font. -/
theorem test_ldVxMem :
    after (fresh 0xF465) .success
      (fun t => t.firstRegs 6 == [0xF0, 0x90, 0x90, 0x90, 0xF0, 0]) = true := by decide

/-- M27. -/
theorem test_ldVxMem_range :
    after ({ withRegs [(0, 0x11)] (fresh 0xFF65) with i := 0xFF1 }) .memRange
      (fun t => t.reg 0 == 0x11 && t.pc == 0x202) = true := by decide

/-- G10. -/
theorem test_drw_wraps :
    after ({ withRegs [(0, 60), (1, 31)] (withBytes 0x300 [0xFF, 0x81] (fresh 0xD012)) with i := 0x300 }) .success
      (fun t => cells t.fb [(60, 31), (63, 31), (0, 31), (3, 31), (60, 0), (3, 0)]
        [(59, 31), (4, 31), (61, 0), (0, 0), (2, 0)] && t.reg 15 == 0) = true := by decide

/-- G4. -/
theorem test_drw_collides :
    after ({ withBytes 0x300 [0x80, 0xC0] (fresh 0xD002) with i := 0x300, fb := toggle blankFb 0 0 }) .success
      (fun t => cells t.fb [(0, 1), (1, 1)] [(0, 0), (1, 0), (2, 1)] && t.reg 15 == 1 && t.dirty) = true := by decide

/-- Y5: the low four bits name the key. -/
theorem test_skp :
    after ({ withRegs [(2, 0x1F)] (fresh 0xE29E) with keys := 0x8000 }) .success
      (fun t => t.pc == 0x204) = true := by decide

/-- Y2. -/
theorem test_skp_not :
    after ({ withRegs [(2, 7)] (fresh 0xE29E) with keys := 0xFF7F }) .success
      (fun t => t.pc == 0x202) = true := by decide

/-- Y4. -/
theorem test_sknp :
    after (withRegs [(2, 7)] (fresh 0xE2A1)) .success
      (fun t => t.pc == 0x204) = true := by decide

/-- Y7. -/
theorem test_sknp_not :
    after ({ withRegs [(2, 15)] (fresh 0xE2A1) with keys := 0x8000 }) .success
      (fun t => t.pc == 0x202) = true := by decide

/-- W2, step 1. -/
theorem test_ldVxK_issue :
    after ({ fresh 0xF50A with keys := 8, dt := 9 }) .keyWait
      (fun t => t.wait && t.waitX == 5 && t.keyPrev == 8 && t.dt == 9 && t.pc == 0x202) = true := by decide

/-- W1, step 3: the lowest of keys 7 and 9. -/
theorem test_ldVxK_poll :
    after ({ State.reset with wait := true, waitX := 5, keys := 0x0280, dt := 9 }) .success
      (fun t => t.reg 5 == 7 && !t.wait && t.dt == 8 && t.pc == 0x200) = true := by decide

/-- D1v. -/
theorem test_ldVxDt :
    after ({ fresh 0xF107 with dt := 2 }) .success
      (fun t => t.reg 1 == 2 && t.dt == 1) = true := by decide

/-- D3v. -/
theorem test_ldDtVx :
    after (withRegs [(0, 3)] (fresh 0xF015)) .success
      (fun t => t.dt == 2) = true := by decide

/-- D4v. -/
theorem test_ldDtVx_zero :
    after ({ fresh 0xF015 with dt := 9 }) .success
      (fun t => t.dt == 0) = true := by decide

/-- D7v. -/
theorem test_ldStVx :
    after ({ withRegs [(2, 0x10)] (fresh 0xF218) with dt := 4 }) .success
      (fun t => t.st == 0x0F && t.dt == 3) = true := by decide

/-- S4: the last word of memory. -/
theorem test_fetch_at_the_edge :
    after ({ withBytes 0xFFE [0x60, 0x01] State.reset with pc := 0xFFE }) .success
      (fun t => t.reg 0 == 1 && t.pc == 0x1000) = true := by decide

/-- S6. -/
theorem test_fetch_beyond :
    after ({ withBytes 0xFFF [0x60] State.reset with pc := 0xFFF }) .memRange
      (fun t => t.pc == 0xFFF) = true := by decide

/-- S3. -/
theorem test_fetch_odd :
    after ({ withBytes 0x201 [0x6A, 0x55] State.reset with pc := 0x201 }) .success
      (fun t => t.reg 10 == 0x55 && t.pc == 0x203) = true := by decide

/-- D9v. -/
theorem test_invalid_word :
    after ({ fresh 0xFFFF with dt := 3, st := 3 }) .invalidOpcode
      (fun t => t.pc == 0x202 && t.dt == 3 && t.st == 3) = true := by decide

/-- A33: whatever byte is drawn, the mask 0 leaves 0. -/
theorem test_rnd_masked_by_zero (s : State) : ∃ t, exec (.rnd 1 0) s = .next t ∧ t.reg 1 = 0 :=
  ⟨_, rfl, by simp⟩

/-! ## Witnesses: hypotheses of the obligations met together, per clause and at the boundaries -/

/-- A word at `PC`, fetched. -/
theorem witness_fetches : Fetches (fresh 0x6001) (.ldImm 0 1) := ⟨rfl, by decide, rfl⟩

theorem witness_DecodeOfEncodeIsIdentity : Instr.wellFormed (.sys 0xFFF) = true ∧ Instr.wellFormed .cls = true := by
  decide

theorem witness_EncodeOfDecodeIsIdentity : decode 0x8AB6 = .ok (.shr 0xA 0xB) := by decide

/-- A word for which the decoder answers an instruction, and rows the word selects: both rows of family 0. -/
theorem witness_DecodeFollowsTheOpcodeMap :
    decode 0x00E0 = .ok .cls ∧ (opcodeTable.filter fun r => r.selects 0x00E0).map (·.mnemonic) = ["CLS", "SYS"] := by
  decide

/-- The handler succeeds. -/
theorem witness_StepRunsTheDecodedInstruction_success :
    Fetches (fresh 0x6001) (.ldImm 0 1) ∧
    ∃ u, exec (.ldImm 0 1) { fresh 0x6001 with pc := (fresh 0x6001).pc + 2 } = .next u ∧ u.status = some .success :=
  ⟨witness_fetches, _, rfl, rfl⟩

/-- The handler answers another status. -/
theorem witness_StepRunsTheDecodedInstruction_error :
    Fetches (fresh 0x0123) (.sys 0x123) ∧
    ∃ u, exec (.sys 0x123) { fresh 0x0123 with pc := (fresh 0x0123).pc + 2 } = .next u ∧ u.status ≠ some .success :=
  ⟨⟨rfl, by decide, rfl⟩, _, rfl, by decide⟩

/-- The handler stops: a return with `SP` at 18. -/
theorem witness_StepRunsTheDecodedInstruction_fault :
    Fetches { fresh 0x00EE with sp := 18 } .ret ∧
    exec .ret { fresh 0x00EE with sp := 18, pc := 0x202 } = .fault .stackSlotAbsent :=
  ⟨⟨rfl, by decide, rfl⟩, rfl⟩

/-- A step with an error, a step that sets `DT`, one that sets `ST`, and one that sets neither. -/
theorem witness_TimersCountSuccessfulSteps :
    after (fresh 0x0123) .unsupportedOpcode (fun _ => true) = true ∧
    after (fresh 0xF015) .success (fun _ => true) = true ∧ Fetches (fresh 0xF015) (.ldDtVx 0) ∧
    after (fresh 0xF218) .success (fun _ => true) = true ∧ Fetches (fresh 0xF218) (.ldStVx 2) ∧
    after (fresh 0x6001) .success (fun _ => true) = true ∧
    (∀ x, ¬ Fetches (fresh 0x6001) (.ldDtVx x) ∧ ¬ Fetches (fresh 0x6001) (.ldStVx x)) :=
  ⟨by decide, by decide, ⟨rfl, by decide, rfl⟩, by decide, ⟨rfl, by decide, rfl⟩, by decide,
    fun _ => ⟨fun h => (nomatch h.unique witness_fetches), fun h => (nomatch h.unique witness_fetches)⟩⟩

/-- The first address where the fetch fails, and the last. -/
theorem witness_FetchBeyondMemoryChangesNothing :
    State.reset.wait = false ∧ memSize ≤ ({ State.reset with pc := 0xFFF } : State).pc.toNat + 1 ∧
    memSize ≤ ({ State.reset with pc := 0xFFFF } : State).pc.toNat + 1 := by decide

/-- The last address where the fetch succeeds. -/
theorem witness_InvalidWordChangesOnlyPc :
    let s : State := { withBytes 0xFFE [0x50, 0x01] State.reset with pc := 0xFFE }
    s.wait = false ∧ s.pc.toNat + 1 < memSize ∧ decode s.fetchWord = .error .family5 := by decide

/-- A cancelled wait, a failing fetch at 0xFFF, and an error of a handler at 0xFFE. -/
theorem witness_ErrorsLeaveTheStateUnchanged :
    after { State.reset with wait := true, cancel := true } .waitCancelled (fun _ => true) = true ∧
    after { State.reset with pc := 0xFFF } .memRange (fun _ => true) = true ∧
    after { State.reset with pc := 0xFFE } .unsupportedOpcode (fun _ => true) = true := by decide

/-- Every status is answered by some step. -/
theorem witness_EachStatusHasItsCause :
    after (fresh 0x0123) .unsupportedOpcode (fun _ => true) = true ∧
    after (fresh 0x5001) .invalidOpcode (fun _ => true) = true ∧
    after { fresh 0x2300 with sp := 16 } .stackOverflow (fun _ => true) = true ∧
    after (fresh 0x00EE) .stackUnderflow (fun _ => true) = true ∧
    after { fresh 0xF033 with i := 0xFFE } .memRange (fun _ => true) = true ∧
    after { fresh 0xF155 with i := 0xFFF } .memRange (fun _ => true) = true ∧
    after { fresh 0xD002 with i := 0xFFF } .memRange (fun _ => true) = true ∧
    after (fresh 0xF50A) .keyWait (fun _ => true) = true ∧
    after { State.reset with wait := true } .keyWait (fun _ => true) = true ∧
    after { State.reset with wait := true, cancel := true } .waitCancelled (fun _ => true) = true ∧
    after (fresh 0x6001) .success (fun _ => true) = true := by decide

/-- `SP` at its bounds, memory empty and not. -/
theorem witness_StepsAlwaysAnswer :
    StateOk State.reset ∧ StateOk { fresh 0x2300 with sp := 16 } := by decide

theorem witness_ErrorRecordIsSticky :
    after { fresh 0x6001 with errorSeen := true } .success (fun _ => true) = true ∧
    after (fresh 0x0123) .unsupportedOpcode (fun _ => true) = true := by decide

/-- A call that fills the last slot. -/
theorem witness_StepKeepsTheStateOk :
    StateOk { fresh 0x2300 with sp := 15 } ∧
    after { fresh 0x2300 with sp := 15 } .success (fun _ => true) = true := by decide

theorem witness_ResetStatesAreOk : ∃ t, hostReset [0x12, 0x00] State.reset = .loaded t := ⟨_, rfl⟩

/-- `PC` at its bound, which is even. -/
theorem witness_MovesKeepTheStateOk :
    StateOk { State.reset with pc := 0x10FE } ∧ PcBounded { State.reset with pc := 0x10FE } ∧
    PcEven { State.reset with pc := 0x10FE } := by decide

/-- The indexed jump that reaches the bound. -/
theorem witness_PcStaysBounded :
    PcBounded (withRegs [(0, 0xFF)] (fresh 0xBFFF)) ∧
    after (withRegs [(0, 0xFF)] (fresh 0xBFFF)) .success (fun t => t.pc == 0x10FE) = true := by decide

/-- A jump, a call and an indexed jump to even targets. -/
theorem witness_PcStaysEvenWithEvenTargets :
    PcEven (fresh 0x1ABC) ∧ PcEven (fresh 0x2300) ∧ PcEven (withRegs [(0, 1)] (fresh 0xB301)) ∧
    Fetches (fresh 0x1ABC) (.jp 0xABC) ∧ Fetches (fresh 0x2300) (.call 0x300) ∧
    Fetches (withRegs [(0, 1)] (fresh 0xB301)) (.jpV0 0x301) ∧
    (0x301 + ((withRegs [(0, 1)] (fresh 0xB301)).reg 0).toNat) % 2 = 0 :=
  ⟨by decide, by decide, by decide, ⟨rfl, by decide, rfl⟩, ⟨rfl, by decide, rfl⟩, ⟨rfl, by decide, rfl⟩, by decide⟩

/-- `6001` is none of the instructions that the clauses exclude, and it does not write `V1`; a completing poll into
`V5` leaves `V4`. -/
theorem witness_OnlyTheNamedInstructionsWrite :
    after (fresh 0x6001) .success (fun _ => true) = true ∧ (fresh 0x6001).wait = false ∧
    (∀ i, i ≠ .ldImm 0 1 → ¬ Fetches (fresh 0x6001) i) ∧
    (∀ i, Fetches (fresh 0x6001) i → writesReg i 1 = false) ∧
    after { State.reset with wait := true, waitX := 5, keys := 1 } .success (fun _ => true) = true ∧
    (4 : RegIx) ≠ ({ State.reset with wait := true, waitX := 5, keys := 1 } : State).waitX :=
  ⟨by decide, rfl, fun i h hf => h (hf.unique witness_fetches),
    fun i hf => by rw [hf.unique witness_fetches]; rfl, by decide, by decide⟩

theorem witness_OnlyKeyInstructionsReadKeys (x : RegIx) :
    Instr.drw 0 0 1 ≠ .skp x ∧ Instr.drw 0 0 1 ≠ .sknp x ∧ Instr.drw 0 0 1 ≠ .ldVxK x := by simp

theorem witness_SoundTimerAndDirtyAreNeverRead :
    after { fresh 0xD015 with st := 1 } .success (fun _ => true) = true := by decide

/-- The fourth step of program P6, a store over the word after it; and digits stored so that the next word's low byte
is the first of them. -/
theorem witness_StoreIsSeenByTheNextFetch :
    let s : State := { withRegs [(0, 0x62), (1, 0x77)] (fresh 0xF155) with i := 0x202 }
    let d : State := { withRegs [(1, 123)] (fresh 0xF133) with i := 0x203 }
    (s.mem.wf = true ∧ Fetches s (.ldMemVx 1) ∧ after s .success (fun t => t.fetchWord == 0x6277) = true) ∧
    (d.mem.wf = true ∧ Fetches d (.ldB 1) ∧ after d .success (fun t => t.fetchWord == 0x0001) = true) :=
  ⟨⟨by decide, ⟨rfl, by decide, rfl⟩, by decide⟩, by decide, ⟨rfl, by decide, rfl⟩, by decide⟩

theorem witness_PlacedInstructionIsFetched :
    StateOk { State.reset with pc := 0xFFF } ∧ StateOk State.reset ∧ Instr.wellFormed (.drw 1 2 5) = true := by decide

/-- The longest image that fits and the shortest that does not. -/
theorem witness_ImageIsLoadedVerbatim :
    (List.replicate 3584 (0x11 : Byte)).length ≤ 3584 ∧ (List.replicate 3585 (0x11 : Byte)).length > 3584 := by
  simp only [List.length_replicate]; omega

theorem witness_SysAnswersUnsupportedOpcode :
    Fetches (fresh 0x0FFF) (.sys 0xFFF) ∧
    opField 0x00E1 = 0 ∧ (0x00E1 : Word) ≠ 0x00E0 ∧ (0x00E1 : Word) ≠ 0x00EE :=
  ⟨⟨rfl, by decide, rfl⟩, by decide⟩

/-- The bounds of `SP` in the clauses of the return: 0, 1, 16 and 17. -/
theorem witness_ReturnPopsTheTopSlot :
    State.reset.sp.toNat = 0 ∧
    (∀ k ∈ ([1, 16] : List (BitVec 5)), 1 ≤ ({ State.reset with sp := k } : State).sp.toNat ∧
      ({ State.reset with sp := k } : State).sp.toNat ≤ 16) ∧
    16 < ({ State.reset with sp := 17 } : State).sp.toNat := by decide

/-- The bounds of `SP` in the clauses of the call: 0, 15, 16 and 17. -/
theorem witness_CallPushesTheReturnAddress :
    ({ State.reset with sp := 16 } : State).sp.toNat = 16 ∧
    (∀ k ∈ ([0, 15] : List (BitVec 5)), ({ State.reset with sp := k } : State).sp.toNat < 16) ∧
    16 < ({ State.reset with sp := 17 } : State).sp.toNat := by decide

/-- T7, with the call's slot the last one. -/
theorem witness_CallThenReturnComesBack :
    let s : State := { withBytes 0x204 [0x00, 0xEE] (fresh 0x2204) with sp := 15 }
    s.sp.toNat < 16 ∧ Fetches s (.call 0x204) ∧ ∃ u, step s = .next u ∧ Fetches u .ret :=
  ⟨by decide, ⟨rfl, by decide, rfl⟩, _, rfl, rfl, by decide, rfl⟩

/-- The clauses that except register 15 as a destination. -/
theorem witness_flag_clauses : (0 : RegIx) ≠ 15 ∧ (14 : RegIx) ≠ 15 := by decide

/-- The last `I` that fits three digits and the first that does not. -/
theorem witness_DecimalDigitsAreStored :
    State.reset.mem.wf = true ∧ ({ State.reset with i := 0xFFD } : State).i.toNat + 2 ≤ 4095 ∧
    ({ State.reset with i := 0xFFE } : State).i.toNat + 2 > 4095 := by decide

/-- The bounds of M22 and M23, for the store and for the load. -/
theorem witness_StoreMultipleStoresV0ToVx :
    State.reset.mem.wf = true ∧ ({ State.reset with i := 0xFF0 } : State).i.toNat + (15 : RegIx).toNat ≤ 4095 ∧
    ({ State.reset with i := 0xFF1 } : State).i.toNat + (15 : RegIx).toNat > 4095 := by decide

theorem witness_LoadMultipleLoadsV0ToVx :
    ({ State.reset with i := 0xFFF } : State).i.toNat + (0 : RegIx).toNat ≤ 4095 ∧
    ({ State.reset with i := 0x1000 } : State).i.toNat + (0 : RegIx).toNat > 4095 := by decide

/-- T10 with `K = 2`: the state after the store with other registers. -/
theorem witness_StoreThenLoadGivesBackTheRegisters :
    let s : State := { withRegs [(0, 0x11), (1, 0x22), (2, 0x33)] State.reset with i := 0x400 }
    s.mem.wf = true ∧ s.i.toNat + (2 : RegIx).toNat ≤ 4095 ∧
    ∃ t, exec (.ldMemVx 2) s = .next t ∧ (withRegs [(0, 0), (1, 0), (3, 0x99)] t).i = s.i ∧
      ∀ j, j ≤ (2 : RegIx).toNat → (withRegs [(0, 0), (1, 0), (3, 0x99)] t).mem.read (s.indexed j) =
        t.mem.read (s.indexed j) :=
  ⟨by decide, by decide, _, rfl, rfl, fun _ _ => rfl⟩

/-- No byte read, the last `I` that fits five rows, and the first that does not. -/
theorem witness_DrawXorsThePlacedSprite :
    ((0 : Nibble).toNat = 0 ∨ ({ State.reset with i := 0xFFFF } : State).i.toNat + 0 - 1 ≤ 4095) ∧
    ({ State.reset with i := 0xFFB } : State).i.toNat + (5 : Nibble).toNat - 1 ≤ 4095 ∧
    (5 : Nibble).toNat ≥ 1 ∧ ({ State.reset with i := 0xFFC } : State).i.toNat + (5 : Nibble).toNat - 1 > 4095 := by
  decide

/-- The glyph "0" drawn twice at the origin (G3, G12); the second draw starts where the first ended. -/
theorem witness_DrawingTwiceRestoresTheFramebuffer :
    ∃ t w, exec (.drw 0 1 5) State.reset = .next t ∧ t.status = some .success ∧ t.fb = t.fb ∧
      t.i = State.reset.i ∧ t.reg 0 = State.reset.reg 0 ∧ t.reg 1 = State.reset.reg 1 ∧
      (∀ r < (5 : Nibble).toNat, t.mem.read (State.reset.indexed r) = State.reset.mem.read (State.reset.indexed r)) ∧
      exec (.drw 0 1 5) t = .next w :=
  ⟨_, _, rfl, rfl, rfl, rfl, rfl, rfl, fun _ _ => rfl, rfl⟩

/-- The same two draws meet the hypotheses of the statement that is expected to fail. -/
theorem witness_SecondEqualDrawAlwaysCollides :
    (∃ t w, exec (.drw 0 1 5) State.reset = .next t ∧ t.status = some .success ∧ t.fb = t.fb ∧
      t.i = State.reset.i ∧ t.reg 0 = State.reset.reg 0 ∧ t.reg 1 = State.reset.reg 1 ∧
      (∀ r < (5 : Nibble).toNat, t.mem.read (State.reset.indexed r) = State.reset.mem.read (State.reset.indexed r)) ∧
      exec (.drw 0 1 5) t = .next w) ∧
    ∃ r < (5 : Nibble).toNat, State.reset.mem.read (State.reset.indexed r) ≠ 0 :=
  ⟨witness_DrawingTwiceRestoresTheFramebuffer, 0, by decide, by decide⟩

/-- W1 and W3: the press of keys 7 and 9 with none held, and of key 0 with key 3 held. -/
theorem witness_KeyWaitIssuesAndCompletesOnAPress :
    State.reset.cancel = false ∧
    ((0x0280 : Word).getLsbD 7 = true ∧ State.reset.keys.getLsbD 7 = false ∧
      ∀ j < 7, (0x0280 : Word).getLsbD j = false ∨ State.reset.keys.getLsbD j = true) ∧
    ((0x0009 : Word).getLsbD 0 = true ∧ ({ State.reset with keys := 8 } : State).keys.getLsbD 0 = false ∧
      ∀ j < 0, (0x0009 : Word).getLsbD j = false ∨ ({ State.reset with keys := 8 } : State).keys.getLsbD j = true) := by
  decide

/-- A cancelled poll, a poll with a key held but not newly, and a poll with a new one. -/
theorem witness_PollStepWaitsCancelsOrCompletes :
    let s : State := { State.reset with wait := true, keyPrev := 8 }
    (s.wait = true ∧ ({ s with cancel := true } : State).cancel = true) ∧
    (s.cancel = false ∧ ({ s with keys := 8 } : State).keys &&& ~~~s.keyPrev = 0) ∧
    (s.cancel = false ∧ ({ s with keys := 9 } : State).keys &&& ~~~s.keyPrev ≠ 0) := by decide

theorem witness_ReadDelayTimerBeforeCountdown : Fetches { fresh 0xF107 with dt := 2 } (.ldVxDt 1) :=
  ⟨rfl, by decide, rfl⟩

theorem witness_SetTimersThenCount : Fetches (fresh 0xF015) (.ldDtVx 0) ∧ Fetches (fresh 0xF218) (.ldStVx 2) :=
  ⟨⟨rfl, by decide, rfl⟩, ⟨rfl, by decide, rfl⟩⟩

/-- A failing fetch and a failing handler, for the statement that is expected to fail. -/
theorem witness_PcTellsFetchFailuresApart :
    (({ State.reset with pc := 0x1000 } : State).wait = false ∧ memSize ≤ (0x1000 : Word).toNat + 1 ∧
      after { State.reset with pc := 0x1000 } .memRange (fun _ => true) = true) ∧
    ((fresh 0xF033).wait = false ∧ (fresh 0xF033).pc.toNat + 1 < memSize ∧
      after { fresh 0xF033 with i := 0xFFE } .memRange (fun _ => true) = true) := by decide

/-- A run that polls with no key held, presses key 0, and completes; then it releases and presses again. -/
def pressing : Schedule := fun n =>
  [.step, .move (.keys 1), .step, .move (.keys 0), .step, .move (.keys 1), .step].getD n (.move .clearDirty)

/-- A key wait that stands before a jump to itself. -/
def waitingOnJump : State := { fresh 0x1200 with wait := true, waitX := 5 }

/-- From its fourth event on, the run is in no key wait. -/
theorem pressing_ends_the_wait (d : Nat) :
    (stateAt pressing waitingOnJump (3 + d)).map (·.wait) = some false := by
  have small : ∀ n ∈ [3, 4, 5, 6, 7], (stateAt pressing waitingOnJump n).map (·.wait) = some false := by decide
  induction d with
  | zero => exact small 3 (by decide)
  | succ d ih =>
    by_cases h : d < 4
    · exact small (3 + (d + 1)) (by interval_cases d <;> decide)
    · obtain ⟨t, ht, hw⟩ := Option.map_eq_some_iff.mp ih
      have he : pressing (3 + d) = .move .clearDirty := by
        rw [pressing, List.getD_eq_default]; simp; omega
      have hn : stateAt pressing waitingOnJump (3 + (d + 1)) = some (applyMove .clearDirty t) := by
        rw [show 3 + (d + 1) = 3 + d + 1 from rfl, stateAt, ht, he]; rfl
      rw [hn]
      exact congrArg some hw

/-- The run is fair: key 0 is released at the step of event 4 and held at that of event 6. -/
theorem pressing_is_fair : FairInput pressing waitingOnJump := by
  intro n t ht hw
  have hn : n < 3 := by
    by_contra h
    have := pressing_ends_the_wait (n - 3)
    rw [show 3 + (n - 3) = n by omega, ht] at this
    rw [Option.map_some, hw] at this; cases this
  have h4 : (stateAt pressing waitingOnJump 4).map (·.keys) = some 0 := by decide
  have h6 : (stateAt pressing waitingOnJump 6).map (·.keys) = some 1 := by decide
  obtain ⟨u, hu, hk⟩ := Option.map_eq_some_iff.mp h4
  obtain ⟨v, hv, hl⟩ := Option.map_eq_some_iff.mp h6
  refine ⟨4, 6, u, v, by omega, by decide, rfl, rfl, fun j h1 h2 => ?_, hu, hv, 0, by decide, by rw [hk]; rfl,
    by rw [hl]; rfl⟩
  rw [show j = 5 by omega]; decide

/-- A fair run with a key wait; and a wait that ends by a press, by `cancel` and by reset. -/
theorem witness_FairInputEndsEveryKeyWait :
    (FairInput pressing waitingOnJump ∧ stateAt pressing waitingOnJump 0 = some waitingOnJump ∧
      waitingOnJump.wait = true) ∧
    (∃ u, happen .step { waitingOnJump with keys := 1 } = .next u ∧ u.wait = false) ∧
    (∃ u, happen .step { waitingOnJump with cancel := true } = .next u ∧ u.wait = false) ∧
    (∃ u, happen (.move (.reset [])) waitingOnJump = .next u ∧ u.wait = false) :=
  ⟨⟨pressing_is_fair, rfl, rfl⟩, ⟨_, rfl, rfl⟩, ⟨_, rfl, rfl⟩, _, rfl, rfl⟩

/-- A configuration with other figures than the spec's, under the other edge policy. -/
def smallConfig : Config where
  memSize := 512
  stackDepth := 2
  stackEntryBits := 12
  fontBase := 80
  glyphBytes := 6
  fontTable := [0xAA, 0x55]
  programBase := 0x100
  edgePolicy := .clip

/-- G10 under `clip`: the four cells of row 31 that lie inside the grid, and no other; no collision. -/
theorem test_edgePolicy_clip :
    let s : State := { withBytes 0x300 [0xFF, 0x81] (withRegs [(0, 60), (1, 31)] State.reset) with i := 0x300 }
    (match execIn { params with edgePolicy := .clip } (.drw 0 1 2) s with
    | .next t => t.status == some .success && t.reg 15 == 0 &&
        cells t.fb [(60, 31), (61, 31), (62, 31), (63, 31)] [(0, 31), (3, 31), (60, 0), (3, 0)]
    | .fault _ => false
    | .refused _ => false) = true := by decide

/-- No byte read, the last `I` whose five rows lie in memory, and the first whose do not. -/
theorem witness_DrawFollowsTheEdgePolicy :
    (0 : Nibble).toNat = 0 ∧
    ({ State.reset with i := 507 } : State).i.toNat + (5 : Nibble).toNat - 1 < smallConfig.memSize ∧
    (5 : Nibble).toNat ≥ 1 ∧
    smallConfig.memSize ≤ ({ State.reset with i := 508 } : State).i.toNat + (5 : Nibble).toNat - 1 := by decide

/-- The bounds of each clause: the first fetch that fails, the last `I` in range and the first out of it, and `SP` at
and below the depth, at 15 and at 16. -/
theorem witness_ConfigurationIsFollowed :
    Memory.wfIn smallConfig.memSize State.reset.mem = true ∧
    (State.reset.wait = false ∧ smallConfig.memSize ≤ ({ State.reset with pc := 511 } : State).pc.toNat + 1) ∧
    (({ State.reset with pc := 510 } : State).pc.toNat + 1 < smallConfig.memSize ∧
      decode ({ State.reset with pc := 510 } : State).fetchWord = .ok (.sys 0)) ∧
    ({ State.reset with i := 509 } : State).i.toNat + 2 < smallConfig.memSize ∧
    smallConfig.memSize ≤ ({ State.reset with i := 510 } : State).i.toNat + 2 ∧
    ({ State.reset with i := 496 } : State).i.toNat + (15 : RegIx).toNat < smallConfig.memSize ∧
    smallConfig.memSize ≤ ({ State.reset with i := 497 } : State).i.toNat + (15 : RegIx).toNat ∧
    ({ State.reset with sp := 2 } : State).sp.toNat = smallConfig.stackDepth ∧
    (({ State.reset with sp := 1 } : State).sp.toNat ≠ smallConfig.stackDepth ∧
      ({ State.reset with sp := 1 } : State).sp.toNat < 16) ∧
    (({ State.reset with sp := 15 } : State).sp.toNat ≠ smallConfig.stackDepth ∧
      ({ State.reset with sp := 15 } : State).sp.toNat < 16) ∧
    (({ State.reset with sp := 16 } : State).sp.toNat ≠ smallConfig.stackDepth ∧
      16 ≤ ({ State.reset with sp := 16 } : State).sp.toNat) := by decide

/-- A configuration with room for its font, the longest image that fits and the shortest that does not. -/
theorem witness_ResetFollowsTheConfiguration :
    80 ≤ smallConfig.memSize ∧ smallConfig.fontBase + smallConfig.fontTable.length ≤ smallConfig.memSize ∧
    smallConfig.programBase ≤ smallConfig.memSize ∧
    (List.replicate 256 (0x11 : Byte)).length ≤ smallConfig.memSize - smallConfig.programBase ∧
    (List.replicate 257 (0x11 : Byte)).length > smallConfig.memSize - smallConfig.programBase := by
  simp only [List.length_replicate]; decide

/-- The invariant at two configurations, `SP` at the depth. -/
theorem witness_StepsKeepTheStateOkAtEveryConfiguration :
    (smallConfig.stackDepth ≤ 16 ∧ Memory.wfIn smallConfig.memSize (resetIn smallConfig).mem = true ∧
      ({ resetIn smallConfig with sp := 2 } : State).sp.toNat ≤ smallConfig.stackDepth) ∧
    (params.stackDepth ≤ 16 ∧ Memory.wfIn params.memSize State.reset.mem = true ∧
      ({ State.reset with sp := 16 } : State).sp.toNat ≤ params.stackDepth) := by decide +kernel

end Sys2Proof.Tests
end

section
/-!
PROOFS. What the step and the handlers do at any configuration (spec/00_scope.md R5): how a handler that succeeds
completes, what each store, load, push and glyph address leaves unchanged, and the statement that the configured
sizes, depth, widths and font are followed.
-/
namespace Sys2Proof.Machine

section
variable {s u : State} {c : Config}

/-! ### How a handler that succeeds completes -/

/-- A success leaves unchanged, but for the status, what the instruction's effects leave unchanged. -/
theorem UnchangedExcept.returnStatus_success {parts : List Part} (h : UnchangedExcept parts s u) :
    UnchangedExcept (.status :: parts) s (u.returnStatus .success) := by
  intro p hp
  obtain ⟨hstatus, hparts⟩ := not_or.mp (List.mem_cons.not.mp hp)
  have hsame := h p hparts
  cases p
  case status => exact absurd rfl hstatus
  case errorSeen => simpa [samePart] using hsame
  all_goals exact hsame

/-- The return of SUCCESS completes an instruction with the effects in place. -/
theorem completes_succeed {parts : List Part} {post : State → Prop} (hframe : UnchangedExcept parts s u)
    (hpost : post (u.returnStatus .success)) : Completes (succeed u) s parts post :=
  ⟨_, rfl, rfl, hframe.returnStatus_success, hpost⟩

/-! ### What the operations leave unchanged -/

theorem setMem_frame (s : State) (m : Memory) : UnchangedExcept [.mem] s (s.setMem m) := by
  intro p hp
  cases p
  case mem => exact absurd (List.mem_singleton.mpr rfl) hp
  all_goals simp [samePart]

theorem setI_frame (s : State) (w : Word) : UnchangedExcept [.i] s (s.setI w) := by
  intro p hp
  cases p
  case i => exact absurd (List.mem_singleton.mpr rfl) hp
  all_goals simp [samePart]

theorem loadRegs_frame (s : State) (a n : Nat) : UnchangedExcept [.v] s (s.loadRegs a n) := by
  intro p hp
  cases p
  case v => exact absurd (List.mem_singleton.mpr rfl) hp
  all_goals simp [samePart, State.slot?]

/-- The state after `w` is pushed and `PC` set to `target`: the effects of a call that finds its slot
(spec/41_flow.md R93). -/
def State.called (s : State) (w target : Word) (h : s.sp.toNat < 16) : State :=
  State.setPc { s with stack := s.stack.set s.sp.toNat w h, sp := s.sp + 1 } target

theorem called_frame (w target : Word) (h : s.sp.toNat < 16) :
    UnchangedExcept [.pc, .sp, .stack] s (s.called w target h) := by
  intro p hp
  cases p
  case pc | sp | stack => simp at hp
  all_goals simp [samePart, State.called, State.reg]

theorem called_sp (w target : Word) (h : s.sp.toNat < 16) : (s.called w target h).sp.toNat = s.sp.toNat + 1 := by
  simp only [State.called, State.setPc_sp]
  bv_omega

theorem called_slot_same (w target : Word) (h : s.sp.toNat < 16) :
    (s.called w target h).slot? s.sp.toNat = some w := by
  simp [State.called, State.slot?, h]

theorem called_slot_ne (w target : Word) (h : s.sp.toNat < 16) {k : Nat} (hk : k ≠ s.sp.toNat) :
    (s.called w target h).slot? k = s.slot? k := by
  simp [State.called, State.slot?, Vector.getElem?_set_ne, hk.symm]

/-! ### The step -/

theorem stepIn_of_fetch_out_of_range (hw : s.wait = false) (hr : c.memSize ≤ s.pc.toNat + 1) :
    stepIn c s = .next (s.returnStatus .memRange) := by
  rcases stepIn_cases s c with ⟨hw', _⟩ | ⟨_, _, h⟩ | ⟨_, hr', _⟩ | ⟨_, ⟨_, hr', _⟩, _⟩
  · simp [hw] at hw'
  · exact h
  · omega
  · omega

theorem stepIn_of_decode {i : Instr} (hw : s.wait = false) (hr : s.pc.toNat + 1 < c.memSize)
    (hd : decode s.fetchWord = .ok i) : stepIn c s = endStep (execIn c i s.advancePc) := by
  rcases stepIn_cases s c with ⟨hw', _⟩ | ⟨_, hr', _⟩ | ⟨_, _, ⟨e, hd'⟩, _⟩ | ⟨j, ⟨_, _, hd'⟩, h⟩
  · simp [hw] at hw'
  · omega
  · simp [hd] at hd'
  · obtain rfl : i = j := Except.ok.inj (hd.symm.trans hd')
    exact h

/-! ### The memory instructions (spec/44_index_memory.md R133 to R135) -/

/-- A store of bytes from `I` on completes with exactly these bytes changed. -/
theorem completes_store (hm : Memory.wfIn c.memSize s.mem = true) {bs : List Byte} {n : Nat} (hn : bs.length = n)
    (hr : s.i.toNat + n ≤ c.memSize) {f : Nat → Byte} (hf : ∀ k (hk : k < bs.length), bs[k] = f k) :
    Completes (succeed (s.setMem (s.mem.writeBytes (s.indexed 0) bs))) s [.mem] fun t =>
      ∀ a, t.mem.read a = overlay s.mem s.i.toNat n f a := by
  subst hn
  exact completes_succeed (setMem_frame s _) (Memory.read_writeBytes hm bs hr f hf)

theorem execIn_ldB_completes (x : RegIx) (hr : s.i.toNat + 2 < c.memSize)
    (hm : Memory.wfIn c.memSize s.mem = true) :
    Completes (execIn c (.ldB x) s) s [.mem] fun t => ∀ a, t.mem.read a =
      overlay s.mem s.i.toNat 3 (fun k => BitVec.ofNat 8 ((s.reg x).toNat / 10 ^ (2 - k) % 10)) a := by
  have hin : s.indexInRange c 3 = true := (indexInRange_iff s c 3).mpr (.inr (by omega))
  simp only [execIn, execLdBIn, hin, if_true]
  exact completes_store hm (length_decimalDigits _) (by omega) (getElem_decimalDigits _)

theorem execIn_ldMemVx_completes (x : RegIx) (hr : s.i.toNat + x.toNat < c.memSize)
    (hm : Memory.wfIn c.memSize s.mem = true) :
    Completes (execIn c (.ldMemVx x) s) s [.mem] fun t => ∀ a, t.mem.read a =
      overlay s.mem s.i.toNat (x.toNat + 1) (fun k => s.reg (BitVec.ofNat 4 k)) a := by
  have hin : s.indexInRange c (x.toNat + 1) = true := (indexInRange_iff s c _).mpr (.inr (by omega))
  simp only [execIn, execLdMemVxIn, hin, if_true]
  exact completes_store hm (s.length_firstRegs _) (by omega) (s.getElem_firstRegs _)

theorem execIn_ldVxMem_completes (x : RegIx) (hr : s.i.toNat + x.toNat < c.memSize) :
    Completes (execIn c (.ldVxMem x) s) s [.v] fun t =>
      ∀ r, t.reg r = if r ≤ x then s.mem.read (s.indexed r.toNat) else s.reg r := by
  have hin : s.indexInRange c (x.toNat + 1) = true := (indexInRange_iff s c _).mpr (.inr (by omega))
  simp only [execIn, execLdVxMemIn, hin, if_true]
  refine completes_succeed (loadRegs_frame s _ _) fun r => ?_
  have hx := x.isLt
  rw [State.returnStatus_reg, s.loadRegs_reg _ _ (by omega)]
  simp only [State.indexed, Nat.add_zero, Nat.lt_succ_iff, BitVec.le_def]

/-- A transfer of the `n + 1` bytes from `I` on is out of range when its last byte is. -/
theorem indexInRange_of_last_ge {n : Nat} (hr : c.memSize ≤ s.i.toNat + n) : s.indexInRange c (n + 1) = false :=
  (indexInRange_eq_false s c _).mpr (by omega)

theorem execIn_ldB_out_of_range (x : RegIx) (hr : c.memSize ≤ s.i.toNat + 2) :
    execIn c (.ldB x) s = .next (s.returnStatus .memRange) := by
  simp [execIn, execLdBIn, indexInRange_of_last_ge hr, answer]

theorem execIn_ldMemVx_out_of_range (x : RegIx) (hr : c.memSize ≤ s.i.toNat + x.toNat) :
    execIn c (.ldMemVx x) s = .next (s.returnStatus .memRange) := by
  simp [execIn, execLdMemVxIn, indexInRange_of_last_ge hr, answer]

theorem execIn_ldVxMem_out_of_range (x : RegIx) (hr : c.memSize ≤ s.i.toNat + x.toNat) :
    execIn c (.ldVxMem x) s = .next (s.returnStatus .memRange) := by
  simp [execIn, execLdVxMemIn, indexInRange_of_last_ge hr, answer]

/-! ### The call (spec/41_flow.md R93) -/

theorem execIn_call_overflow (nnn : Addr12) (hd : s.sp.toNat = c.stackDepth) :
    execIn c (.call nnn) s = .next (s.returnStatus .stackOverflow) := by
  rcases execCallIn_cases s c nnn with ⟨_, h⟩ | ⟨hd', _⟩ | ⟨hd', _⟩
  · exact h
  · exact absurd hd hd'
  · exact absurd hd hd'

theorem execIn_call_pushes (nnn : Addr12) (hd : s.sp.toNat ≠ c.stackDepth) (hs : s.sp.toNat < 16) :
    execIn c (.call nnn) s = succeed (s.called (stackEntry c s.pc) (addrOperand nnn) hs) := by
  rcases execCallIn_cases s c nnn with ⟨hd', _⟩ | ⟨_, _, h⟩ | ⟨_, hs', _⟩
  · exact absurd hd' hd
  · exact h
  · omega

theorem execIn_call_faults (nnn : Addr12) (hd : s.sp.toNat ≠ c.stackDepth) (hs : 16 ≤ s.sp.toNat) :
    execIn c (.call nnn) s = .fault .stackSlotAbsent := by
  rcases execCallIn_cases s c nnn with ⟨hd', _⟩ | ⟨_, hs', _⟩ | ⟨_, _, h⟩
  · exact absurd hd' hd
  · omega
  · exact h

theorem addrOperand_toNat (nnn : Addr12) : (addrOperand nnn).toNat = nnn.toNat := by
  simp only [addrOperand, BitVec.truncate_eq_setWidth, BitVec.toNat_setWidth]
  omega

theorem execIn_call_completes (nnn : Addr12) (hd : s.sp.toNat ≠ c.stackDepth) (hs : s.sp.toNat < 16) :
    Completes (execIn c (.call nnn) s) s [.pc, .sp, .stack] fun t =>
      t.pc.toNat = nnn.toNat ∧ t.sp.toNat = s.sp.toNat + 1 ∧
      (∃ w, t.slot? s.sp.toNat = some w ∧ w.toNat = s.pc.toNat % 2 ^ c.stackEntryBits) ∧
      ∀ k, k ≠ s.sp.toNat → t.slot? k = s.slot? k := by
  rw [execIn_call_pushes nnn hd hs]
  refine completes_succeed (called_frame _ _ hs) ⟨addrOperand_toNat nnn, ?sp, ⟨_, ?top, stackEntry_toNat c s.pc⟩, ?others⟩
  case sp => exact called_sp (stackEntry c s.pc) (addrOperand nnn) hs
  case top => exact called_slot_same (stackEntry c s.pc) (addrOperand nnn) hs
  case others => exact fun _ => called_slot_ne (stackEntry c s.pc) (addrOperand nnn) hs

/-! ### The glyph address (spec/44_index_memory.md R132) -/

theorem execIn_ldF_completes (c : Config) (x : RegIx) (s : State) :
    Completes (execIn c (.ldF x) s) s [.i] fun t =>
      t.i.toNat = (c.fontBase + (s.reg x).toNat * c.glyphBytes) % 65536 :=
  completes_succeed (setI_frame s _) (BitVec.toNat_ofNat _ 16)

end

/-- Settles O58: each clause is the lemma of its handler or of the step, at any configuration. -/
theorem configurationIsFollowed : Obligations.ConfigurationIsFollowed := by
  intro c x nnn s
  refine ⟨fun hw hr => ?fetchRange, fun _ => stepIn_of_decode, execIn_ldB_completes x, fun hr => ?ldBRange,
    execIn_ldMemVx_completes x, execIn_ldVxMem_completes x, fun hr => ?multipleRange, fun hd => ?overflow,
    execIn_call_completes nnn, execIn_call_faults nnn, execIn_ldF_completes c x s⟩
  case fetchRange =>
    rw [stepIn_of_fetch_out_of_range hw hr]
    exact answers_returnStatus s _
  case ldBRange =>
    rw [execIn_ldB_out_of_range x hr]
    exact answers_returnStatus s _
  case multipleRange =>
    rw [execIn_ldMemVx_out_of_range x hr, execIn_ldVxMem_out_of_range x hr]
    exact ⟨answers_returnStatus s _, answers_returnStatus s _⟩
  case overflow =>
    rw [execIn_call_overflow nnn hd]
    exact answers_returnStatus s _

end Sys2Proof.Machine
end

section
/-!
PROOFS. What the handler of each instruction writes (spec/10_state.md R32, R11), said once at any configuration:
`handlerWrites` with the frame of a handler, and what becomes of a register, of DIRTY, of memory and of `SP`.
-/
namespace Sys2Proof.Machine

/-! ### What is unchanged, as a relation between states -/

section
variable {parts others : List Part} {s t u : State}

theorem samePart.symm {p : Part} (h : samePart p s t) : samePart p t s := by
  cases p
  case v | stack | mem => exact fun a => (h a).symm
  case fb => exact fun x y => (h x y).symm
  all_goals exact Eq.symm h

theorem samePart.trans {p : Part} (h : samePart p s t) (h' : samePart p t u) : samePart p s u := by
  cases p
  case v | stack | mem => exact fun a => (h' a).trans (h a)
  case fb => exact fun x y => (h' x y).trans (h x y)
  all_goals exact Eq.trans h' h

theorem UnchangedExcept.refl (parts : List Part) (s : State) : UnchangedExcept parts s s := by
  intro p _
  cases p <;> simp [samePart]

theorem UnchangedExcept.symm (h : UnchangedExcept parts s t) : UnchangedExcept parts t s :=
  fun p hp => (h p hp).symm

theorem UnchangedExcept.trans (h : UnchangedExcept parts s t) (h' : UnchangedExcept others t u) :
    UnchangedExcept (parts ++ others) s u := by
  intro p hp
  obtain ⟨hparts, hothers⟩ := not_or.mp (List.mem_append.not.mp hp)
  exact (h p hparts).trans (h' p hothers)

theorem UnchangedExcept.mono (h : UnchangedExcept parts s t) (hsub : parts ⊆ others) : UnchangedExcept others s t :=
  fun p hp => h p fun hmem => hp (hsub hmem)

end

/-! ### What the operations leave unchanged -/

section
variable (s : State)

theorem writeReg_frame (x : RegIx) (b : Byte) : UnchangedExcept [.v] s (s.writeReg x b) := by
  intro p hp
  cases p <;> simp [samePart] at hp ⊢

theorem setPc_frame (w : Word) : UnchangedExcept [.pc] s (s.setPc w) := by
  intro p hp
  cases p <;> simp [samePart] at hp ⊢

theorem setDt_frame (b : Byte) : UnchangedExcept [.dt] s (s.setDt b) := by
  intro p hp
  cases p <;> simp [samePart] at hp ⊢

theorem setSt_frame (b : Byte) : UnchangedExcept [.st] s (s.setSt b) := by
  intro p hp
  cases p <;> simp [samePart] at hp ⊢

theorem setFb_frame (fb : Framebuffer) : UnchangedExcept [.fb, .dirty] s (s.setFb fb) := by
  intro p hp
  cases p <;> simp [samePart] at hp ⊢

theorem beginWait_frame (x : RegIx) : UnchangedExcept [.wait, .waitX, .keyPrev] s (s.beginWait x) := by
  intro p hp
  cases p <;> simp [samePart] at hp ⊢

theorem endWait_frame : UnchangedExcept [.wait] s s.endWait := by
  intro p hp
  cases p <;> simp [samePart] at hp ⊢

theorem sampleKeys_frame : UnchangedExcept [.keyPrev] s s.sampleKeys := by
  intro p hp
  cases p <;> simp [samePart] at hp ⊢

theorem consumeDraw_frame : UnchangedExcept [.draws] s s.consumeDraw := by
  intro p hp
  cases p <;> simp [samePart] at hp ⊢

theorem countdown_frame : UnchangedExcept [.dt, .st] s s.countdown := by
  intro p hp
  cases p <;> simp [samePart] at hp ⊢

theorem returnStatus_frame (c : Status) : UnchangedExcept [.status, .errorSeen] s (s.returnStatus c) := by
  intro p hp
  cases p <;> simp [samePart] at hp ⊢

theorem skipIf_frame (condition : Bool) : UnchangedExcept [.pc] s (s.skipIf condition) := by
  cases condition
  · exact .refl _ s
  · exact setPc_frame s _

theorem writeFlagResult_frame (x : RegIx) (f b : Byte) : UnchangedExcept [.v] s (s.writeFlagResult x f b) :=
  ((writeReg_frame s flagReg f).trans (writeReg_frame _ x b)).mono (by decide)

theorem drawSprite_frame (policy : EdgePolicy) (x y h a : Nat) :
    UnchangedExcept [.v, .fb, .dirty] s (s.drawSprite policy x y h a) :=
  ((setFb_frame s _).trans (writeReg_frame _ flagReg _)).mono (by decide)

end

/-! ### How a handler ends -/

section
variable {s t u : State} {c : Config} {parts : List Part}

theorem UnchangedExcept.answer {e : Status} (hu : UnchangedExcept parts s u) (h : answer e u = .next t) :
    UnchangedExcept (.status :: .errorSeen :: parts) s t := by
  rw [answer_next u h]
  exact (hu.trans (returnStatus_frame u e)).mono (by simp)

/-- A handler that checks the range of its access either has its effects and succeeds, or only answers MEM_RANGE
(spec/20_memory.md R43). -/
theorem checked_next {inRange : Bool} (h : (if inRange then succeed u else answer .memRange s) = .next t) :
    (inRange = true ∧ t = u.returnStatus .success) ∨ t = s.returnStatus .memRange := by
  cases inRange
  · exact .inr (answer_next s h)
  · exact .inl ⟨rfl, succeed_next u h⟩

theorem UnchangedExcept.checked {inRange : Bool} (hu : UnchangedExcept parts s u)
    (h : (if inRange then succeed u else Machine.answer .memRange s) = .next t) :
    UnchangedExcept (.status :: .errorSeen :: parts) s t := by
  cases inRange
  · exact (UnchangedExcept.refl parts s).answer h
  · exact hu.answer h

/-- The state after a pop whose word becomes `PC`: the effects of a return that finds its slot
(spec/41_flow.md R92). -/
def State.returned (s : State) (h : s.sp.toNat - 1 < 16) : State :=
  State.setPc { s with sp := s.sp - 1 } (s.stack[s.sp.toNat - 1])

theorem returned_frame (h : s.sp.toNat - 1 < 16) : UnchangedExcept [.pc, .sp] s (s.returned h) := by
  intro p hp
  cases p <;> simp [samePart, State.returned, State.reg, State.slot?] at hp ⊢

theorem ret_next (h : execRet s = .next t) :
    t = s.returnStatus .stackUnderflow ∨
    (s.sp ≠ 0 ∧ ∃ hs : s.sp.toNat - 1 < 16, t = (s.returned hs).returnStatus .success) := by
  rcases execRet_cases s with ⟨_, h'⟩ | ⟨h0, hs, h'⟩ | ⟨_, h'⟩ <;> rw [h'] at h <;> cases h
  · exact .inl rfl
  · exact .inr ⟨h0, hs, rfl⟩

theorem call_next {nnn : Addr12} (h : execCallIn c nnn s = .next t) :
    t = s.returnStatus .stackOverflow ∨
    (s.sp.toNat ≠ c.stackDepth ∧ ∃ hs : s.sp.toNat < 16,
      t = (s.called (stackEntry c s.pc) (addrOperand nnn) hs).returnStatus .success) := by
  rcases execCallIn_cases s c nnn with ⟨_, h'⟩ | ⟨h0, hs, h'⟩ | ⟨_, _, h'⟩ <;> rw [h'] at h <;> cases h
  · exact .inl rfl
  · exact .inr ⟨h0, hs, rfl⟩

end

/-! ### The frame of a handler -/

/-- The items that the handler of an instruction may write besides the model's status and error record, from the
"Written by" column of spec/10_state.md R32; `PC` is written by jumps, calls, returns and skips. -/
def handlerWrites : Instr → List Part
  | .cls => [.fb, .dirty]
  | .ret => [.pc, .sp]
  | .sys _ => []
  | .jp _ | .jpV0 _ => [.pc]
  | .call _ => [.pc, .sp, .stack]
  | .seImm _ _ | .sneImm _ _ | .seReg _ _ | .sneReg _ _ | .skp _ | .sknp _ => [.pc]
  | .ldImm _ _ | .addImm _ _ | .ldReg _ _ | .orReg _ _ | .andReg _ _ | .xorReg _ _ => [.v]
  | .addReg _ _ | .sub _ _ | .shr _ _ | .subn _ _ | .shl _ _ => [.v]
  | .rnd _ _ => [.v, .draws]
  | .drw _ _ _ => [.v, .fb, .dirty]
  | .ldI _ | .ldF _ => [.i]
  | .addI _ => [.i, .v]
  | .ldVxDt _ | .ldVxMem _ => [.v]
  | .ldVxK _ => [.wait, .waitX, .keyPrev]
  | .ldDtVx _ => [.dt]
  | .ldStVx _ => [.st]
  | .ldB _ | .ldMemVx _ => [.mem]

section
variable {s t : State} {c : Config} {i : Instr}

theorem execIn_frame (h : execIn c i s = .next t) :
    UnchangedExcept (.status :: .errorSeen :: handlerWrites i) s t := by
  cases i
  case cls => exact (setFb_frame s _).answer h
  case ret =>
    rcases ret_next h with rfl | ⟨_, hs, rfl⟩
    · exact (UnchangedExcept.refl _ s).answer rfl
    · exact (returned_frame hs).answer rfl
  case sys => exact (UnchangedExcept.refl _ s).answer h
  case jp | jpV0 => exact (setPc_frame s _).answer h
  case call =>
    rcases call_next h with rfl | ⟨_, hs, rfl⟩
    · exact (UnchangedExcept.refl _ s).answer rfl
    · exact (called_frame _ _ hs).answer rfl
  case seImm | sneImm | seReg | sneReg | skp | sknp => exact (skipIf_frame s _).answer h
  case ldImm | addImm | ldReg | orReg | andReg | xorReg | ldVxDt => exact (writeReg_frame s _ _).answer h
  case addReg | sub | shr | subn | shl => exact (writeFlagResult_frame s _ _ _).answer h
  case rnd => exact (((consumeDraw_frame s).trans (writeReg_frame _ _ _)).mono (List.perm_append_comm.subset)).answer h
  case drw => exact (drawSprite_frame s _ _ _ _ _).checked h
  case ldI | ldF => exact (setI_frame s _).answer h
  case addI => exact ((setI_frame s _).trans (writeReg_frame _ _ _)).answer h
  case ldVxK => exact (beginWait_frame s _).answer h
  case ldDtVx => exact (setDt_frame s _).answer h
  case ldStVx => exact (setSt_frame s _).answer h
  case ldB | ldMemVx => exact (setMem_frame s _).checked h
  case ldVxMem => exact (loadRegs_frame s _ _).checked h

/-- A handler leaves every register that the table of spec/10_state.md R11 does not give it. -/
theorem execIn_reg_of_not_writesReg (h : execIn c i s = .next t) {r : RegIx} (hr : writesReg i r = false) :
    t.reg r = s.reg r := by
  by_cases hv : .v ∈ handlerWrites i
  · cases i
    case ldImm | addImm | ldReg | orReg | andReg | xorReg | ldVxDt | rnd | addI =>
      rw [succeed_next _ h]
      simp_all [writesReg, State.writeReg_reg]
    case addReg | sub | shr | subn | shl =>
      rw [succeed_next _ h]
      simp_all [writesReg, State.writeFlagResult_reg]
    case drw =>
      rcases checked_next h with ⟨_, rfl⟩ | rfl
      · simp_all [writesReg, State.drawSprite_reg]
      · rfl
    case ldVxMem x =>
      rcases checked_next h with ⟨_, rfl⟩ | rfl
      · have hx := x.isLt
        have hlt : ¬ r.toNat < x.toNat + 1 := by simpa [writesReg, BitVec.lt_def] using hr
        rw [State.returnStatus_reg, State.loadRegs_reg s _ _ (by omega), if_neg hlt]
      · rfl
    all_goals simp [handlerWrites] at hv
  · exact execIn_frame h .v (by simp [hv]) r

/-- No handler clears DIRTY (spec/10_state.md R27). -/
theorem execIn_keeps_dirty (h : execIn c i s = .next t) (hd : s.dirty = true) : t.dirty = true := by
  by_cases hw : .dirty ∈ handlerWrites i
  · cases i
    case cls => rw [succeed_next _ h]; rfl
    case drw =>
      rcases checked_next h with ⟨_, rfl⟩ | rfl
      · rfl
      · exact hd
    all_goals simp [handlerWrites] at hw
  · exact Eq.trans (execIn_frame h .dirty (by simp [hw])) hd

/-- Every handler keeps the canonical form of memory: the two that store check that all their bytes are in memory. -/
theorem execIn_keeps_wf (h : execIn c i s = .next t) (hm : Memory.wfIn c.memSize s.mem = true) :
    Memory.wfIn c.memSize t.mem = true := by
  cases i
  case ldB | ldMemVx =>
    rcases checked_next h with ⟨hr, rfl⟩ | rfl
    · exact Memory.wf_writeBytes hm _ (by simpa [indexInRange_iff, State.indexed] using hr)
    · exact hm
  case drw | ldVxMem =>
    rcases checked_next h with ⟨_, rfl⟩ | rfl
    · simpa using hm
    · exact hm
  case ret => rcases ret_next h with rfl | ⟨_, _, rfl⟩ <;> exact hm
  case call => rcases call_next h with rfl | ⟨_, _, rfl⟩ <;> exact hm
  case sys | ldVxK => rw [answer_next _ h]; exact hm
  all_goals rw [succeed_next _ h]; simpa using hm

/-- Every handler keeps `SP` within the depth: a call that finds it there overflows (spec/10_state.md R17). -/
theorem execIn_keeps_sp_le (h : execIn c i s = .next t) (hs : s.sp.toNat ≤ c.stackDepth) :
    t.sp.toNat ≤ c.stackDepth := by
  by_cases hw : .sp ∈ handlerWrites i
  · cases i
    case ret =>
      rcases ret_next h with rfl | ⟨h0, _, rfl⟩
      · exact hs
      · have hsub : (s.sp - 1).toNat ≤ s.sp.toNat := by bv_omega
        exact hsub.trans hs
    case call =>
      rcases call_next h with rfl | ⟨h0, hlt, rfl⟩
      · exact hs
      · rw [State.returnStatus_sp, called_sp]
        omega
    all_goals simp [handlerWrites] at hw
  · rw [execIn_frame h .sp (by simp [hw])]
    exact hs

/-- Within a stack that fits the state, every handler answers a status. -/
theorem execIn_answers (hd : c.stackDepth ≤ 16) (hs : s.sp.toNat ≤ c.stackDepth) (i : Instr) :
    ∃ t e, execIn c i s = .next t ∧ t.status = some e := by
  rcases execIn_ends s c i with ⟨u, h, _⟩ | ⟨e, _, h, _⟩ | ⟨x, _, h⟩ | ⟨h16, hi, h⟩
  · exact ⟨_, _, h, rfl⟩
  · exact ⟨_, _, h, rfl⟩
  · exact ⟨_, _, h, rfl⟩
  · rcases hi with rfl | ⟨nnn, rfl⟩
    · rcases execRet_cases s with ⟨_, h'⟩ | ⟨_, _, h'⟩ | ⟨hgt, _⟩
      · exact ⟨_, _, h', rfl⟩
      · exact ⟨_, _, h', rfl⟩
      · omega
    · exact ⟨_, _, execIn_call_overflow nnn (by omega), rfl⟩

end

end Sys2Proof.Machine
end

section
/-!
PROOFS. The step as what it does before the countdown and the countdown (spec/40_cycle.md R80, R84), and the
invariant that it keeps: the canonical form of memory and the bound on `SP`.
-/
namespace Sys2Proof.Machine

/-! ### The end of a step -/

/-- A state after the countdown that follows a SUCCESS, and no other status (spec/40_cycle.md R84). -/
def State.settled (u : State) : State := if u.status = some .success then u.countdown else u

section
variable {u : State}

theorem settled_of_success (h : u.status = some .success) : u.settled = u.countdown := if_pos h

theorem settled_of_not_success (h : u.status ≠ some .success) : u.settled = u := if_neg h

theorem settled_returnStatus {e : Status} (he : e ≠ .success) : (u.returnStatus e).settled = u.returnStatus e :=
  settled_of_not_success (by simpa using he)

theorem endStep_of_next {o : Host.Outcome State Fault Refusal} (h : o = .next u) :
    endStep o = .next u.settled := by
  rw [h]; rfl

variable (u)

theorem settled_frame : UnchangedExcept [.dt, .st] u u.settled := by
  by_cases h : u.status = some .success
  · rw [settled_of_success h]; exact countdown_frame u
  · rw [settled_of_not_success h]; exact .refl _ u

@[simp] theorem settled_status : u.settled.status = u.status := settled_frame u .status (by decide)

@[simp] theorem settled_mem : u.settled.mem = u.mem := by
  unfold State.settled
  split <;> rfl

theorem settled_dt_toNat : u.settled.dt.toNat = u.dt.toNat - if u.status = some .success then 1 else 0 := by
  by_cases h : u.status = some .success
  · rw [settled_of_success h, if_pos h]; exact timerTick_toNat u.dt
  · rw [settled_of_not_success h, if_neg h]; rfl

theorem settled_st_toNat : u.settled.st.toNat = u.st.toNat - if u.status = some .success then 1 else 0 := by
  by_cases h : u.status = some .success
  · rw [settled_of_success h, if_pos h]; exact timerTick_toNat u.st
  · rw [settled_of_not_success h, if_neg h]; rfl

end

/-! ### The invariant -/

/-- A poll answers and touches neither memory nor `SP`. -/
theorem waitPoll_keeps_mem_sp (s : State) :
    ∃ t e, waitPoll s = .next t ∧ t.status = some e ∧ t.mem = s.mem ∧ t.sp = s.sp := by
  rcases waitPoll_cases s with ⟨_, h⟩ | ⟨_, _, h⟩ | ⟨_, k, _, _, _, h⟩ <;> exact ⟨_, _, h, rfl, rfl, rfl⟩

/-- Settles O60: each of the four ways of a step answers and keeps both bounds; the one that runs a handler by
`execIn_answers`, `execIn_keeps_wf` and `execIn_keeps_sp_le`. -/
theorem stepsKeepTheStateOkAtEveryConfiguration : Obligations.StepsKeepTheStateOkAtEveryConfiguration := by
  intro c s hd hm hs
  rcases stepIn_cases s c with ⟨_, h⟩ | ⟨_, _, h⟩ | ⟨_, _, _, h⟩ | ⟨i, _, h⟩
  · obtain ⟨t, e, ht, he, hmem, hsp⟩ := waitPoll_keeps_mem_sp s
    exact ⟨t, e, h.trans ht, he, by rwa [hmem], by rwa [hsp]⟩
  · exact ⟨_, _, h, rfl, hm, hs⟩
  · exact ⟨_, _, h, rfl, hm, hs⟩
  · have hs' : s.advancePc.sp.toNat ≤ c.stackDepth := hs
    obtain ⟨u, e, hu, he⟩ := execIn_answers hd hs' i
    have hsp : u.settled.sp = u.sp := settled_frame u .sp (by decide)
    refine ⟨u.settled, e, h.trans (endStep_of_next hu), by rwa [settled_status], ?_, ?_⟩
    · rw [settled_mem]; exact execIn_keeps_wf hu hm
    · rw [hsp]; exact execIn_keeps_sp_le hu hs'

/-- Settles O14: the case of the spec's configuration of O60. -/
theorem stepKeepsTheStateOk : Obligations.StepKeepsTheStateOk := by
  intro s t ⟨hm, hs⟩ h
  obtain ⟨t', _, ht', _, hok⟩ := stepsKeepTheStateOkAtEveryConfiguration params s (le_refl 16) hm hs
  obtain rfl : t = t' := Host.Outcome.next.inj ((h.symm.trans (stepIn_params s).symm).trans ht')
  exact hok

end Sys2Proof.Machine
end

section
/-!
PROOFS. Who writes what over one step (spec/10_state.md R32): what the step leaves before its countdown, in its three
ways, and each item of state through the frame of that way.
-/
namespace Sys2Proof.Machine

variable {s t : State}

/-- A poll changes nothing but the registers, WAIT, KEY_PREV and what an answer records, and of the registers only
`V[WAIT_X]`, on a SUCCESS (spec/46_keys.md R153, R155). -/
def Polled (s u : State) : Prop :=
  UnchangedExcept [.v, .wait, .keyPrev, .status, .errorSeen] s u ∧
  ∀ r, (u.status = some .success → r ≠ s.waitX) → u.reg r = s.reg r

theorem waitPoll_next (h : waitPoll s = .next t) : ∃ u, t = u.settled ∧ Polled s u := by
  rcases waitPoll_cases s with ⟨_, h'⟩ | ⟨_, _, h'⟩ | ⟨_, k, _, _, _, h'⟩ <;> rw [h'] at h <;> cases h
  · have hframe := (endWait_frame s).trans (returnStatus_frame _ .waitCancelled)
    exact ⟨_, (settled_returnStatus (by decide)).symm, hframe.mono (by decide), fun _ _ => rfl⟩
  · have hframe := (sampleKeys_frame s).trans (returnStatus_frame _ .keyWait)
    exact ⟨_, (settled_returnStatus (by decide)).symm, hframe.mono (by decide), fun _ _ => rfl⟩
  · refine ⟨(s.writeReg s.waitX (BitVec.ofNat 8 k)).endWait.returnStatus .success, rfl, ?_, fun r hr => ?_⟩
    · exact (((writeReg_frame s _ _).trans (endWait_frame _)).trans (returnStatus_frame _ _)).mono (by decide)
    · exact s.writeReg_reg_ne _ r _ (hr rfl)

/-- What a step has done before its countdown: a poll, or no instruction at all, or a handler on the advanced `PC`. -/
def BeforeCountdown (s u : State) : Prop :=
  (s.wait = true ∧ Polled s u) ∨ UnchangedExcept [.pc, .status, .errorSeen] s u ∨
    ∃ i, Fetches s i ∧ exec i s.advancePc = .next u

theorem step_next (h : step s = .next t) : ∃ u, t = u.settled ∧ BeforeCountdown s u := by
  rcases step_cases s with ⟨hw, h'⟩ | ⟨_, _, h'⟩ | ⟨_, _, _, h'⟩ | ⟨i, hi, h'⟩ <;> rw [h'] at h
  · obtain ⟨u, ht, hu⟩ := waitPoll_next h
    exact ⟨u, ht, .inl ⟨hw, hu⟩⟩
  · cases h
    exact ⟨_, (settled_returnStatus (by decide)).symm, .inr (.inl ((returnStatus_frame s _).mono (by decide)))⟩
  · cases h
    have hframe := (setPc_frame s _).trans (returnStatus_frame s.advancePc .invalidOpcode)
    exact ⟨_, (settled_returnStatus (by decide)).symm, .inr (.inl (hframe.mono (by decide)))⟩
  · obtain ⟨u, hu, rfl⟩ := endStep_next.mp h
    exact ⟨u, rfl, .inr (.inr ⟨i, hi, hu⟩)⟩

/-- A handler run by the step changes nothing but what it writes, `PC`, and what an answer records. -/
theorem exec_advancePc_frame {i : Instr} {u : State} (h : exec i s.advancePc = .next u) :
    UnchangedExcept (.pc :: .status :: .errorSeen :: handlerWrites i) s u := by
  rw [← execIn_params] at h
  exact (setPc_frame s _).trans (execIn_frame h)

/-- An item is as it was before the countdown unless the fetched instruction or a poll writes it. -/
theorem BeforeCountdown.samePart {u : State} {p : Part} (h : BeforeCountdown s u)
    (hp : p ∉ [.pc, .status, .errorSeen]) (hpoll : s.wait = true → p ∉ [.v, .wait, .keyPrev])
    (hi : ∀ i, Fetches s i → p ∉ handlerWrites i) : Machine.samePart p s u := by
  rcases h with ⟨hw, hframe, _⟩ | hframe | ⟨i, hf, hu⟩
  · have := hpoll hw
    exact hframe p (by simp_all)
  · exact hframe p hp
  · have := hi i hf
    exact exec_advancePc_frame hu p (by simp_all)

/-- Over a whole step, the same of every item but the timers. -/
theorem step_samePart (h : step s = .next t) {p : Part} (hp : p ∉ [.pc, .status, .errorSeen, .dt, .st])
    (hpoll : s.wait = true → p ∉ [.v, .wait, .keyPrev]) (hi : ∀ i, Fetches s i → p ∉ handlerWrites i) :
    samePart p s t := by
  obtain ⟨u, rfl, hu⟩ := step_next h
  exact (hu.samePart (by simp_all) hpoll hi).trans (settled_frame u p (by simp_all))

/-- A register changes only by an instruction that writes it or as `V[WAIT_X]` of a completing poll. -/
theorem step_reg (h : step s = .next t) {r : RegIx} (hi : ∀ i, Fetches s i → writesReg i r = false)
    (hpoll : s.wait = true → t.status = some .success → r ≠ s.waitX) : t.reg r = s.reg r := by
  obtain ⟨u, rfl, hu⟩ := step_next h
  rw [settled_frame u .v (by decide) r]
  rw [settled_status] at hpoll
  rcases hu with ⟨hw, _, hreg⟩ | hframe | ⟨i, hf, hu⟩
  · exact hreg r (hpoll hw)
  · exact hframe .v (by decide) r
  · rw [← execIn_params] at hu
    exact execIn_reg_of_not_writesReg hu (hi i hf)

theorem step_dt (h : step s = .next t) (hi : ∀ i, Fetches s i → .dt ∉ handlerWrites i) :
    t.dt.toNat = s.dt.toNat - if t.status = some .success then 1 else 0 := by
  obtain ⟨u, rfl, hu⟩ := step_next h
  have hdt : u.dt = s.dt := hu.samePart (p := .dt) (by decide) (by simp) hi
  rw [settled_dt_toNat, settled_status, hdt]

theorem step_st (h : step s = .next t) (hi : ∀ i, Fetches s i → .st ∉ handlerWrites i) :
    t.st.toNat = s.st.toNat - if t.status = some .success then 1 else 0 := by
  obtain ⟨u, rfl, hu⟩ := step_next h
  have hst : u.st = s.st := hu.samePart (p := .st) (by decide) (by simp) hi
  rw [settled_st_toNat, settled_status, hst]

theorem step_keeps_dirty (h : step s = .next t) (hd : s.dirty = true) : t.dirty = true := by
  obtain ⟨u, rfl, hu⟩ := step_next h
  rw [settled_frame u .dirty (by decide)]
  rcases hu with ⟨_, hframe, _⟩ | hframe | ⟨i, _, hu⟩
  · exact Eq.trans (hframe .dirty (by decide)) hd
  · exact Eq.trans (hframe .dirty (by decide)) hd
  · rw [← execIn_params] at hu
    exact execIn_keeps_dirty hu hd

/-- A poll does not move `PC`. -/
theorem step_pc_of_wait (h : step s = .next t) (hw : s.wait = true) : t.pc = s.pc := by
  rw [step_of_wait hw] at h
  obtain ⟨u, rfl, hframe, _⟩ := waitPoll_next h
  exact Eq.trans (settled_frame u .pc (by decide)) (hframe .pc (by decide))

/-- No instruction is fetched while a key wait is on. -/
theorem not_fetches_of_wait (hw : s.wait = true) (i : Instr) : ¬ Fetches s i := by
  rintro ⟨hw', _⟩
  simp [hw] at hw'

/-! ### The instructions that write an item -/

section
variable {i : Instr}

theorem mem_mem_handlerWrites (h : .mem ∈ handlerWrites i) : ∃ x, i = .ldB x ∨ i = .ldMemVx x := by
  cases i <;> simp [handlerWrites] at h ⊢

theorem fb_or_dirty_mem_handlerWrites (h : .fb ∈ handlerWrites i ∨ .dirty ∈ handlerWrites i) :
    i = .cls ∨ ∃ x y n, i = .drw x y n := by
  cases i <;> simp [handlerWrites] at h ⊢

theorem stack_mem_handlerWrites (h : .stack ∈ handlerWrites i) : ∃ nnn, i = .call nnn := by
  cases i <;> simp [handlerWrites] at h ⊢

theorem sp_mem_handlerWrites (h : .sp ∈ handlerWrites i) : (∃ nnn, i = .call nnn) ∨ i = .ret := by
  cases i <;> simp [handlerWrites] at h ⊢

theorem i_mem_handlerWrites (h : .i ∈ handlerWrites i) :
    (∃ nnn, i = .ldI nnn) ∨ ∃ x, i = .addI x ∨ i = .ldF x := by
  cases i <;> simp [handlerWrites] at h ⊢

theorem dt_mem_handlerWrites (h : .dt ∈ handlerWrites i) : ∃ x, i = .ldDtVx x := by
  cases i <;> simp [handlerWrites] at h ⊢

theorem st_mem_handlerWrites (h : .st ∈ handlerWrites i) : ∃ x, i = .ldStVx x := by
  cases i <;> simp [handlerWrites] at h ⊢

theorem wait_mem_handlerWrites
    (h : .wait ∈ handlerWrites i ∨ .waitX ∈ handlerWrites i ∨ .keyPrev ∈ handlerWrites i) : ∃ x, i = .ldVxK x := by
  cases i <;> simp [handlerWrites] at h ⊢

theorem draws_mem_handlerWrites (h : .draws ∈ handlerWrites i) : ∃ x nn, i = .rnd x nn := by
  cases i <;> simp [handlerWrites] at h ⊢

theorem keys_notMem_handlerWrites (i : Instr) : .keys ∉ handlerWrites i := by
  cases i <;> simp [handlerWrites]

theorem cancel_notMem_handlerWrites (i : Instr) : .cancel ∉ handlerWrites i := by
  cases i <;> simp [handlerWrites]

end

/-- Settles O19: for each item, the instructions whose handler writes it are the named ones, so a step that fetches none
of them keeps it. -/
theorem onlyTheNamedInstructionsWrite : Obligations.OnlyTheNamedInstructionsWrite := by
  intro s t h
  refine ⟨fun _ => step_reg h, fun hno => ?mem, fun hcls hdrw => ?display, fun hcall => ?stack, fun hcall hret => ?sp,
    fun hldI hno => ?i, fun hno => ?dt, fun hno => ?st, fun hw hno => ?wait, fun hw => ⟨step_pc_of_wait h hw, ?waitX⟩,
    fun hno => ?draws, ?keys, ?cancel, step_keeps_dirty h⟩
  case mem =>
    refine step_samePart h (by decide) (by simp) fun i hi hmem => ?_
    obtain ⟨x, rfl | rfl⟩ := mem_mem_handlerWrites hmem
    · exact (hno x).1 hi
    · exact (hno x).2 hi
  case display =>
    have hwriter : ∀ i, Fetches s i → ¬ (.fb ∈ handlerWrites i ∨ .dirty ∈ handlerWrites i) := by
      intro i hi hmem
      obtain rfl | ⟨x, y, n, rfl⟩ := fb_or_dirty_mem_handlerWrites hmem
      · exact hcls hi
      · exact hdrw x y n hi
    exact ⟨step_samePart h (by decide) (by simp) fun i hi hmem => hwriter i hi (.inl hmem),
      step_samePart h (by decide) (by simp) fun i hi hmem => hwriter i hi (.inr hmem)⟩
  case stack =>
    refine step_samePart h (by decide) (by simp) fun i hi hmem => ?_
    obtain ⟨nnn, rfl⟩ := stack_mem_handlerWrites hmem
    exact hcall nnn hi
  case sp =>
    refine step_samePart h (by decide) (by simp) fun i hi hmem => ?_
    obtain ⟨nnn, rfl⟩ | rfl := sp_mem_handlerWrites hmem
    · exact hcall nnn hi
    · exact hret hi
  case i =>
    refine step_samePart h (by decide) (by simp) fun i hi hmem => ?_
    obtain ⟨nnn, rfl⟩ | ⟨x, rfl | rfl⟩ := i_mem_handlerWrites hmem
    · exact hldI nnn hi
    · exact (hno x).1 hi
    · exact (hno x).2 hi
  case dt =>
    refine step_dt h fun i hi hmem => ?_
    obtain ⟨x, rfl⟩ := dt_mem_handlerWrites hmem
    exact hno x hi
  case st =>
    refine step_st h fun i hi hmem => ?_
    obtain ⟨x, rfl⟩ := st_mem_handlerWrites hmem
    exact hno x hi
  case wait =>
    have hwriter : ∀ i, Fetches s i →
        ¬ (.wait ∈ handlerWrites i ∨ .waitX ∈ handlerWrites i ∨ .keyPrev ∈ handlerWrites i) := by
      intro i hi hmem
      obtain ⟨x, rfl⟩ := wait_mem_handlerWrites hmem
      exact hno x hi
    have hpoll : ∀ p : Part, s.wait = true → p ∉ [.v, .wait, .keyPrev] := by simp [hw]
    exact ⟨step_samePart h (by decide) (hpoll _) fun i hi hmem => hwriter i hi (.inl hmem),
      step_samePart h (by decide) (hpoll _) fun i hi hmem => hwriter i hi (.inr (.inl hmem)),
      step_samePart h (by decide) (hpoll _) fun i hi hmem => hwriter i hi (.inr (.inr hmem))⟩
  case waitX =>
    exact step_samePart h (by decide) (by simp) fun i hi => absurd hi (not_fetches_of_wait hw i)
  case draws =>
    refine step_samePart h (by decide) (by simp) fun i hi hmem => ?_
    obtain ⟨x, nn, rfl⟩ := draws_mem_handlerWrites hmem
    exact hno x nn hi
  case keys => exact step_samePart h (by decide) (by simp) fun i _ => keys_notMem_handlerWrites i
  case cancel => exact step_samePart h (by decide) (by simp) fun i _ => cancel_notMem_handlerWrites i

end Sys2Proof.Machine
end

section
/-!
PROOFS. What handlers and steps do not read: KEYS outside the key instructions (spec/10_state.md R25), ST and DIRTY
anywhere (R21, R27). A change of these items commutes with every handler that neither reads nor writes them.
-/
namespace Sys2Proof.Machine

/-! ### Handlers -/

/-- The state with KEYS, ST and DIRTY changed. -/
def State.mapUnread (gk : Word → Word) (gs : Byte → Byte) (gd : Bool → Bool) (s : State) : State :=
  { s with keys := gk s.keys, st := gs s.st, dirty := gd s.dirty }

section
variable (gk : Word → Word) (gs : Byte → Byte) (gd : Bool → Bool) (s : State)

theorem mapUnread_pc : (s.mapUnread gk gs gd).pc = s.pc := rfl

theorem skipIf_mapUnread (condition : Bool) :
    (s.mapUnread gk gs gd).skipIf condition = (s.skipIf condition).mapUnread gk gs gd := by
  cases condition <;> rfl

theorem pop?_mapUnread : (s.mapUnread gk gs gd).pop? = s.pop?.map (Prod.map id (·.mapUnread gk gs gd)) := by
  simp only [State.pop?, Option.map_map]
  rfl

theorem push?_mapUnread (w : Word) :
    (s.mapUnread gk gs gd).push? w = (s.push? w).map (·.mapUnread gk gs gd) := by
  simp only [State.push?, apply_dite (Option.map _)]
  rfl

theorem loadRegs_mapUnread (a n : Nat) :
    (s.mapUnread gk gs gd).loadRegs a n = (s.loadRegs a n).mapUnread gk gs gd := by
  induction n with
  | zero => rfl
  | succ n ih => rw [State.loadRegs, State.loadRegs, ih]; rfl

/-- A handler commutes with every change of KEYS, ST and DIRTY that leaves alone what the handler names: KEYS the key
instructions, ST `FX18`, DIRTY the drawing instructions. -/
theorem exec_mapUnread (i : Instr) (hkeys : (∃ x, i = .skp x ∨ i = .sknp x ∨ i = .ldVxK x) → gk = id)
    (hst : (∃ x, i = .ldStVx x) → gs = id) (hdirty : (i = .cls ∨ ∃ x y n, i = .drw x y n) → gd = id) :
    exec i (s.mapUnread gk gs gd) = mapNext (·.mapUnread gk gs gd) (exec i s) := by
  cases i
  case skp x =>
    obtain rfl := hkeys ⟨x, .inl rfl⟩
    exact congrArg succeed (skipIf_mapUnread id gs gd s _)
  case sknp x =>
    obtain rfl := hkeys ⟨x, .inr (.inl rfl)⟩
    exact congrArg succeed (skipIf_mapUnread id gs gd s _)
  case ldVxK x =>
    obtain rfl := hkeys ⟨x, .inr (.inr rfl)⟩
    rfl
  case ldStVx x =>
    obtain rfl := hst ⟨x, rfl⟩
    rfl
  case cls =>
    obtain rfl := hdirty (.inl rfl)
    rfl
  case drw x y n =>
    obtain rfl := hdirty (.inr ⟨x, y, n, rfl⟩)
    simp only [exec, execDrw, execDrwIn, apply_ite (mapNext _)]
    rfl
  case seImm | sneImm | seReg | sneReg => exact congrArg succeed (skipIf_mapUnread gk gs gd s _)
  case ret =>
    simp only [exec, execRet, pop?_mapUnread, apply_ite (mapNext _)]
    cases s.pop? <;> rfl
  case call =>
    simp only [exec, execCall, execCallIn, mapUnread_pc, push?_mapUnread, apply_ite (mapNext _)]
    cases s.push? (stackEntry params s.pc) <;> rfl
  case ldB | ldMemVx =>
    simp only [exec, execLdB, execLdBIn, execLdMemVx, execLdMemVxIn, apply_ite (mapNext _)]
    rfl
  case ldVxMem =>
    simp only [exec, execLdVxMem, execLdVxMemIn, loadRegs_mapUnread, apply_ite (mapNext _)]
    rfl
  all_goals rfl

end

/-- Settles O20: the replacement of KEYS is such a change. -/
theorem onlyKeyInstructionsReadKeys : Obligations.OnlyKeyInstructionsReadKeys := by
  intro i s k hi
  refine exec_mapUnread (fun _ => k) id id s i (fun ⟨x, hx⟩ => ?_) (fun _ => rfl) (fun _ => rfl)
  obtain ⟨hskp, hsknp, hwait⟩ := hi x
  rcases hx with h | h | h
  · exact absurd h hskp
  · exact absurd h hsknp
  · exact absurd h hwait

/-! ### Steps, but for ST and DIRTY -/

/-- The state with ST and DIRTY at fixed values: states that differ there only are those that are equal so. -/
def State.silenced (s : State) : State := s.mapUnread id (fun _ => 0) (fun _ => false)

section
variable {s t : State}

theorem silenced_frame (s : State) : UnchangedExcept [.st, .dirty] s s.silenced := by
  intro p hp
  cases p <;> simp [samePart, State.silenced, State.mapUnread, State.reg, State.slot?] at hp ⊢

theorem UnchangedExcept.of_silenced_eq (h : s.silenced = t.silenced) : UnchangedExcept [.st, .dirty] s t :=
  ((silenced_frame s).trans (h ▸ (silenced_frame t).symm)).mono (by decide)

theorem silenced_settled (s : State) : s.settled.silenced = s.silenced.settled := by
  by_cases h : s.status = some .success
  · rw [settled_of_success h, settled_of_success (u := s.silenced) h]; rfl
  · rw [settled_of_not_success h, settled_of_not_success (u := s.silenced) h]

theorem mapNext_silenced_endStep (o : Host.Outcome State Fault Refusal) :
    mapNext State.silenced (endStep o) = endStep (mapNext State.silenced o) := by
  cases o with
  | next u => exact congrArg Host.Outcome.next (silenced_settled u)
  | fault f => rfl
  | refused r => rfl

/-- But for ST and DIRTY, a handler's outcome does not depend on ST and DIRTY. -/
theorem mapNext_silenced_exec (i : Instr) (s : State) :
    mapNext State.silenced (exec i s.silenced) = mapNext State.silenced (exec i s) := by
  by_cases hst : ∃ x, i = .ldStVx x
  · obtain ⟨x, rfl⟩ := hst
    rfl
  by_cases hdirty : i = .cls ∨ ∃ x y n, i = .drw x y n
  · obtain rfl | ⟨x, y, n, rfl⟩ := hdirty
    · rfl
    · simp only [exec, execDrw, execDrwIn, apply_ite (mapNext _)]
      rfl
  · have hcomm : exec i s.silenced = mapNext State.silenced (exec i s) :=
      exec_mapUnread id _ _ s i (fun _ => rfl) (absurd · hst) (absurd · hdirty)
    rw [hcomm]
    cases exec i s <;> rfl

theorem mapNext_silenced_waitPoll (s : State) :
    mapNext State.silenced (waitPoll s.silenced) = mapNext State.silenced (waitPoll s) := by
  have hkeys : s.silenced.newKeys = s.newKeys := rfl
  simp only [waitPoll, hkeys, apply_ite (mapNext _)]
  cases lowestKey s.newKeys <;> rfl

/-- But for ST and DIRTY, a step's outcome does not depend on ST and DIRTY. -/
theorem mapNext_silenced_step (s : State) :
    mapNext State.silenced (step s.silenced) = mapNext State.silenced (step s) := by
  have hwait : s.silenced.wait = s.wait := rfl
  have hrange : s.silenced.fetchInRange params = s.fetchInRange params := rfl
  have hword : s.silenced.fetchWord = s.fetchWord := rfl
  unfold step beginStep
  rw [hwait, hrange, hword]
  cases s.wait
  · cases s.fetchInRange params
    · rfl
    · cases decode s.fetchWord with
      | error e => rfl
      | ok i =>
        have hexec := congrArg endStep (mapNext_silenced_exec i s.advancePc)
        rwa [← mapNext_silenced_endStep, ← mapNext_silenced_endStep] at hexec
  · exact mapNext_silenced_waitPoll s

theorem mapNext_eq_next {f : State → State} {o : Host.Outcome State Fault Refusal} {v : State}
    (h : mapNext f o = .next v) : ∃ u, o = .next u ∧ f u = v := by
  cases o <;> cases h
  exact ⟨_, rfl, rfl⟩

end

/-- Settles O21: both steps have the same outcome but for ST and DIRTY. -/
theorem soundTimerAndDirtyAreNeverRead : Obligations.SoundTimerAndDirtyAreNeverRead := by
  intro s t b d h
  have hsame : mapNext State.silenced (step { s with st := b, dirty := d }) = .next t.silenced :=
    calc mapNext State.silenced (step { s with st := b, dirty := d })
      _ = mapNext State.silenced (step s.silenced) := (mapNext_silenced_step { s with st := b, dirty := d }).symm
      _ = mapNext State.silenced (step s) := mapNext_silenced_step s
      _ = .next t.silenced := by rw [h]; rfl
  obtain ⟨u, hu, hut⟩ := mapNext_eq_next hsame
  exact ⟨u, hu, .of_silenced_eq hut.symm⟩

end Sys2Proof.Machine
end

section
/-!
PROOFS. The state that a reset leaves (spec/10_state.md R32, spec/70_reset_and_hazards.md R200, R201).
-/
namespace Sys2Proof.Machine

/-- Memory after reset holds the font from address 0 on (spec/20_memory.md R46, R47). -/
theorem read_reset (a : Nat) : State.reset.mem.read a = fontTable.getD a 0 := rfl

theorem reset_reg (r : RegIx) : State.reset.reg r = 0 := by
  simp [State.reg, State.reset]

theorem reset_slot {k : Nat} (hk : k < 16) : State.reset.slot? k = some 0 := by
  simp [State.slot?_of_lt _ hk, State.reset]

/-- Settles O24: the scalars are the fields of `State.reset`; each store is read through its lemma. -/
theorem resetLeavesTheseValues : Obligations.ResetLeavesTheseValues := by
  have hlen : fontTable.length = 80 := rfl
  refine ⟨reset_reg, rfl, rfl, fun _ => reset_slot, rfl, rfl, rfl, rfl, pixel_blankFb, rfl, rfl, rfl, rfl,
    fun a ha => ?font, hlen, fun a ha => ?zero⟩
  case font => rw [read_reset, List.getD_eq_getElem _ _ ha]
  case zero => rw [read_reset, List.getD_eq_default _ _ (by omega)]

end Sys2Proof.Machine
end

section
/-!
PROOFS. What the next fetch takes after a store (spec/20_memory.md R52): the bytes of memory that a successful `FX33`
or `FX55` leaves, and the word fetched from them.
-/
namespace Sys2Proof.Machine

section
variable {s t : State} {c : Config}

/-- An outcome that completes has one next state, so its postcondition holds of that one. -/
theorem Completes.post_of_next {o : Host.Outcome State Fault Refusal} {parts : List Part} {post : State → Prop}
    (ho : Completes o s parts post) (h : o = .next t) : post t := by
  obtain ⟨t', ht', _, _, hpost⟩ := ho
  obtain rfl : t = t' := Host.Outcome.next.inj (h.symm.trans ht')
  exact hpost

theorem not_success_of_memRange {u : State} {o : Host.Outcome State Fault Refusal}
    (herr : o = .next (u.returnStatus .memRange)) (h : o = .next t) : t.status ≠ some .success := by
  obtain rfl : t = u.returnStatus .memRange := Host.Outcome.next.inj (h.symm.trans herr)
  simp

theorem execIn_ldB_success_read {x : RegIx} (hm : Memory.wfIn c.memSize s.mem = true)
    (h : execIn c (.ldB x) s = .next t) (ht : t.status = some .success) (a : Nat) :
    t.mem.read a =
      overlay s.mem s.i.toNat 3 (fun k => BitVec.ofNat 8 ((s.reg x).toNat / 10 ^ (2 - k) % 10)) a := by
  by_cases hr : s.i.toNat + 2 < c.memSize
  · exact (execIn_ldB_completes x hr hm).post_of_next h a
  · exact absurd ht (not_success_of_memRange (execIn_ldB_out_of_range x (Nat.le_of_not_lt hr)) h)

theorem execIn_ldMemVx_success_read {x : RegIx} (hm : Memory.wfIn c.memSize s.mem = true)
    (h : execIn c (.ldMemVx x) s = .next t) (ht : t.status = some .success) (a : Nat) :
    t.mem.read a = overlay s.mem s.i.toNat (x.toNat + 1) (fun k => s.reg (BitVec.ofNat 4 k)) a := by
  by_cases hr : s.i.toNat + x.toNat < c.memSize
  · exact (execIn_ldMemVx_completes x hr hm).post_of_next h a
  · exact absurd ht (not_success_of_memRange (execIn_ldMemVx_out_of_range x (Nat.le_of_not_lt hr)) h)

/-- A step that fetches an instruction is its handler on the advanced `PC`, then the countdown. -/
theorem Fetches.step_next {i : Instr} (hf : Fetches s i) (h : step s = .next t) :
    ∃ u, execIn params i s.advancePc = .next u ∧ t = u.settled := by
  rw [step_of_fetches hf, ← execIn_params] at h
  exact endStep_next.mp h

/-- If the step succeeds, so does the handler, and the countdown does not touch memory. -/
theorem Fetches.step_success {i : Instr} (hf : Fetches s i) (h : step s = .next t) (ht : t.status = some .success) :
    ∃ u, execIn params i s.advancePc = .next u ∧ u.status = some .success ∧ t.mem = u.mem := by
  obtain ⟨u, hu, rfl⟩ := hf.step_next h
  exact ⟨u, hu, by rwa [settled_status] at ht, settled_mem u⟩

/-- The fetched word is made of the bytes that memory reads as at `PC` and `PC + 1`. -/
theorem fetchWord_of_read {byte : Nat → Byte} (h : ∀ a, s.mem.read a = byte a) :
    s.fetchWord = joinBytes (byte s.pc.toNat) (byte (s.pc.toNat + 1)) := by
  rw [State.fetchWord, h, h]

end

/-- Settles O22: the successful store leaves in memory the overlay of its bytes, and the fetch reads its two bytes
there. -/
theorem storeIsSeenByTheNextFetch : Obligations.StoreIsSeenByTheNextFetch := by
  intro s t u x hm h ht hmem
  refine ⟨fun hf => ?ldMemVx, fun hf => ?ldB⟩
  case ldMemVx =>
    obtain ⟨t', ht', hok, hmem'⟩ := hf.step_success h ht
    refine fetchWord_of_read fun a => ?_
    rw [hmem, hmem']
    exact execIn_ldMemVx_success_read hm ht' hok a
  case ldB =>
    obtain ⟨t', ht', hok, hmem'⟩ := hf.step_success h ht
    refine fetchWord_of_read fun a => ?_
    rw [hmem, hmem']
    exact execIn_ldB_success_read hm ht' hok a

end Sys2Proof.Machine
end

section
/-!
PROOFS. What becomes of `PC` and of the return addresses, said once: the values that a handler may leave in them. From
it, that both stay even as long as every jump target is even (spec/20_memory.md R45, spec/10_state.md R14).
-/
namespace Sys2Proof.Machine

section
variable {s t : State} {c : Config} {i : Instr}

/-- A handler leaves `PC`, or skips, or jumps to its address, or to the indexed address, or returns to an address in a
slot. -/
theorem execIn_pc (h : execIn c i s = .next t) :
    t.pc = s.pc ∨ t.pc = s.pc + 2#16 ∨
    (∃ nnn, (i = .jp nnn ∨ i = .call nnn) ∧ t.pc = addrOperand nnn) ∨
    (∃ nnn, i = .jpV0 nnn ∧ t.pc = addrOperand nnn + zext16 (s.reg 0)) ∨
    ∃ k : Fin 16, t.pc = s.stack[k] := by
  by_cases hw : .pc ∈ handlerWrites i
  · cases i
    case jp nnn =>
      rw [succeed_next _ h]
      exact .inr (.inr (.inl ⟨nnn, .inl rfl, rfl⟩))
    case jpV0 nnn =>
      rw [succeed_next _ h]
      exact .inr (.inr (.inr (.inl ⟨nnn, rfl, rfl⟩)))
    case call nnn =>
      rcases call_next h with rfl | ⟨_, _, rfl⟩
      · exact .inl rfl
      · exact .inr (.inr (.inl ⟨nnn, .inr rfl, rfl⟩))
    case ret =>
      rcases ret_next h with rfl | ⟨_, hk, rfl⟩
      · exact .inl rfl
      · exact .inr (.inr (.inr (.inr ⟨⟨_, hk⟩, rfl⟩)))
    case seImm | sneImm | seReg | sneReg | skp | sknp =>
      rw [succeed_next _ h, State.returnStatus_pc, State.skipIf_pc]
      split
      · exact .inr (.inl rfl)
      · exact .inl rfl
    all_goals simp [handlerWrites] at hw
  · exact .inl (execIn_frame h .pc (by simp [hw]))

/-- The slots of two states with the same stack hold the same return addresses. -/
theorem samePart.stack_getElem (h : samePart .stack s t) (k : Fin 16) : t.stack[k] = s.stack[k] :=
  Option.some.inj (((t.slot?_of_lt k.isLt).symm.trans (h k)).trans (s.slot?_of_lt k.isLt))

/-- A handler leaves each return address, or puts `PC` in its place. -/
theorem exec_stack (h : exec i s = .next t) (k : Fin 16) : t.stack[k] = s.stack[k] ∨ t.stack[k] = s.pc := by
  rw [← execIn_params] at h
  by_cases hw : .stack ∈ handlerWrites i
  · obtain ⟨nnn, rfl⟩ := stack_mem_handlerWrites hw
    rcases call_next h with rfl | ⟨_, hsp, rfl⟩
    · exact .inl rfl
    · rw [stackEntry_params]
      have hset : ((s.called s.pc (addrOperand nnn) hsp).returnStatus .success).stack[k] =
          if s.sp.toNat = k then s.pc else s.stack[k] := Vector.getElem_set hsp k.isLt
      rw [hset]
      split
      · exact .inr rfl
      · exact .inl rfl
  · exact .inl ((execIn_frame h .stack (by simp [hw])).stack_getElem k)

/-! ### Evenness -/

theorem PcEven.of_samePart (hs : PcEven s) (hpc : samePart .pc s t) (hstack : samePart .stack s t) : PcEven t := by
  refine ⟨?_, fun k => ?_⟩
  · rw [show t.pc = s.pc from hpc]; exact hs.1
  · rw [hstack.stack_getElem k]; exact hs.2 k

/-- The advance by two keeps evenness, also where it wraps. -/
theorem even_add_two {w : Word} (h : w.toNat % 2 = 0) : (w + 2#16).toNat % 2 = 0 := by
  bv_omega

/-- The indexed target is the sum of the address and `V0`: no 16-bit wrap-around. -/
theorem indexedTarget_toNat (nnn : Addr12) (b : Byte) :
    (addrOperand nnn + zext16 b).toNat = nnn.toNat + b.toNat := by
  have hb : (zext16 b).toNat = b.toNat := by
    simp only [zext16, BitVec.truncate_eq_setWidth, BitVec.toNat_setWidth]
    omega
  rw [BitVec.toNat_add, addrOperand_toNat, hb]
  omega

theorem PcEven.advancePc (hs : PcEven s) : PcEven s.advancePc := ⟨even_add_two hs.1, hs.2⟩

theorem exec_keeps_pcEven (h : exec i s = .next t) (hs : PcEven s)
    (hjump : ∀ nnn, i = .jp nnn ∨ i = .call nnn → nnn.toNat % 2 = 0)
    (hindexed : ∀ nnn, i = .jpV0 nnn → (nnn.toNat + (s.reg 0).toNat) % 2 = 0) : PcEven t := by
  obtain ⟨hpc, hstack⟩ := hs
  refine ⟨?pc, fun k => ?stack⟩
  case pc =>
    rw [← execIn_params] at h
    rcases execIn_pc h with h' | h' | ⟨nnn, hi, h'⟩ | ⟨nnn, hi, h'⟩ | ⟨k, h'⟩ <;> rw [h']
    · exact hpc
    · exact even_add_two hpc
    · rw [addrOperand_toNat]; exact hjump nnn hi
    · rw [indexedTarget_toNat]; exact hindexed nnn hi
    · exact hstack k
  case stack =>
    rcases exec_stack h k with h' | h' <;> rw [h']
    · exact hstack k
    · exact hpc

end

/-- Settles O18: a poll and a failed fetch leave `PC` and the slots; the advance keeps them even, and so does the
handler, which moves `PC` by two, to a target or to a return address. -/
theorem pcStaysEvenWithEvenTargets : Obligations.PcStaysEvenWithEvenTargets := by
  intro s t hs h hjump hindexed
  rcases step_cases s with ⟨hw, h'⟩ | ⟨_, _, h'⟩ | ⟨_, _, _, h'⟩ | ⟨i, hi, h'⟩
  · have hstack : samePart .stack s t :=
      step_samePart h (by decide) (by simp) fun i hf => absurd hf (not_fetches_of_wait hw i)
    exact hs.of_samePart (step_pc_of_wait h hw) hstack
  · obtain rfl := Host.Outcome.next.inj (h.symm.trans h')
    exact hs
  · obtain rfl := Host.Outcome.next.inj (h.symm.trans h')
    exact hs.advancePc
  · obtain ⟨u, hu, rfl⟩ := hi.step_next h
    rw [execIn_params] at hu
    have hu' : PcEven u := by
      refine exec_keeps_pcEven hu hs.advancePc (fun nnn hn => hjump nnn ?_) fun nnn hn => hindexed nnn (hn ▸ hi)
      rcases hn with rfl | rfl
      · exact .inl hi
      · exact .inr hi
    exact hu'.of_samePart (settled_frame u .pc (by decide)) (settled_frame u .stack (by decide))

end Sys2Proof.Machine
end

section
/-!
PROOFS. The decoder, the encoder and the opcode map (spec/30_encoding.md R61 to R68). What the decoder may answer for a
word is said once, in `decode_answers`: an instruction whose word it is, or a rejection by a class of R67 that has it.
-/
namespace Sys2Proof

section
variable {w : Word} {i : Instr} {e : Reject} {r : OpcodeRow} {op : BitVec 4}

/-! ### A word from its fields, format by format -/

theorem encA_of_fields (hop : (opField w).toNat = op.toNat) : encA op (nnnField w) = w :=
  BitVec.eq_of_toNat_eq hop ▸ encA_fields w

theorem encRI_of_fields (hop : (opField w).toNat = op.toNat) : encRI op (xField w) (nnField w) = w :=
  BitVec.eq_of_toNat_eq hop ▸ encRI_fields w

theorem encRS_of_fields {nn : Byte} (hop : (opField w).toNat = op.toNat) (hnn : (nnField w).toNat = nn.toNat) :
    encRI op (xField w) nn = w :=
  BitVec.eq_of_toNat_eq hnn ▸ encRI_of_fields hop

theorem encRRN_of_fields (hop : (opField w).toNat = op.toNat) : encRR op (xField w) (yField w) (nField w) = w :=
  BitVec.eq_of_toNat_eq hop ▸ encRR_fields w

theorem encRR_of_fields {n : Nibble} (hop : (opField w).toNat = op.toNat) (hn : (nField w).toNat = n.toNat) :
    encRR op (xField w) (yField w) n = w :=
  BitVec.eq_of_toNat_eq hn ▸ encRRN_of_fields hop

theorem encA_eq_iff {nnn : Addr12} : encA op nnn = w ↔ op = opField w ∧ nnn = nnnField w := by
  constructor
  · rintro rfl
    simp
  · rintro ⟨rfl, rfl⟩
    exact encA_fields w

/-- `SYS` is well formed exactly if its word is neither that of `CLS` nor that of `RET` (spec/30_encoding.md R64). -/
theorem wellFormed_sys_iff {nnn : Addr12} :
    (Instr.sys nnn).wellFormed = true ↔ encA 0x0#4 nnn ≠ 0x00E0#16 ∧ encA 0x0#4 nnn ≠ 0x00EE#16 := by
  simp [Instr.wellFormed, encA_eq_iff, opField, nnnField]

/-! ### What the decoder answers -/

/-- The words of a class of spec/30_encoding.md R67. -/
def Reject.covers : Reject → Word → Bool
  | .family5, w => opField w == 0x5 && nField w != 0
  | .family8, w => opField w == 0x8 && ([0x8, 0x9, 0xA, 0xB, 0xC, 0xD, 0xF] : List Nibble).contains (nField w)
  | .family9, w => opField w == 0x9 && nField w != 0
  | .familyE, w => opField w == 0xE && !([0x9E, 0xA1] : List Byte).contains (nnField w)
  | .familyF, w => opField w == 0xF &&
      !([0x07, 0x0A, 0x15, 0x18, 0x1E, 0x29, 0x33, 0x55, 0x65] : List Byte).contains (nnField w)

/-- An answer that fits a word: a well-formed instruction whose word it is, or a class that has it. -/
def AnswersFor (w : Word) : Except Reject Instr → Prop
  | .ok i => encode i = w ∧ i.wellFormed = true
  | .error e => e.covers w = true

theorem decodeFamily0_answers (hop : (opField w).toNat = 0x0) : AnswersFor w (.ok (decodeFamily0 w)) := by
  have hw : encA 0x0#4 (nnnField w) = w := encA_of_fields hop
  unfold decodeFamily0
  split
  case isTrue hcls => exact ⟨hcls.symm, rfl⟩
  case isFalse hcls =>
    split
    case isTrue hret => exact ⟨hret.symm, rfl⟩
    case isFalse hret => exact ⟨hw, wellFormed_sys_iff.mpr (by rw [hw]; exact ⟨hcls, hret⟩)⟩

theorem decodeFamily8_answers (hop : (opField w).toNat = 0x8) :
    AnswersFor w (decodeFamily8 (xField w) (yField w) (nField w)) := by
  unfold decodeFamily8
  split
  case h_10 =>
    have hlt := (nField w).isLt
    simp only [imp_false] at *
    simp [AnswersFor, Reject.covers, ← BitVec.toNat_inj, hop]
    omega
  all_goals exact ⟨encRR_of_fields hop ‹_›, rfl⟩

theorem decodeFamilyE_answers (hop : (opField w).toNat = 0xE) :
    AnswersFor w (decodeFamilyE (xField w) (nnField w)) := by
  unfold decodeFamilyE
  split
  case h_3 => simp_all [AnswersFor, Reject.covers, ← BitVec.toNat_inj]
  all_goals exact ⟨encRS_of_fields hop ‹_›, rfl⟩

theorem decodeFamilyF_answers (hop : (opField w).toNat = 0xF) :
    AnswersFor w (decodeFamilyF (xField w) (nnField w)) := by
  unfold decodeFamilyF
  split
  case h_10 => simp_all [AnswersFor, Reject.covers, ← BitVec.toNat_inj]
  all_goals exact ⟨encRS_of_fields hop ‹_›, rfl⟩

/-- The families in the decoder's order: those with a second level are said above, the others have one format. -/
theorem decode_answers (w : Word) : AnswersFor w (decode w) := by
  unfold decode
  split
  case h_1 hop => exact decodeFamily0_answers hop
  case h_2 hop | h_3 hop | h_11 hop | h_12 hop => exact ⟨encA_of_fields hop, rfl⟩
  case h_4 hop | h_5 hop | h_7 hop | h_8 hop | h_13 hop => exact ⟨encRI_of_fields hop, rfl⟩
  case h_6 hop | h_10 hop =>
    split
    case isTrue hn => exact ⟨encRR_of_fields hop (congrArg BitVec.toNat hn), rfl⟩
    case isFalse hn => simpa [AnswersFor, Reject.covers, ← BitVec.toNat_inj, hop] using hn
  case h_9 hop => exact decodeFamily8_answers hop
  case h_14 hop => exact ⟨encRRN_of_fields hop, rfl⟩
  case h_15 hop => exact decodeFamilyE_answers hop
  case h_16 =>
    have hlt := (opField w).isLt
    simp only [imp_false] at *
    exact decodeFamilyF_answers (by omega)

theorem encode_of_decode (h : decode w = .ok i) : encode i = w ∧ i.wellFormed = true := by
  have hw := decode_answers w
  rwa [h] at hw

theorem covers_of_decode (h : decode w = .error e) : e.covers w = true := by
  have hw := decode_answers w
  rwa [h] at hw

/-! ### The decoder takes back what the encoder writes -/

theorem decode_sys (hop : opField w = 0x0) (hcls : w ≠ 0x00E0#16) (hret : w ≠ 0x00EE#16) :
    decode w = .ok (.sys (nnnField w)) := by
  simp [decode, decodeFamily0, hop, hcls, hret]

/-- Each format gives back its fields, and each selector picks its instruction. -/
theorem decode_encode (h : i.wellFormed = true) : decode (encode i) = .ok i := by
  cases i
  case cls | ret => rfl
  case sys nnn =>
    obtain ⟨hcls, hret⟩ := wellFormed_sys_iff.mp h
    simpa [encode] using decode_sys (opField_encA _ nnn) hcls hret
  case jp | call | ldI | jpV0 => simp [decode, encode]
  case seImm | sneImm | ldImm | addImm | rnd => simp [decode, encode]
  case seReg | sneReg | drw => simp [decode, encode]
  case ldReg | orReg | andReg | xorReg | addReg | sub | shr | subn | shl => simp [decode, encode, decodeFamily8]
  case skp | sknp => simp [decode, encode, decodeFamilyE]
  all_goals simp [decode, encode, decodeFamilyF]

theorem decodeTableWord_toNat (w : Word) : decodeTableWord 16 w.toNat = (decode w).toOption := by
  have hw : tableWord 16 w.toNat = w := by
    rw [tableWord, Nat.mod_eq_of_lt w.isLt, BitVec.ofNat_toNat, BitVec.setWidth_eq]
  simp only [decodeTableWord, decodeBytes, hw, joinBytes_hi_lo]

/-! ### The row of an instruction -/

theorem row_mem_opcodeTable (i : Instr) : i.row ∈ opcodeTable := by
  cases i <;> simp [Instr.row, opcodeTable, opcodeRows1, opcodeRows2, opcodeRows3]

/-- The word of an instruction selects the instruction's row, format by format. -/
theorem row_selects_encode (i : Instr) : i.row.selects (encode i) = true := by
  cases i
  case cls | ret => rfl
  case sys nnn | jp nnn | call nnn | ldI nnn | jpV0 nnn => exact Laws.selects_encA _ _ nnn
  case seImm x nn | sneImm x nn | ldImm x nn | addImm x nn | rnd x nn => exact Laws.selects_encRI _ _ x nn
  case drw x y n => exact Laws.selects_encRRN _ _ x y n
  case skp x | sknp x | ldVxDt x | ldVxK x | ldDtVx x | ldStVx x | addI x | ldF x | ldB x | ldMemVx x | ldVxMem x =>
    exact Laws.selects_encRS _ _ x _
  all_goals exact Laws.selects_encRR _ _ _ _ _

theorem row_selects_of_decode (h : decode w = .ok i) : i.row.selects w = true :=
  (encode_of_decode h).1 ▸ row_selects_encode i

/-! ### The rows that a word selects -/

theorem selects_iff : r.selects w = true ↔ w &&& r.mask = r.pattern := beq_iff_eq

/-- A field that the mask of a selected row keeps whole is the field of the row's pattern. -/
theorem extractLsb'_of_selects {a n : Nat} (h : r.selects w = true)
    (hmask : r.mask.extractLsb' a n = BitVec.allOnes n) : w.extractLsb' a n = r.pattern.extractLsb' a n := by
  rw [← selects_iff.mp h, BitVec.extractLsb'_and, hmask, BitVec.and_allOnes]

theorem opField_mask : ∀ r ∈ opcodeTable, opField r.mask = BitVec.allOnes 4 := by decide

theorem nField_mask : ∀ r ∈ opcodeTable, opField r.pattern ∈ ([0x5, 0x8, 0x9] : List (BitVec 4)) →
    nField r.mask = BitVec.allOnes 4 := by decide

theorem nnField_mask : ∀ r ∈ opcodeTable, opField r.pattern ∈ ([0xE, 0xF] : List (BitVec 4)) →
    nnField r.mask = BitVec.allOnes 8 := by decide

theorem covers_pattern : ∀ r ∈ opcodeTable, e.covers r.pattern = false := by
  cases e <;> decide

/-- A class looks only at fields that the masks of its family's rows keep whole: if a word of the class selected a row,
the row's pattern would be of the class too, and no pattern is. -/
theorem not_selects_of_covers (hc : e.covers w = true) (hr : r ∈ opcodeTable) : r.selects w = false := by
  by_contra hs
  rw [Bool.not_eq_false] at hs
  have hop : opField w = opField r.pattern := extractLsb'_of_selects hs (opField_mask r hr)
  have hn hf : nField w = nField r.pattern := extractLsb'_of_selects hs (nField_mask r hr hf)
  have hnn hf : nnField w = nnField r.pattern := extractLsb'_of_selects hs (nnField_mask r hr hf)
  refine Bool.eq_false_iff.mp (covers_pattern (e := e) r hr) ?_
  cases e
  case family5 | family8 | family9 =>
    simp only [Reject.covers, Bool.and_eq_true, beq_iff_eq, hop] at hc ⊢
    rwa [← hn (by simp [hc.1])]
  case familyE | familyF =>
    simp only [Reject.covers, Bool.and_eq_true, beq_iff_eq, hop] at hc ⊢
    rwa [← hnn (by simp [hc.1])]

/-- Of two rows with a common word, the one with the larger mask fixes every bit. -/
theorem mask_le_or_eq_allOnes : ∀ r ∈ opcodeTable, ∀ q ∈ opcodeTable,
    r.pattern &&& q.mask = q.pattern &&& r.mask → r.mask.toNat ≤ q.mask.toNat ∨ r.mask = BitVec.allOnes 16 := by
  decide

theorem row_of_decode_pattern : ∀ r ∈ opcodeTable, (decode r.pattern).map Instr.row = .ok r := by decide

theorem row_eq_of_mask_allOnes (hr : r ∈ opcodeTable) (hs : r.selects w = true) (hmask : r.mask = BitVec.allOnes 16)
    (hd : decode w = .ok i) : i.row = r := by
  have hw : w = r.pattern := by rw [← selects_iff.mp hs, hmask, BitVec.and_allOnes]
  have hrow := row_of_decode_pattern r hr
  rw [← hw, hd] at hrow
  exact Except.ok.inj hrow

/-- No row that a word selects has a larger mask than the decoded instruction's (spec/30_encoding.md R66). -/
theorem mask_le_of_decode (hr : r ∈ opcodeTable) (hs : r.selects w = true) (hd : decode w = .ok i) :
    r.mask.toNat ≤ i.row.mask.toNat := by
  have hcommon : r.pattern &&& i.row.mask = i.row.pattern &&& r.mask := by
    rw [← selects_iff.mp hs, ← selects_iff.mp (row_selects_of_decode hd)]
    ac_rfl
  rcases mask_le_or_eq_allOnes r hr _ (row_mem_opcodeTable i) hcommon with hle | hmask
  · exact hle
  · rw [row_eq_of_mask_allOnes hr hs hmask hd]

/-! ### The rejected words -/

/-- The three descriptions of an invalid word: by the decoder, by the classes and by the opcode map. -/
theorem rejected_tfae (w : Word) : List.TFAE [∃ e, decode w = .error e, ∃ e : Reject, e.covers w = true,
    ∀ r ∈ opcodeTable, r.selects w = false] := by
  tfae_have 1 → 2 := fun ⟨e, h⟩ => ⟨e, covers_of_decode h⟩
  tfae_have 2 → 3 := fun ⟨_, hc⟩ _ hr => not_selects_of_covers hc hr
  tfae_have 3 → 1 := fun hnone => by
    cases hd : decode w with
    | error e => exact ⟨e, rfl⟩
    | ok i => exact absurd (row_selects_of_decode hd) (Bool.eq_false_iff.mp (hnone _ (row_mem_opcodeTable i)))
  tfae_finish

theorem exists_covers_iff : (∃ e : Reject, e.covers w = true) ↔
    Reject.family5.covers w = true ∨ Reject.family9.covers w = true ∨ Reject.family8.covers w = true ∨
      Reject.familyE.covers w = true ∨ Reject.familyF.covers w = true := by
  constructor
  · rintro ⟨e, hc⟩
    cases e <;> simp [hc]
  · rintro (hc | hc | hc | hc | hc) <;> exact ⟨_, hc⟩

theorem exists_decode_sys_iff :
    (∃ nnn, decode w = .ok (.sys nnn)) ↔ opField w = 0x0 ∧ w ≠ 0x00E0 ∧ w ≠ 0x00EE := by
  constructor
  · rintro ⟨nnn, hd⟩
    obtain ⟨rfl, hwf⟩ := encode_of_decode hd
    exact ⟨opField_encA _ _, wellFormed_sys_iff.mp hwf⟩
  · rintro ⟨hop, hcls, hret⟩
    exact ⟨_, decode_sys hop hcls hret⟩

end

/-! ### The statements -/

/-- Settles O1: `decode_encode`, and the host's numbering of a word decodes as the word does. -/
theorem decodeOfEncodeIsIdentity : Obligations.DecodeOfEncodeIsIdentity := by
  intro i h
  refine ⟨decode_encode h, ?_⟩
  rw [decodeTableWord_toNat, decode_encode h]
  rfl

/-- Settles O2: the answers of the decoder that are instructions. -/
theorem encodeOfDecodeIsIdentity : Obligations.EncodeOfDecodeIsIdentity :=
  fun _ _ => encode_of_decode

/-- Settles O3: the decoded instruction's row is selected and no selected row has a larger mask; a word is rejected
exactly if it selects no row. -/
theorem decodeFollowsTheOpcodeMap : Obligations.DecodeFollowsTheOpcodeMap := fun w =>
  ⟨fun i hd => ⟨row_mem_opcodeTable i, row_selects_of_decode hd, fun _ hr hs => mask_le_of_decode hr hs hd⟩,
    (rejected_tfae w).out 0 2⟩

/-- Settles O4: a word is rejected exactly if a class has it, and the words of `SYS` are those of its instructions that
are well formed. -/
theorem illegalWordsAreTheListedClasses : Obligations.IllegalWordsAreTheListedClasses := by
  intro w
  refine ⟨((rejected_tfae w).out 0 1).trans (exists_covers_iff.trans ?_), exists_decode_sys_iff⟩
  simp [Reject.covers]

end Sys2Proof
end

section
/-!
PROOFS. The cycle (spec/40_cycle.md): a step that fetches an instruction, a step that cannot fetch, and the placing of
an instruction where the step fetches.
-/
namespace Sys2Proof.Machine

section
variable {s : State}

/-! ### The step -/

/-- No arm of the dispatch is without a meaning. -/
theorem exec_ne_refused (i : Instr) (s : State) (r : Refusal) : exec i s ≠ .refused r := by
  rcases exec_ends s i with ⟨_, h, _⟩ | ⟨_, _, h, _⟩ | ⟨_, _, h⟩ | ⟨_, _, h⟩ <;> simp [h]

theorem step_of_fetch_out_of_range (hw : s.wait = false) (hr : memSize ≤ s.pc.toNat + 1) :
    step s = .next (s.returnStatus .memRange) :=
  (stepIn_params s).symm.trans (stepIn_of_fetch_out_of_range hw hr)

/-! ### Placing a word (log 26) -/

theorem tableWord_toNat (w : Word) : tableWord 16 w.toNat = w := by
  rw [tableWord, Nat.mod_eq_of_lt w.isLt, BitVec.ofNat_toNat, BitVec.setWidth_eq]

theorem placeWord_pc (s : State) (w : Word) :
    (s.placeWord w).pc = if s.fetchInRange params then s.pc else BitVec.ofNat 16 programBase := rfl

/-- A word is placed where both its bytes can be fetched. -/
theorem placeWord_pc_in_range (s : State) (w : Word) : (s.placeWord w).pc.toNat + 1 < memSize := by
  rw [placeWord_pc]
  split
  · exact (fetchInRange_iff s params).mp ‹_›
  · decide

/-- In a memory in canonical form the word placed is the word fetched. -/
theorem fetchWord_placeWord (hm : s.mem.wf = true) (w : Word) : (s.placeWord w).fetchWord = w := by
  have hpc := placeWord_pc_in_range s w
  have hread : ∀ j (hj : j < 2),
      (s.placeWord w).mem.read ((s.placeWord w).pc.toNat + j) = [hiByte w, loByte w][j] :=
    Memory.read_writeBytes_inside hm [hiByte w, loByte w] hpc
  have hhi : (s.placeWord w).mem.read (s.placeWord w).pc.toNat = hiByte w := hread 0 (by decide)
  have hlo : (s.placeWord w).mem.read ((s.placeWord w).pc.toNat + 1) = loByte w := hread 1 (by decide)
  rw [State.fetchWord, hhi, hlo, joinBytes_hi_lo]

end

/-! ### The statements -/

/-- Settles O6: such a step is the handler on the advanced `PC` followed by the countdown, which is `State.settled`. -/
theorem stepRunsTheDecodedInstruction : Obligations.StepRunsTheDecodedInstruction := by
  intro s i hf
  have hstep : step s = endStep (exec i { s with pc := s.pc + 2 }) := step_of_fetches hf
  refine ⟨fun u hu => ⟨u.settled, hstep.trans (endStep_of_next hu), settled_frame u, fun hs => ?success,
    fun hs => ?other⟩, fun f hfault => ?fault, exec_ne_refused i _⟩
  case success => rw [settled_dt_toNat, settled_st_toNat, if_pos hs]; exact ⟨rfl, rfl⟩
  case other => rw [settled_of_not_success hs]; exact ⟨rfl, rfl⟩
  case fault => rw [hstep, hfault]; rfl

/-- Settles O8: the step returns MEM_RANGE on the state as it is. -/
theorem fetchBeyondMemoryChangesNothing : Obligations.FetchBeyondMemoryChangesNothing := fun s hw hr =>
  ⟨_, step_of_fetch_out_of_range hw hr, rfl, Bool.or_true _, returnStatus_frame s .memRange⟩

/-- Settles O23: the placed word is fetched, and it decodes to the instruction by `decode_encode`. -/
theorem placedInstructionIsFetched : Obligations.PlacedInstructionIsFetched := by
  intro s i ⟨hm, _⟩ hi
  rw [State.withFetchWord, tableWord_toNat]
  refine ⟨rfl, placeWord_pc_in_range s _, ?_⟩
  rw [fetchWord_placeWord hm, decode_encode hi]

end Sys2Proof.Machine
end

section
/-!
PROOFS. Control transfer (spec/41_flow.md): jumps, calls and returns, a call and the return that answers it, and the
bounds on `PC` and on the return addresses that all of them keep (R95).
-/
namespace Sys2Proof.Machine

section
variable {s t : State} {i : Instr}

/-! ### The return (spec/41_flow.md R92) -/

theorem exec_ret_underflow (h : s.sp.toNat = 0) : exec .ret s = .next (s.returnStatus .stackUnderflow) := by
  rcases execRet_cases s with ⟨_, h'⟩ | ⟨h0, _⟩ | ⟨hgt, _⟩
  · exact h'
  · exact absurd (BitVec.eq_of_toNat_eq h) h0
  · omega

theorem exec_ret_pops (hpos : 1 ≤ s.sp.toNat) (hs : s.sp.toNat - 1 < 16) :
    exec .ret s = succeed (s.returned hs) := by
  rcases execRet_cases s with ⟨h0, _⟩ | ⟨_, _, h'⟩ | ⟨hgt, _⟩
  · simp [h0] at hpos
  · exact h'
  · omega

theorem exec_ret_faults (h : 16 < s.sp.toNat) : exec .ret s = .fault .stackSlotAbsent := by
  rcases execRet_cases s with ⟨h0, _⟩ | ⟨_, hs, _⟩ | ⟨_, h'⟩
  · simp [h0] at h
  · omega
  · exact h'

theorem returned_sp (hpos : 1 ≤ s.sp.toNat) (hs : s.sp.toNat - 1 < 16) :
    (s.returned hs).sp.toNat = s.sp.toNat - 1 := by
  simp only [State.returned, State.setPc_sp]
  bv_omega

theorem exec_ret_completes (hpos : 1 ≤ s.sp.toNat) (hle : s.sp.toNat ≤ 16) :
    CompletesWith .ret s [.pc, .sp] fun t =>
      t.sp.toNat = s.sp.toNat - 1 ∧ s.slot? (s.sp.toNat - 1) = some t.pc := by
  have hs : s.sp.toNat - 1 < 16 := by omega
  rw [CompletesWith, exec_ret_pops hpos hs]
  exact completes_succeed (returned_frame hs) ⟨returned_sp hpos hs, s.slot?_of_lt hs⟩

/-! ### The call (spec/41_flow.md R93) -/

theorem exec_call_overflow (nnn : Addr12) (h : s.sp.toNat = 16) :
    exec (.call nnn) s = .next (s.returnStatus .stackOverflow) :=
  execIn_call_overflow (c := params) nnn h

theorem exec_call_faults (nnn : Addr12) (h : 16 < s.sp.toNat) : exec (.call nnn) s = .fault .stackSlotAbsent :=
  execIn_call_faults (c := params) nnn h.ne' h.le

/-- At the spec's width of a slot the whole `PC` is pushed. -/
theorem exec_call_pushes (nnn : Addr12) (hs : s.sp.toNat < 16) :
    exec (.call nnn) s = succeed (s.called s.pc (addrOperand nnn) hs) := by
  have h := execIn_call_pushes (c := params) nnn hs.ne hs
  rwa [stackEntry_params] at h

theorem exec_call_completes (nnn : Addr12) (hs : s.sp.toNat < 16) :
    CompletesWith (.call nnn) s [.pc, .sp, .stack] fun t =>
      t.pc.toNat = nnn.toNat ∧ t.sp.toNat = s.sp.toNat + 1 ∧ t.slot? s.sp.toNat = some s.pc ∧
      ∀ k, k ≠ s.sp.toNat → t.slot? k = s.slot? k := by
  rw [CompletesWith, exec_call_pushes nnn hs]
  refine completes_succeed (called_frame _ _ hs) ⟨addrOperand_toNat nnn, ?sp, ?top, ?others⟩
  case sp => exact called_sp s.pc (addrOperand nnn) hs
  case top => exact called_slot_same s.pc (addrOperand nnn) hs
  case others => exact fun _ => called_slot_ne s.pc (addrOperand nnn) hs

/-! ### A step whose handler completes -/

/-- Such a step is the completed handler on the advanced `PC`, then one countdown. -/
theorem Fetches.step_of_completes {parts : List Part} {post : State → Prop} (hf : Fetches s i)
    (h : CompletesWith i s.advancePc parts post) :
    ∃ u, step s = .next u.countdown ∧ u.status = some .success ∧
      UnchangedExcept (.status :: parts) s.advancePc u ∧ post u := by
  obtain ⟨u, hu, hstatus, hframe, hpost⟩ := h
  refine ⟨u, ?_, hstatus, hframe, hpost⟩
  rw [step_of_fetches hf, endStep_of_next hu, settled_of_success hstatus]

/-! ### Bounds (spec/41_flow.md R95) -/

theorem PcBounded.of_samePart (hs : PcBounded s) (hpc : samePart .pc s t) (hstack : samePart .stack s t) :
    PcBounded t := by
  obtain ⟨hbound, hslots⟩ := hs
  refine ⟨?_, fun k => ?_⟩
  · rw [show t.pc = s.pc from hpc]; exact hbound
  · rw [hstack.stack_getElem k]; exact hslots k

/-- Past a word in memory `PC` is at most the size of memory. -/
theorem advancePc_pc_le (h : s.pc.toNat + 1 < memSize) : s.advancePc.pc.toNat ≤ 0x1000 := by
  rw [State.advancePc_pc]
  unfold memSize at h
  bv_omega

/-- The farthest that a handler goes is the indexed jump to 0xFFF + 0xFF = 0x10FE. -/
theorem exec_keeps_pcBounded (h : exec i s = .next t) (hpc : s.pc.toNat ≤ 0x1000)
    (hslots : ∀ k : Fin 16, s.stack[k].toNat ≤ 0x1000) : PcBounded t := by
  refine ⟨?pc, fun k => ?stack⟩
  case pc =>
    rw [← execIn_params] at h
    rcases execIn_pc h with h' | h' | ⟨nnn, _, h'⟩ | ⟨nnn, _, h'⟩ | ⟨k, h'⟩ <;> rw [h']
    · omega
    · bv_omega
    · rw [addrOperand_toNat]; omega
    · rw [indexedTarget_toNat]; omega
    · exact (hslots k).trans (by decide)
  case stack =>
    rcases exec_stack h k with h' | h' <;> rw [h']
    · exact hslots k
    · exact hpc

end

/-! ### The statements -/

/-- Settles O17: a poll and a failed fetch leave `PC` and the slots; otherwise `PC` was in memory, so past the word it
is at most 0x1000, and from there a handler keeps the bounds. -/
theorem pcStaysBounded : Obligations.PcStaysBounded := by
  intro s t hs h
  rcases step_cases s with ⟨hw, h'⟩ | ⟨_, _, h'⟩ | ⟨_, hr, _, h'⟩ | ⟨i, hi, h'⟩
  · have hstack : samePart .stack s t :=
      step_samePart h (by decide) (by simp) fun i hf => absurd hf (not_fetches_of_wait hw i)
    exact hs.of_samePart (step_pc_of_wait h hw) hstack
  · obtain rfl := Host.Outcome.next.inj (h.symm.trans h')
    exact hs
  · obtain rfl := Host.Outcome.next.inj (h.symm.trans h')
    exact ⟨(advancePc_pc_le hr).trans (by decide), hs.2⟩
  · have hr : s.pc.toNat + 1 < memSize := hi.2.1
    obtain ⟨u, hu, rfl⟩ := hi.step_next h
    rw [execIn_params] at hu
    exact (exec_keeps_pcBounded hu (advancePc_pc_le hr) hs.2).of_samePart (settled_frame u .pc (by decide))
      (settled_frame u .stack (by decide))

/-- Settles O29: the three ranges of `SP`, each by the lemma of the return there. -/
theorem returnPopsTheTopSlot : Obligations.ReturnPopsTheTopSlot := by
  intro s
  refine ⟨fun h => ?_, exec_ret_completes, exec_ret_faults⟩
  rw [OnlyAnswers, exec_ret_underflow h]
  exact answers_returnStatus s _

/-- Settles O30: the three ranges of `SP`, each by the lemma of the call there. -/
theorem callPushesTheReturnAddress : Obligations.CallPushesTheReturnAddress := by
  intro nnn s
  refine ⟨fun h => ?_, exec_call_completes nnn, exec_call_faults nnn⟩
  rw [OnlyAnswers, exec_call_overflow nnn h]
  exact answers_returnStatus s _

/-- Settles O31: the call leaves `SP` one more and the advanced `PC` in the slot below, which is the one that the return
takes back and leaves as it is. -/
theorem callThenReturnComesBack : Obligations.CallThenReturnComesBack := by
  intro nnn s u hsp hcall h hret
  obtain ⟨v, hv, _, _, _, hdepth, hslot, _⟩ :=
    hcall.step_of_completes (exec_call_completes (s := s.advancePc) nnn hsp)
  obtain rfl : u = v.countdown := Host.Outcome.next.inj (h.symm.trans hv)
  have hpushed : v.countdown.advancePc.sp.toNat = s.sp.toNat + 1 := hdepth
  obtain ⟨t, ht, hstatus, hframe, hpopped, htop⟩ :=
    hret.step_of_completes (exec_ret_completes (s := v.countdown.advancePc) (by omega) (by omega))
  have hkept : v.countdown.advancePc.slot? s.sp.toNat = some (s.pc + 2) := hslot
  rw [hpushed, Nat.add_sub_cancel] at hpopped htop
  refine ⟨t.countdown, ht, hstatus, BitVec.eq_of_toNat_eq hpopped, ?pc, ?slot⟩
  case pc => exact Option.some.inj (htop.symm.trans hkept)
  case slot => exact Eq.trans (hframe .stack (by decide) _) hkept

/-- Settles O26: the answer of the handler, the same on the advanced `PC` without a countdown, and `decode_sys`. -/
theorem sysAnswersUnsupportedOpcode : Obligations.SysAnswersUnsupportedOpcode := by
  refine ⟨fun _ s => answers_returnStatus s _, fun nnn s hf => ?step, fun _ => decode_sys⟩
  have hexec : exec (.sys nnn) s.advancePc = .next (s.advancePc.returnStatus .unsupportedOpcode) := rfl
  have hstep : step s = .next (s.advancePc.returnStatus .unsupportedOpcode) := by
    rw [step_of_fetches hf, endStep_of_next hexec, settled_returnStatus (by decide)]
  have hframe := (setPc_frame s _).trans (returnStatus_frame s.advancePc .unsupportedOpcode)
  exact ⟨_, hstep, rfl, rfl, hframe.mono (by decide)⟩

/-- Settles O27: `JP` writes `PC` only, the address as it stands. -/
theorem jumpGoesToTheAddress : Obligations.JumpGoesToTheAddress := fun nnn s =>
  completes_succeed (setPc_frame s _) (addrOperand_toNat nnn)

/-- Settles O28: `JP V0` writes `PC` only, and the sum of 12 and 8 bits does not wrap in 16. -/
theorem indexedJumpAddsV0 : Obligations.IndexedJumpAddsV0 := fun nnn s =>
  completes_succeed (setPc_frame s _) (indexedTarget_toNat nnn (s.reg 0))

end Sys2Proof.Machine
end

section
/-!
PROOFS. The conditional skips on registers (spec/42_skip.md).
-/
namespace Sys2Proof.Machine

/-- A handler that ends in `Skip()` under a test of `p` (spec/42_skip.md R100, spec/40_cycle.md R86). -/
theorem completes_skipIf (s : State) {condition : Bool} {p : Prop} [Decidable p] (hp : condition = true ↔ p) :
    Completes (succeed (s.skipIf condition)) s [.pc] fun t => t.pc = if p then s.pc + 2 else s.pc := by
  refine completes_succeed (skipIf_frame s condition) ?_
  rw [State.returnStatus_pc, State.skipIf_pc]
  exact if_congr hp rfl rfl

/-! ### The statement -/

/-- Settles O32: each of the four handlers is a skip under its own test, equality or inequality of bytes. -/
theorem skipsMovePcOnTheirCondition : Obligations.SkipsMovePcOnTheirCondition := by
  intro x y nn s
  refine ⟨?seImm, ?sneImm, ?seReg, ?sneReg⟩
  case seImm | seReg => exact completes_skipIf s beq_iff_eq
  case sneImm | sneReg => exact completes_skipIf s bne_iff_ne

end Sys2Proof.Machine
end

section
/-!
PROOFS. Register load, arithmetic, logic and the random byte (spec/43_alu.md): a handler that writes one register, a
handler that writes the flag and then its result (R121), and the flags as numbers.
-/
namespace Sys2Proof.Machine

section
variable {s : State} {o : Host.Outcome State Fault Refusal} {parts : List Part} {post post' : State → Prop}

/-! ### How a handler that writes registers completes -/

theorem Completes.imp (h : Completes o s parts post) (himp : ∀ t, post t → post' t) : Completes o s parts post' := by
  obtain ⟨t, ho, hstatus, hframe, hpost⟩ := h
  exact ⟨t, ho, hstatus, hframe, himp t hpost⟩

theorem writeReg_regs (s : State) (x : RegIx) (b : Byte) : RegsUnchangedExcept [x] s (s.writeReg x b) :=
  fun r hr => s.writeReg_reg_ne x r b (List.mem_singleton.not.mp hr)

theorem completes_writeReg (s : State) (x : RegIx) (b : Byte) :
    Completes (succeed (s.writeReg x b)) s [.v] fun t => t.reg x = b ∧ RegsUnchangedExcept [x] s t :=
  completes_succeed (writeReg_frame s x b) ⟨s.writeReg_reg_same x b, writeReg_regs s x b⟩

/-- The result is written last, so that with `X = 15` it stands and the flag does not (spec/43_alu.md R121). -/
theorem completes_writeFlagResult (s : State) (x : RegIx) (flag result : Byte) :
    Completes (succeed (s.writeFlagResult x flag result)) s [.v] fun t =>
      t.reg x = result ∧ (x ≠ 15 → t.reg 15 = flag) ∧ RegsUnchangedExcept [x, 15] s t := by
  refine completes_succeed (writeFlagResult_frame s x flag result) ⟨?result, fun hx => ?flag, fun r hr => ?others⟩
  all_goals rw [State.returnStatus_reg, State.writeFlagResult_reg]
  case result => exact if_pos rfl
  case flag => rw [if_neg hx.symm]; exact if_pos rfl
  case others =>
    obtain ⟨hx, hflag⟩ := not_or.mp (List.mem_pair.not.mp hr)
    rw [if_neg hx]; exact if_neg hflag

end

/-! ### The flags (spec/10_state.md R12) -/

theorem flagByte_decide (p : Prop) [Decidable p] : flagByte (decide p) = if p then 1 else 0 :=
  if_congr decide_eq_true_iff rfl rfl

theorem flagByte_getLsbD_toNat (a : Byte) (k : Nat) : (flagByte (a.getLsbD k)).toNat = a.toNat / 2 ^ k % 2 := by
  rw [flagByte_toNat, ← Nat.toNat_testBit, ← BitVec.getLsbD]
  cases a.getLsbD k <;> rfl

theorem lowBitFlag_toNat (a : Byte) : (lowBitFlag a).toNat = a.toNat % 2 := by
  rw [lowBitFlag, flagByte_getLsbD_toNat, pow_zero, Nat.div_one]

/-- Bit 7 is the top bit of a byte, so that nothing is left above it. -/
theorem highBitFlag_toNat (a : Byte) : (highBitFlag a).toNat = a.toNat / 128 := by
  have htop : a.toNat / 128 < 2 := Nat.div_lt_of_lt_mul a.isLt
  rw [highBitFlag, flagByte_getLsbD_toNat]
  exact Nat.mod_eq_of_lt htop

/-! ### The difference -/

/-- The flag of no borrow and then the difference (spec/43_alu.md R117, R119). -/
theorem completes_difference (s : State) (x : RegIx) (a b : Byte) :
    Completes (succeed (s.writeFlagResult x (noBorrowFlag a b) (a - b))) s [.v] fun t =>
      (t.reg x).toNat = (a.toNat + 256 - b.toNat) % 256 ∧
      (x ≠ 15 → t.reg 15 = if a.toNat ≥ b.toNat then 1 else 0) ∧ RegsUnchangedExcept [x, 15] s t := by
  refine (completes_writeFlagResult s x (noBorrowFlag a b) (a - b)).imp ?_
  rintro t ⟨hdiff, hflag, hothers⟩
  exact ⟨by rw [hdiff]; bv_omega, fun hx => (hflag hx).trans (flagByte_decide _), hothers⟩

/-! ### The statements -/

/-- Settles O35: the carry flag and then the sum. -/
theorem addSetsCarry : Obligations.AddSetsCarry := by
  intro x y s
  refine (completes_writeFlagResult s x (carryFlag (s.reg x) (s.reg y)) (s.reg x + s.reg y)).imp ?_
  rintro t ⟨hsum, hcarry, hothers⟩
  exact ⟨by rw [hsum, BitVec.toNat_add], fun hx => (hcarry hx).trans (flagByte_decide _), hothers⟩

/-- Settles O36: the same difference, with the operands exchanged for `8XY7`. -/
theorem subtractSetsNoBorrow : Obligations.SubtractSetsNoBorrow := fun x y s =>
  ⟨completes_difference s x (s.reg x) (s.reg y), completes_difference s x (s.reg y) (s.reg x)⟩

/-- Settles O37: the bit shifted out and then the shifted value; `Y` is not read. -/
theorem shiftsSetTheBitShiftedOut : Obligations.ShiftsSetTheBitShiftedOut := by
  intro x y s
  refine ⟨(completes_writeFlagResult s x (lowBitFlag (s.reg x)) (s.reg x >>> 1)).imp ?shr,
    (completes_writeFlagResult s x (highBitFlag (s.reg x)) (s.reg x <<< 1)).imp ?shl⟩
  case shr =>
    rintro t ⟨hshifted, hbit, hothers⟩
    refine ⟨?_, fun hx => by rw [hbit hx, lowBitFlag_toNat], hothers⟩
    rw [hshifted, BitVec.toNat_ushiftRight, Nat.shiftRight_eq_div_pow, pow_one]
  case shl =>
    rintro t ⟨hshifted, hbit, hothers⟩
    refine ⟨?_, fun hx => by rw [hbit hx, highBitFlag_toNat], hothers⟩
    rw [hshifted, BitVec.toNat_shiftLeft, Nat.shiftLeft_eq, pow_one]

/-- Settles O33: each of the five handlers is one write of its result to `V[X]`. -/
theorem loadAndLogicWriteVxOnly : Obligations.LoadAndLogicWriteVxOnly := fun x _ _ s =>
  ⟨completes_writeReg s x _, completes_writeReg s x _, completes_writeReg s x _, completes_writeReg s x _,
    completes_writeReg s x _⟩

/-- Settles O34: one write of the sum to `V[X]`. -/
theorem addImmediateWrapsWithoutFlag : Obligations.AddImmediateWrapsWithoutFlag := by
  intro x nn s
  refine (completes_writeReg s x (s.reg x + nn)).imp ?_
  rintro t ⟨hsum, hothers⟩
  exact ⟨by rw [hsum, BitVec.toNat_add], hothers⟩

/-- Settles O38: the draw is counted and its masked byte written, whatever the byte is. -/
theorem randomByteIsMasked : Obligations.RandomByteIsMasked := by
  intro x nn s
  have hwritten : (s.consumeDraw.writeReg x (Config.draw8 s.draws &&& nn)).reg x = Config.draw8 s.draws &&& nn :=
    State.writeReg_reg_same _ x _
  have hframe := (consumeDraw_frame s).trans (writeReg_frame s.consumeDraw x (Config.draw8 s.draws &&& nn))
  refine completes_succeed (hframe.mono List.perm_append_comm.subset) ?_
  rw [State.returnStatus_reg, hwritten]
  refine ⟨rfl, ?noBitOutside, ?atMost, rfl, writeReg_regs s.consumeDraw x _⟩
  case noBitOutside => rw [BitVec.and_assoc, BitVec.and_not_self]; exact BitVec.and_zero
  case atMost => rw [BitVec.toNat_and]; exact Nat.and_le_right

end Sys2Proof.Machine
end

section
/-!
PROOFS. The index register and the memory instructions (spec/44_index_memory.md): the sum of `FX1E` as a number, a
stored byte by its offset from `I`, and the store and the load of several registers at the spec's configuration.
-/
namespace Sys2Proof.Machine

section
variable {s : State}

/-! ### The index register (R131) -/

theorem zext16_toNat (b : Byte) : (zext16 b).toNat = b.toNat := by
  simp only [zext16, BitVec.truncate_eq_setWidth, BitVec.toNat_setWidth]
  omega

theorem indexOverflowFlag_eq (w : Word) (b : Byte) :
    indexOverflowFlag w b = if w.toNat + b.toNat > 0xFFF then 1 else 0 :=
  flagByte_decide _

/-! ### Bytes stored from `I` on (R133, R134) -/

theorem overlay_of_lt {m : Memory} {base len k : Nat} (f : Nat → Byte) (hk : k < len) :
    overlay m base len f (base + k) = f k := by
  rw [overlay, if_pos (by omega), Nat.add_sub_cancel_left]

theorem overlay_outside {m : Memory} {base len a : Nat} (f : Nat → Byte) (ha : a < base ∨ base + len ≤ a) :
    overlay m base len f a = m.read a :=
  if_neg (by omega)

/-- A digit fits a byte. -/
theorem digit_toNat (n : Nat) : (BitVec.ofNat 8 (n % 10)).toNat = n % 10 := by
  rw [BitVec.toNat_ofNat]
  omega

/-- The hundreds of a byte are a single digit. -/
theorem hundreds_mod_ten (b : Byte) : b.toNat / 100 % 10 = b.toNat / 100 := by
  have hb := b.isLt
  omega

/-! ### Out of range (R136) -/

theorem onlyAnswers_memRange {i : Instr} (h : execIn params i s = .next (s.returnStatus .memRange)) :
    OnlyAnswers i s .memRange := by
  rw [OnlyAnswers, ← execIn_params, h]
  exact answers_returnStatus s _

end

/-! ### The statements -/

/-- Settles O39: one write of `I`, with an address of 12 bits. -/
theorem loadIndexTakesTheAddress : Obligations.LoadIndexTakesTheAddress := by
  intro nnn s
  have haddr : (addrOperand nnn).toNat = nnn.toNat := addrOperand_toNat nnn
  have hbound : nnn.toNat ≤ 0xFFF := Nat.le_of_lt_succ nnn.isLt
  exact completes_succeed (setI_frame s _) ⟨haddr, haddr.trans_le hbound⟩

/-- Settles O41: the glyph address at the base 0 and 5 bytes a glyph, which does not wrap. -/
theorem fontAddressIsFiveTimesTheDigit : Obligations.FontAddressIsFiveTimesTheDigit := by
  intro x s
  refine (execIn_ldF_completes params x s).imp fun t hi => ?_
  have hx := (s.reg x).isLt
  rw [hi, params_fontBase, params_glyphBytes]
  omega

/-- Settles O40: `I` and then the flag are written, both from the old values. -/
theorem addIndexFlagsTheRange : Obligations.AddIndexFlagsTheRange := by
  intro x s
  refine completes_succeed ((setI_frame s _).trans (writeReg_frame _ flagReg _)) ⟨?sum, ?flag, ?others⟩
  case sum => exact (BitVec.toNat_add _ _).trans (by rw [zext16_toNat])
  case flag => exact (State.writeReg_reg_same _ _ _).trans (indexOverflowFlag_eq s.i (s.reg x))
  case others => exact writeReg_regs (s.setI _) flagReg _

/-- Settles O42: each digit is the stored byte at its offset. -/
theorem decimalDigitsAreStored : Obligations.DecimalDigitsAreStored := by
  intro x s hm
  refine ⟨fun hr => ?stored, fun hr => onlyAnswers_memRange (execIn_ldB_out_of_range x hr)⟩
  refine (execIn_ldB_completes (c := params) x (Nat.lt_succ_of_le hr) hm).imp fun t ht => ?_
  refine ⟨?hundreds, ?tens, ?units, fun a ha => (ht a).trans (overlay_outside _ ha)⟩
  all_goals rw [ht, State.indexed, overlay_of_lt _ (by decide), digit_toNat]
  case hundreds => exact hundreds_mod_ten _
  case tens => rfl
  case units => exact congrArg (· % 10) (Nat.div_one _)

/-- Settles O43: the stored byte at offset `k` is `V[k]`. -/
theorem storeMultipleStoresV0ToVx : Obligations.StoreMultipleStoresV0ToVx := by
  intro x s hm
  refine ⟨fun hr => ?stored, fun hr => onlyAnswers_memRange (execIn_ldMemVx_out_of_range x hr)⟩
  refine (execIn_ldMemVx_completes (c := params) x (Nat.lt_succ_of_le hr) hm).imp fun t ht => ?_
  refine ⟨fun k hk => ?_, fun a ha => (ht a).trans (overlay_outside _ ha)⟩
  rw [ht, State.indexed, overlay_of_lt _ (Nat.lt_succ_of_le hk), BitVec.ofNat_toNat, BitVec.setWidth_eq]

/-- Settles O44: a register is loaded exactly if it is at most `X`. -/
theorem loadMultipleLoadsV0ToVx : Obligations.LoadMultipleLoadsV0ToVx := by
  intro x s
  refine ⟨fun hr => ?loaded, fun hr => onlyAnswers_memRange (execIn_ldVxMem_out_of_range x hr)⟩
  refine (execIn_ldVxMem_completes (c := params) x (Nat.lt_succ_of_le hr)).imp fun t ht => ?_
  exact ⟨fun k hk => (ht k).trans (if_pos hk), fun k hk => (ht k).trans (if_neg (BitVec.not_le.mpr hk))⟩

/-- Settles O45: what O44 loads from `I + j` is what O43 stored there. -/
theorem storeThenLoadGivesBackTheRegisters : Obligations.StoreThenLoadGivesBackTheRegisters := by
  intro k s t u hm hr h hi hmem
  obtain ⟨hstored, _⟩ := ((storeMultipleStoresV0ToVx k s hm).1 hr).post_of_next h
  have hindexed (j : Nat) : u.indexed j = s.indexed j := congrArg (·.toNat + j) hi
  refine ((loadMultipleLoadsV0ToVx k u).1 (by rwa [hi])).imp ?_
  rintro w ⟨hloaded, hkept⟩
  refine ⟨fun j hj => ?_, hkept⟩
  calc w.reg j = u.mem.read (s.indexed j.toNat) := by rw [hloaded j hj, hindexed]
    _ = t.mem.read (s.indexed j.toNat) := hmem j.toNat hj
    _ = s.reg j := hstored j hj

end Sys2Proof.Machine
end

section
/-!
PROOFS. The display instructions (spec/45_display.md): the cells of the sprite that `DXYN` draws, what a draw leaves at
any configuration and under either edge policy, and the statements about one draw, about two equal draws and about
`00E0`.
-/
namespace Sys2Proof.Machine

/-! ### The cells of a sprite (R142, R143) -/

/-- The cells that `DXYN` toggles: those of the `N` rows from `I` on, placed at `(V[X], V[Y])`. -/
def State.drwCells (s : State) (policy : EdgePolicy) (x y : RegIx) (n : Nibble) : List (Col × Row) :=
  spriteCells policy (s.reg x).toNat (s.reg y).toNat (s.mem.readBytes (s.indexed 0) n.toNat)

section
variable {s t u w : State} {policy : EdgePolicy} {x y : RegIx} {n : Nibble}

theorem mem_drwCells {cx : Col} {cy : Row} : (cx, cy) ∈ s.drwCells policy x y n ↔
    ∃ r < n.toNat, ∃ k < 8, (s.mem.read (s.indexed r)).getLsbD (7 - k) = true ∧
      FallsOn policy ((s.reg x).toNat + k) ((s.reg y).toNat + r) cx cy := by
  simp only [State.drwCells, mem_spriteCells, Memory.length_readBytes, Memory.getElem_readBytes, place_eq_some,
    exists_prop, State.indexed, Nat.add_zero]

/-- A sprite has at most 15 rows, so no two of its pixels are placed on one cell. -/
theorem nodup_drwCells (s : State) (policy : EdgePolicy) (x y : RegIx) (n : Nibble) :
    (s.drwCells policy x y n).Nodup := by
  have hn := n.isLt
  exact nodup_spriteCells policy _ _ _ (by rw [Memory.length_readBytes]; omega)

/-- The cells depend on the coordinates, on `I` and on the sprite's bytes only. -/
theorem drwCells_congr (hx : u.reg x = s.reg x) (hy : u.reg y = s.reg y) (hi : u.i = s.i)
    (hmem : ∀ r < n.toNat, u.mem.read (s.indexed r) = s.mem.read (s.indexed r)) :
    u.drwCells policy x y n = s.drwCells policy x y n := by
  have hbytes : u.mem.readBytes (s.indexed 0) n.toNat = s.mem.readBytes (s.indexed 0) n.toNat := by
    refine List.ext_getElem (by simp only [Memory.length_readBytes]) fun r hr _ => ?_
    rw [Memory.length_readBytes] at hr
    simpa only [Memory.getElem_readBytes, State.indexed, Nat.add_zero] using hmem r hr
  have hindexed : u.indexed 0 = s.indexed 0 := congrArg (·.toNat + 0) hi
  rw [State.drwCells, State.drwCells, hx, hy, hindexed, hbytes]

/-- The pixel of a wrapped sprite falls on the cell of its reduced coordinates. -/
theorem fallsOn_wrap_iff {px py : Nat} {cx : Col} {cy : Row} :
    FallsOn .wrap px py cx cy ↔ cx = Fin.ofNat 64 px ∧ cy = Fin.ofNat 32 py := by
  rw [FallsOn, Fin.ext_iff, Fin.ext_iff, Fin.val_ofNat, Fin.val_ofNat, eq_comm, eq_comm (a := py % 32)]

/-- A property of some cell of a wrapped sprite, by the set bits of its rows. -/
theorem exists_mem_drwCells_wrap {p : Col → Row → Prop} :
    (∃ cx cy, (cx, cy) ∈ s.drwCells .wrap x y n ∧ p cx cy) ↔
      ∃ r < n.toNat, ∃ k < 8, (s.mem.read (s.indexed r)).getLsbD (7 - k) = true ∧
        p (Fin.ofNat 64 ((s.reg x).toNat + k)) (Fin.ofNat 32 ((s.reg y).toNat + r)) := by
  constructor
  · rintro ⟨cx, cy, hcell, hp⟩
    obtain ⟨r, hr, k, hk, hbit, hfalls⟩ := mem_drwCells.mp hcell
    obtain ⟨rfl, rfl⟩ := fallsOn_wrap_iff.mp hfalls
    exact ⟨r, hr, k, hk, hbit, hp⟩
  · rintro ⟨r, hr, k, hk, hbit, hp⟩
    exact ⟨_, _, mem_drwCells.mpr ⟨r, hr, k, hk, hbit, fallsOn_wrap_iff.mpr ⟨rfl, rfl⟩⟩, hp⟩

/-! ### One draw, and the same draw again (R141, R142, R144) -/

theorem flagByte_eq_one_or_zero (b : Bool) : flagByte b = 1 ∨ flagByte b = 0 := by
  cases b
  · exact .inr rfl
  · exact .inl rfl

theorem flagByte_eq_one_iff {b : Bool} : flagByte b = 1 ↔ b = true := by
  cases b <;> decide

/-- What a draw of the cells from `s` leaves in `t` (R142). -/
structure Drawn (cells : List (Col × Row)) (s t : State) : Prop where
  toggled : ∀ cx cy, pixel t.fb cx cy = (pixel s.fb cx cy ^^ decide ((cx, cy) ∈ cells))
  flag : t.reg 15 = 1 ∨ t.reg 15 = 0
  collision : t.reg 15 = 1 ↔ ∃ cx cy, (cx, cy) ∈ cells ∧ pixel s.fb cx cy = true
  dirty : t.dirty = true
  regs : RegsUnchangedExcept [15] s t

theorem Drawn.ne_iff {cells : List (Col × Row)} (h : Drawn cells s t) (cx : Col) (cy : Row) :
    pixel t.fb cx cy ≠ pixel s.fb cx cy ↔ (cx, cy) ∈ cells := by
  rw [h.toggled]
  cases pixel s.fb cx cy <;> simp

/-- A collision, as R142 has it: a cell that went from on to off. -/
theorem Drawn.flag_iff_turned_off {cells : List (Col × Row)} (h : Drawn cells s t) :
    t.reg 15 = 1 ↔ ∃ cx cy, pixel s.fb cx cy = true ∧ pixel t.fb cx cy = false := by
  refine h.collision.trans (exists₂_congr fun cx cy => ?_)
  rw [← h.ne_iff, and_comm]
  refine and_congr_right fun hon => ?_
  rw [hon, ← Bool.not_eq_true]

/-- The toggles of two draws of the same cells cancel. -/
theorem Drawn.twice_pixel {cells : List (Col × Row)} (h : Drawn cells s t) (hfb : u.fb = t.fb)
    (h' : Drawn cells u w) (cx : Col) (cy : Row) : pixel w.fb cx cy = pixel s.fb cx cy := by
  rw [h'.toggled, hfb, h.toggled, Bool.xor_assoc, Bool.xor_self, Bool.xor_false]

/-- The second of two draws of the same cells collides where the first one turned a cell on. -/
theorem Drawn.twice_flag {cells : List (Col × Row)} (h : Drawn cells s t) (hfb : u.fb = t.fb)
    (h' : Drawn cells u w) : w.reg 15 = 1 ↔ ∃ cx cy, (cx, cy) ∈ cells ∧ pixel s.fb cx cy = false := by
  refine h'.collision.trans (exists₂_congr fun cx cy => and_congr_right fun hcell => ?_)
  rw [hfb, h.toggled, decide_eq_true hcell, Bool.xor_true, Bool.not_eq_true']

theorem drawn_drawSprite (s : State) (policy : EdgePolicy) (x y : RegIx) (n : Nibble) :
    Drawn (s.drwCells policy x y n) s
      ((s.drawSprite policy (s.reg x).toNat (s.reg y).toNat n.toNat (s.indexed 0)).returnStatus .success) := by
  have hn := nodup_drwCells s policy x y n
  have hflag : (s.drawSprite policy (s.reg x).toNat (s.reg y).toNat n.toNat (s.indexed 0)).reg 15 =
      flagByte (compose (s.drwCells policy x y n) s.fb).2 := State.drawSprite_reg ..
  refine ⟨pixel_compose _ hn s.fb, ?flag, ?collision, rfl, fun r hr => ?regs⟩
  case flag => rw [State.returnStatus_reg, hflag]; exact flagByte_eq_one_or_zero _
  case collision => rw [State.returnStatus_reg, hflag, flagByte_eq_one_iff, collision_compose _ hn]
  case regs => exact (State.drawSprite_reg ..).trans (if_neg (List.mem_singleton.not.mp hr))

/-! ### `DXYN` at any configuration (R141) -/

variable {c : Config}

theorem execIn_drw_completes (hr : s.indexInRange c n.toNat = true) :
    Completes (execIn c (.drw x y n) s) s [.v, .fb, .dirty] (Drawn (s.drwCells c.edgePolicy x y n) s) := by
  simp only [execIn, execDrwIn, hr, if_true]
  exact completes_succeed (drawSprite_frame s _ _ _ _ _) (drawn_drawSprite s _ x y n)

theorem execIn_drw_out_of_range (hr : s.indexInRange c n.toNat = false) :
    execIn c (.drw x y n) s = .next (s.returnStatus .memRange) := by
  simp [execIn, execDrwIn, hr, answer]

theorem indexInRange_of_drw_success (h : execIn c (.drw x y n) s = .next t) (ht : t.status = some .success) :
    s.indexInRange c n.toNat = true := by
  by_contra hr
  exact not_success_of_memRange (execIn_drw_out_of_range (Bool.eq_false_of_not_eq_true hr)) h ht

end

/-! ### The statements -/

/-- Settles O57: the drawn cells are those that a set bit falls on, and the range of the access is that of its last
byte. -/
theorem drawFollowsTheEdgePolicy : Obligations.DrawFollowsTheEdgePolicy := by
  intro c x y n s
  refine ⟨fun hr => ?drawn, fun hn hr => ?outOfRange⟩
  case drawn =>
    have hin : s.indexInRange c n.toNat = true := (indexInRange_iff s c _).mpr (by omega)
    refine (execIn_drw_completes hin).imp fun t ht => ?_
    exact ⟨fun cx cy => (ht.ne_iff cx cy).trans mem_drwCells, ht.flag, ht.flag_iff_turned_off, ht.dirty, ht.regs⟩
  case outOfRange =>
    rw [execIn_drw_out_of_range ((indexInRange_eq_false s c _).mpr (by omega))]
    exact answers_returnStatus s _

/-- Settles O47: the case of the spec's configuration of O57, whose edge policy is `wrap`. -/
theorem drawXorsThePlacedSprite : Obligations.DrawXorsThePlacedSprite := by
  intro x y n s
  obtain ⟨hdrawn, hrange⟩ := drawFollowsTheEdgePolicy params x y n s
  rw [execIn_params] at hdrawn hrange
  exact ⟨fun hr => hdrawn (hr.imp_right Nat.lt_succ_of_le), hrange⟩

/-- Settles O48: both draws toggle the same cells, and a cell of the sprite is on for the second draw exactly if it was
off for the first. -/
theorem drawingTwiceRestoresTheFramebuffer : Obligations.DrawingTwiceRestoresTheFramebuffer := by
  intro x y n s t u w hfirst hsuccess hfb hi hx hy hmem hsecond
  rw [← execIn_params] at hfirst hsecond
  have hin : s.indexInRange params n.toNat = true := indexInRange_of_drw_success hfirst hsuccess
  have hdrawn := (execIn_drw_completes hin).post_of_next hfirst
  have hin' : u.indexInRange params n.toNat = true := by
    rwa [State.indexInRange, State.indexed, hi]
  obtain ⟨w', hw', hstatus, _, hdrawn'⟩ := execIn_drw_completes (x := x) (y := y) hin'
  obtain rfl : w = w' := Host.Outcome.next.inj (hsecond.symm.trans hw')
  rw [drwCells_congr hx hy hi hmem] at hdrawn'
  exact ⟨hstatus, hdrawn.twice_pixel hfb hdrawn', (hdrawn.twice_flag hfb hdrawn').trans exists_mem_drwCells_wrap⟩

/-- `I` at the row 0x20 of the glyph "1", whose one cell, (2, 0) at the origin, is on. -/
def onePixelOn : State := { State.reset with i := 5, fb := toggle blankFb 2 0 }

/-- Refutes O49: the one cell of the sprite is on, the first draw turns it off, and the second turns it on again without
a collision. -/
theorem not_secondEqualDrawAlwaysCollides : ¬ Obligations.SecondEqualDrawAlwaysCollides := by
  intro h
  have hflag := h 0 1 1 onePixelOn _ _ _ rfl rfl rfl rfl rfl rfl (fun _ _ => rfl) ⟨0, by decide, by decide⟩ rfl
  exact absurd hflag (by decide)

/-- Settles O46: the blank framebuffer is written, and DIRTY with it. -/
theorem clearTurnsEveryCellOff : Obligations.ClearTurnsEveryCellOff := fun s =>
  completes_succeed (setFb_frame s blankFb) ⟨pixel_blankFb, rfl⟩

end Sys2Proof.Machine
end

section
/-!
PROOFS. The key instructions and the key wait (spec/46_keys.md): the newly held keys bit by bit, the three answers of a
poll as steps, and the issue of a wait that the next step completes.
-/
namespace Sys2Proof.Machine

section
variable {s u : State} {k : Nat}

/-! ### What a status that is no error leaves unchanged (spec/60_exceptions.md R170) -/

theorem UnchangedExcept.returnStatus_of_not_error {parts : List Part} {e : Status} (h : UnchangedExcept parts s u)
    (he : e.isError = false) : UnchangedExcept (.status :: parts) s (u.returnStatus e) := by
  intro p hp
  have hsame := h.returnStatus_success p hp
  cases p
  case status => exact absurd List.mem_cons_self hp
  case errorSeen => exact Eq.trans (congrArg (u.errorSeen || ·) he) hsame
  all_goals exact hsame

/-! ### The newly held keys (R153) -/

theorem getLsbD_newlyHeld (keys prev : Word) (hk : k < 16) :
    (keys &&& ~~~prev).getLsbD k = (keys.getLsbD k && !prev.getLsbD k) := by
  rw [BitVec.getLsbD_and, BitVec.getLsbD_not, decide_eq_true hk, Bool.true_and]

/-- The lowest newly held key, from the two samples of KEYS. -/
theorem lowestKey_newlyHeld {keys prev : Word} (hk : k < 16) (hheld : keys.getLsbD k = true)
    (hreleased : prev.getLsbD k = false) (hlow : ∀ j < k, keys.getLsbD j = false ∨ prev.getLsbD j = true) :
    lowestKey (keys &&& ~~~prev) = some k := by
  refine lowestKey_eq_some.mpr ⟨hk, ?_, fun j hj => ?_⟩
  · rw [getLsbD_newlyHeld keys prev hk, hheld, hreleased]; rfl
  · rw [getLsbD_newlyHeld keys prev (hj.trans hk)]
    rcases hlow j hj with h | h <;> simp [h]

/-! ### The three answers of a poll (R153, R155) -/

theorem step_of_cancelled_poll (hw : s.wait = true) (hc : s.cancel = true) :
    step s = .next (s.endWait.returnStatus .waitCancelled) := by
  simp [step_of_wait hw, waitPoll, hc, answer]

theorem step_of_poll_without_new_key (hw : s.wait = true) (hc : s.cancel = false) (hnone : s.newKeys = 0) :
    step s = .next (s.sampleKeys.returnStatus .keyWait) := by
  simp [step_of_wait hw, waitPoll, hc, lowestKey_eq_none.mpr hnone, answer]

theorem step_of_completing_poll (hw : s.wait = true) (hc : s.cancel = false) (hk : lowestKey s.newKeys = some k) :
    step s = .next ((s.writeReg s.waitX (BitVec.ofNat 8 k)).endWait.countdown.returnStatus .success) := by
  simp [step_of_wait hw, waitPoll, hc, hk, completeWait]

/-- A poll that sees a newly held key completes the wait with the lowest one and counts the timers once. -/
theorem completing_poll_effects (hw : s.wait = true) (hc : s.cancel = false) (hk : lowestKey s.newKeys = some k) :
    ∃ t, step s = .next t ∧ t.status = some .success ∧ (t.reg s.waitX).toNat = k ∧
      RegsUnchangedExcept [s.waitX] s t ∧ t.wait = false ∧
      t.dt.toNat = s.dt.toNat - 1 ∧ t.st.toNat = s.st.toNat - 1 ∧
      UnchangedExcept [.v, .wait, .dt, .st, .status] s t := by
  refine ⟨_, step_of_completing_poll hw hc hk, rfl, ?key, writeReg_regs s _ _, rfl, timerTick_toNat s.dt,
    timerTick_toNat s.st, ?frame⟩
  case key =>
    obtain ⟨hlt, _⟩ := lowestKey_eq_some.mp hk
    have hwritten := congrArg BitVec.toNat (s.writeReg_reg_same s.waitX (BitVec.ofNat 8 k))
    exact hwritten.trans ((BitVec.toNat_ofNat k 8).trans (Nat.mod_eq_of_lt (by omega)))
  case frame =>
    have hframe := ((writeReg_frame s s.waitX (BitVec.ofNat 8 k)).trans (endWait_frame _)).trans (countdown_frame _)
    exact hframe.returnStatus_success.mono (by decide)

/-! ### A press (R24) -/

theorem pressKeys_frame (s : State) (keys : Word) : UnchangedExcept [.keys] s (applyMove (.keys keys) s) := by
  intro p hp
  cases p
  case keys => exact absurd (List.mem_singleton.mpr rfl) hp
  all_goals simp [samePart, applyMove, applyMoveIn, State.reg, State.slot?]

end

/-! ### The statements -/

/-- Settles O51: the issue samples KEYS, so that at the next step the newly held keys are those pressed since; that
step is a completing poll. -/
theorem keyWaitIssuesAndCompletesOnAPress : Obligations.KeyWaitIssuesAndCompletesOnAPress := by
  intro x s
  have hissue : UnchangedExcept [.status, .wait, .waitX, .keyPrev] s ((s.beginWait x).returnStatus .keyWait) :=
    (beginWait_frame s x).returnStatus_of_not_error rfl
  refine ⟨_, rfl, rfl, rfl, rfl, rfl, hissue.mono (by decide), fun keys k hc hk hheld hreleased hlow => ?_⟩
  obtain ⟨w, hstep, hstatus, hkey, hregs, hwait, hdt, hst, hpoll⟩ :=
    completing_poll_effects (s := applyMove (.keys keys) ((s.beginWait x).returnStatus .keyWait)) rfl hc
      (lowestKey_newlyHeld hk hheld hreleased hlow)
  exact ⟨w, hstep, hstatus, hwait, hkey, hregs, hdt, hst, hpoll .keys (by decide),
    ((hissue.trans (pressKeys_frame _ keys)).trans hpoll).mono (by decide)⟩

/-- Settles O52: the three answers of a poll, the last with the lowest bit of a word that is not 0. -/
theorem pollStepWaitsCancelsOrCompletes : Obligations.PollStepWaitsCancelsOrCompletes := by
  intro s hw
  refine ⟨fun hc => ?cancelled, fun hc hnone => ?waits, fun hc hnew => ?completes⟩
  case cancelled =>
    exact ⟨_, step_of_cancelled_poll hw hc, rfl, rfl, Bool.or_true _,
      (endWait_frame s).trans (returnStatus_frame _ .waitCancelled)⟩
  case waits =>
    exact ⟨_, step_of_poll_without_new_key hw hc hnone, rfl, rfl,
      ((sampleKeys_frame s).returnStatus_of_not_error rfl).mono (by decide)⟩
  case completes =>
    obtain ⟨k, hk⟩ := Option.ne_none_iff_exists'.mp (lowestKey_eq_none.not.mpr hnew)
    obtain ⟨hlt, hset, hlow⟩ := lowestKey_eq_some.mp hk
    obtain ⟨t, hstep, hstatus, heffects⟩ := completing_poll_effects hw hc hk
    exact ⟨t, k, hstep, hstatus, hlt, hset, hlow, heffects⟩

/-- Settles O50: both handlers are a skip, on the key being held and on its not being held. -/
theorem keySkipsTestTheNamedKey : Obligations.KeySkipsTestTheNamedKey := by
  intro x s
  have hreleased : (!s.held (s.reg x)) = true ↔ ¬ s.keys.getLsbD ((s.reg x).toNat % 16) = true := by
    rw [Bool.not_eq_true', ← Bool.not_eq_true]; rfl
  refine ⟨completes_skipIf s Iff.rfl, (completes_skipIf s hreleased).imp fun t ht => ?_⟩
  rwa [ite_not] at ht

end Sys2Proof.Machine
end

section
/-!
PROOFS. The timers (spec/47_timers.md): the read of `DT`, the two instructions that set a timer, each with the countdown
of its own step, and the countdown of every step that ends with SUCCESS (spec/60_exceptions.md R185).
-/
namespace Sys2Proof.Machine

section
variable {s : State} {x : RegIx}

/-! ### The handlers (R160 to R162) -/

theorem exec_ldVxDt_completes (x : RegIx) (s : State) :
    CompletesWith (.ldVxDt x) s [.v] fun t => t.reg x = s.dt ∧ RegsUnchangedExcept [x] s t :=
  completes_writeReg s x s.dt

theorem exec_ldDtVx_completes (x : RegIx) (s : State) :
    CompletesWith (.ldDtVx x) s [.dt] fun t => t.dt = s.reg x :=
  completes_succeed (setDt_frame s (s.reg x)) rfl

theorem exec_ldStVx_completes (x : RegIx) (s : State) :
    CompletesWith (.ldStVx x) s [.st] fun t => t.st = s.reg x :=
  completes_succeed (setSt_frame s (s.reg x)) rfl

/-! ### Their steps: the handler's value is what the countdown starts from (spec/40_cycle.md R84) -/

/-- What is said of some next state of an outcome holds of its next state. -/
theorem post_of_next {o : Host.Outcome State Fault Refusal} {t : State} {post : State → Prop} (h : o = .next t)
    (hpost : ∃ u, o = .next u ∧ post u) : post t := by
  obtain ⟨u, hu, hpost⟩ := hpost
  obtain rfl : t = u := Host.Outcome.next.inj (h.symm.trans hu)
  exact hpost

theorem Fetches.step_ldVxDt (hf : Fetches s (.ldVxDt x)) :
    ∃ t, step s = .next t ∧ t.status = some .success ∧ t.reg x = s.dt ∧ t.dt.toNat = s.dt.toNat - 1 := by
  obtain ⟨u, hstep, hstatus, hframe, hx, _⟩ := hf.step_of_completes (exec_ldVxDt_completes x s.advancePc)
  have hdt : u.dt = s.dt := hframe .dt (by decide)
  refine ⟨u.countdown, hstep, hstatus, hx, ?_⟩
  rw [State.countdown_dt, timerTick_toNat, hdt]

theorem Fetches.step_ldDtVx (hf : Fetches s (.ldDtVx x)) :
    ∃ t, step s = .next t ∧ t.status = some .success ∧
      t.dt.toNat = (s.reg x).toNat - 1 ∧ t.st.toNat = s.st.toNat - 1 := by
  obtain ⟨u, hstep, hstatus, hframe, hdt⟩ := hf.step_of_completes (exec_ldDtVx_completes x s.advancePc)
  have hst : u.st = s.st := hframe .st (by decide)
  refine ⟨u.countdown, hstep, hstatus, ?_, ?_⟩
  · rw [State.countdown_dt, timerTick_toNat, hdt, State.advancePc_reg]
  · rw [State.countdown_st, timerTick_toNat, hst]

theorem Fetches.step_ldStVx (hf : Fetches s (.ldStVx x)) :
    ∃ t, step s = .next t ∧ t.status = some .success ∧
      t.st.toNat = (s.reg x).toNat - 1 ∧ t.dt.toNat = s.dt.toNat - 1 := by
  obtain ⟨u, hstep, hstatus, hframe, hst⟩ := hf.step_of_completes (exec_ldStVx_completes x s.advancePc)
  have hdt : u.dt = s.dt := hframe .dt (by decide)
  refine ⟨u.countdown, hstep, hstatus, ?_, ?_⟩
  · rw [State.countdown_st, timerTick_toNat, hst, State.advancePc_reg]
  · rw [State.countdown_dt, timerTick_toNat, hdt]

end

/-! ### The statements -/

/-- Settles O53: the register has `DT` as the handler found it, and the countdown comes after the handler. -/
theorem readDelayTimerBeforeCountdown : Obligations.ReadDelayTimerBeforeCountdown :=
  ⟨exec_ldVxDt_completes, fun _ _ => Fetches.step_ldVxDt⟩

/-- Settles O54: one write of the timer, and then the countdown of both. -/
theorem setTimersThenCount : Obligations.SetTimersThenCount := by
  refine ⟨fun x s => ⟨exec_ldDtVx_completes x s, exec_ldStVx_completes x s⟩, fun x s hf => ?dt, fun x s hf => ?st⟩
  case dt =>
    obtain ⟨t, hstep, _, htimers⟩ := hf.step_ldDtVx
    exact ⟨t, hstep, htimers⟩
  case st =>
    obtain ⟨t, hstep, _, htimers⟩ := hf.step_ldStVx
    exact ⟨t, hstep, htimers⟩

/-- Settles O7: `FX15` and `FX18` succeed and count from what they have set; every other step counts, by O19, exactly if
it succeeds. -/
theorem timersCountSuccessfulSteps : Obligations.TimersCountSuccessfulSteps := by
  intro s t h
  obtain ⟨_, _, _, _, _, _, hdt, hst, _⟩ := onlyTheNamedInstructionsWrite s t h
  have hsetDt {x : RegIx} (hf : Fetches s (.ldDtVx x)) := post_of_next h hf.step_ldDtVx
  have hsetSt {x : RegIx} (hf : Fetches s (.ldStVx x)) := post_of_next h hf.step_ldStVx
  refine ⟨fun hother => ⟨BitVec.eq_of_toNat_eq ?keptDt, BitVec.eq_of_toNat_eq ?keptSt⟩, fun hsuccess =>
    ⟨fun x hf => ?setDt, fun hno => ?countedDt, fun x hf => ?setSt, fun hno => ?countedSt⟩⟩
  case keptDt => rw [hdt fun x hf => hother (hsetDt hf).1, if_neg hother, Nat.sub_zero]
  case keptSt => rw [hst fun x hf => hother (hsetSt hf).1, if_neg hother, Nat.sub_zero]
  case setDt => obtain ⟨_, hvalue, _⟩ := hsetDt hf; exact hvalue
  case setSt => obtain ⟨_, hvalue, _⟩ := hsetSt hf; exact hvalue
  case countedDt => rw [hdt hno, if_pos hsuccess]
  case countedSt => rw [hst hno, if_pos hsuccess]

end Sys2Proof.Machine
end

section
/-!
PROOFS. The status of a step (spec/60_exceptions.md). How a step can end is said once, in `StepEnd`; from it, that each
status comes from its cause (R170 to R175), that an error changes nothing else (R176), and that the record of errors is
exact (R180). Last, that `PC` does not tell a failing fetch from a failing handler (R177).
-/
namespace Sys2Proof.Machine

section
variable {s t u : State} {i : Instr} {e : Reject} {c : Status}

/-! ### Steps with a status other than SUCCESS -/

theorem step_of_invalid_word (hw : s.wait = false) (hr : s.pc.toNat + 1 < memSize)
    (hd : decode s.fetchWord = .error e) : step s = .next (s.advancePc.returnStatus .invalidOpcode) := by
  rcases step_cases s with ⟨hw', _⟩ | ⟨_, hr', _⟩ | ⟨_, _, _, h⟩ | ⟨i, ⟨_, _, hd'⟩, _⟩
  · simp [hw] at hw'
  · omega
  · exact h
  · simp [hd] at hd'

/-- A handler that answers another status than SUCCESS ends the step with it. -/
theorem Fetches.step_of_answer (hf : Fetches s i) (hc : c ≠ .success)
    (h : execIn params i s.advancePc = .next (u.returnStatus c)) : step s = .next (u.returnStatus c) := by
  rw [execIn_params] at h
  rw [step_of_fetches hf, endStep_of_next h, settled_returnStatus hc]

theorem advancePc_returnStatus_frame (s : State) (c : Status) :
    UnchangedExcept [.pc, .status, .errorSeen] s (s.advancePc.returnStatus c) :=
  (setPc_frame s _).trans (returnStatus_frame s.advancePc c)

/-! ### How a step ends -/

/-- How a step from `s` that answers the status `c` ends in `t`: it succeeds or holds in the key wait, with the error
record as it was, or it is one of the three cases of an error in spec/60_exceptions.md R176. -/
inductive StepEnd (s : State) : Status → State → Prop
  | success {t : State} : t.status = some .success → t.errorSeen = s.errorSeen → StepEnd s .success t
  | keyWait {u : State} : u.errorSeen = s.errorSeen → FailureCause s .keyWait →
      StepEnd s .keyWait (u.returnStatus .keyWait)
  | cancelled : s.wait = true → s.cancel = true → StepEnd s .waitCancelled (s.endWait.returnStatus .waitCancelled)
  | fetchRange : s.wait = false → memSize ≤ s.pc.toNat + 1 → StepEnd s .memRange (s.returnStatus .memRange)
  | error {c : Status} : s.wait = false → s.pc.toNat + 1 < memSize → c.isError = true → FailureCause s c →
      StepEnd s c (s.advancePc.returnStatus c)

theorem stepEnd_of_waitPoll (hw : s.wait = true) (h : waitPoll s = .next t) : ∃ c, StepEnd s c t := by
  rcases waitPoll_cases s with ⟨hc, h'⟩ | ⟨hc, hnone, h'⟩ | ⟨_, k, _, _, _, h'⟩ <;> rw [h'] at h <;> cases h
  · exact ⟨_, .cancelled hw hc⟩
  · exact ⟨_, .keyWait rfl (.inr ⟨hw, hc, hnone⟩)⟩
  · exact ⟨_, .success rfl (Bool.or_false _)⟩

theorem stepEnd_of_exec (hf : Fetches s i) (h : exec i s.advancePc = .next u) : ∃ c, StepEnd s c u.settled := by
  have ⟨hw, hr, _⟩ := hf
  rcases exec_ends s.advancePc i with ⟨v, hv, hrecord, _⟩ | ⟨c, hc, hv, hcause⟩ | ⟨x, rfl, hv⟩ | ⟨_, _, hv⟩ <;>
    rw [hv] at h <;> cases h
  · exact ⟨_, .success rfl (Eq.trans (Bool.or_false _) hrecord)⟩
  · rw [settled_returnStatus (by rintro rfl; cases hc)]
    refine ⟨c, .error hw hr hc ?_⟩
    rcases hcause with ⟨nnn, rfl, rfl⟩ | ⟨rfl, hsp, rfl⟩ | ⟨nnn, rfl, hsp, rfl⟩ | ⟨x, rfl, hi, rfl⟩ |
      ⟨x, rfl | rfl, hi, rfl⟩ | ⟨x, y, n, rfl, hn, hi, rfl⟩
    · exact ⟨nnn, hf⟩
    · exact ⟨hsp, hf⟩
    · exact ⟨hsp, nnn, hf⟩
    · exact .inr (.inl ⟨x, hf, hi⟩)
    · exact .inr (.inr (.inl ⟨x, .inl hf, hi⟩))
    · exact .inr (.inr (.inl ⟨x, .inr hf, hi⟩))
    · exact .inr (.inr (.inr ⟨x, y, n, hf, hn, hi⟩))
  · rw [settled_returnStatus (by decide)]
    exact ⟨_, .keyWait rfl (.inl ⟨x, hf⟩)⟩

theorem step_ends (h : step s = .next t) : ∃ c, StepEnd s c t := by
  rcases step_cases s with ⟨hw, h'⟩ | ⟨hw, hr, h'⟩ | ⟨hw, hr, he, h'⟩ | ⟨i, hf, h'⟩ <;> rw [h'] at h
  · exact stepEnd_of_waitPoll hw h
  · cases h
    exact ⟨_, .fetchRange hw hr⟩
  · cases h
    exact ⟨_, .error hw hr rfl ⟨hw, hr, he⟩⟩
  · obtain ⟨u, hu, rfl⟩ := endStep_next.mp h
    exact stepEnd_of_exec hf hu

theorem StepEnd.status (h : StepEnd s c t) : t.status = some c := by
  cases h
  case success hstatus _ => exact hstatus
  all_goals rfl

theorem StepEnd.errorSeen (h : StepEnd s c t) : t.errorSeen = (s.errorSeen || c.isError) := by
  cases h
  case success _ hrecord => simpa using hrecord
  case keyWait hrecord _ => simpa using hrecord
  all_goals rfl

theorem StepEnd.failureCause (h : StepEnd s c t) (hc : c ≠ .success) : FailureCause s c := by
  cases h
  case success => exact absurd rfl hc
  case keyWait hcause => exact hcause
  case cancelled hw hcancel => exact ⟨hw, hcancel⟩
  case fetchRange hw hr => exact .inl ⟨hw, hr⟩
  case error hcause => exact hcause

/-- The one status that a step to `t` answers is the one in `t`. -/
theorem stepEnd_of_status (h : step s = .next t) (ht : t.status = some c) : StepEnd s c t := by
  obtain ⟨c', hend⟩ := step_ends h
  obtain rfl : c = c' := Option.some.inj (ht.symm.trans hend.status)
  exact hend

/-! ### From the cause to the status (R170) -/

theorem step_of_rangeCause (h : FailureCause s .memRange) : ∃ u : State, step s = .next (u.returnStatus .memRange) := by
  rcases h with ⟨hw, hr⟩ | ⟨x, hf, hi⟩ | ⟨x, hf | hf, hi⟩ | ⟨x, y, n, hf, hn, hi⟩
  · exact ⟨s, step_of_fetch_out_of_range hw hr⟩
  · exact ⟨_, hf.step_of_answer (by decide) (execIn_ldB_out_of_range x hi)⟩
  · exact ⟨_, hf.step_of_answer (by decide) (execIn_ldMemVx_out_of_range x hi)⟩
  · exact ⟨_, hf.step_of_answer (by decide) (execIn_ldVxMem_out_of_range x hi)⟩
  · have hr : s.advancePc.indexInRange params n.toNat = false :=
      (indexInRange_eq_false _ params _).mpr ⟨by omega, by simp only [State.advancePc_i, memSize_eq]; omega⟩
    exact ⟨_, hf.step_of_answer (by decide) (execIn_drw_out_of_range hr)⟩

theorem step_of_failureCause (h : FailureCause s c) : ∃ u : State, step s = .next (u.returnStatus c) := by
  cases c
  case success => exact h.elim
  case unsupportedOpcode =>
    obtain ⟨nnn, hf⟩ := h
    exact ⟨s.advancePc, hf.step_of_answer (by decide) rfl⟩
  case invalidOpcode =>
    obtain ⟨hw, hr, e, hd⟩ := h
    exact ⟨_, step_of_invalid_word hw hr hd⟩
  case stackOverflow =>
    obtain ⟨hsp, nnn, hf⟩ := h
    exact ⟨_, hf.step_of_answer (by decide) (execIn_call_overflow nnn hsp)⟩
  case stackUnderflow =>
    obtain ⟨hsp, hf⟩ := h
    exact ⟨_, hf.step_of_answer (by decide) (exec_ret_underflow (s := s.advancePc) hsp)⟩
  case memRange => exact step_of_rangeCause h
  case keyWait =>
    rcases h with ⟨x, hf⟩ | ⟨hw, hc, hnone⟩
    · exact ⟨s.advancePc.beginWait x, hf.step_of_answer (by decide) rfl⟩
    · exact ⟨_, step_of_poll_without_new_key hw hc hnone⟩
  case waitCancelled =>
    obtain ⟨hw, hc⟩ := h
    exact ⟨_, step_of_cancelled_poll hw hc⟩

theorem status_of_failureCause (h : step s = .next t) (hcause : FailureCause s c) : t.status = some c := by
  obtain ⟨u, hu⟩ := step_of_failureCause hcause
  obtain rfl := Host.Outcome.next.inj (h.symm.trans hu)
  rfl

end

/-! ### The statements -/

/-- Settles O9: the step returns INVALID_OPCODE on the advanced `PC`. -/
theorem invalidWordChangesOnlyPc : Obligations.InvalidWordChangesOnlyPc := fun s _ hw hr hd =>
  ⟨_, step_of_invalid_word hw hr hd, rfl, Bool.or_true _, rfl, advancePc_returnStatus_frame s .invalidOpcode⟩

/-- Settles O10: of the ways a step ends, the three with an error. -/
theorem errorsLeaveTheStateUnchanged : Obligations.ErrorsLeaveTheStateUnchanged := by
  intro s t c h ht hsuccess hkeyWait
  cases stepEnd_of_status h ht
  case success => exact absurd rfl hsuccess
  case keyWait => exact absurd rfl hkeyWait
  case cancelled hw _ =>
    have hframe := (endWait_frame s).trans (returnStatus_frame s.endWait .waitCancelled)
    exact ⟨fun _ => ⟨rfl, rfl, hframe⟩, by simp [hw], by simp [hw]⟩
  case fetchRange hw hr =>
    exact ⟨by simp [hw], fun _ _ => ⟨rfl, returnStatus_frame s .memRange⟩, fun _ hr' => absurd hr' (by omega)⟩
  case error hw hr _ _ =>
    exact ⟨by simp [hw], fun _ hr' => absurd hr' (by omega), fun _ _ => ⟨rfl, advancePc_returnStatus_frame s c⟩⟩

/-- Settles O11: each cause determines the status, and a step with another status than SUCCESS has the cause of its
status. -/
theorem eachStatusHasItsCause : Obligations.EachStatusHasItsCause := by
  intro s t h
  refine ⟨fun c hc => ⟨fun ht => (stepEnd_of_status h ht).failureCause hc, status_of_failureCause h⟩,
    fun ht c hcause => ?noCause, fun hno => ?success⟩
  case noCause =>
    obtain rfl : c = .success := Option.some.inj ((status_of_failureCause h hcause).symm.trans ht)
    exact hcause
  case success =>
    obtain ⟨c, hend⟩ := step_ends h
    by_cases hc : c = .success
    · exact hc ▸ hend.status
    · exact absurd (hend.failureCause hc) (hno c)

/-- Settles O12: the case of the spec's configuration of O60. -/
theorem stepsAlwaysAnswer : Obligations.StepsAlwaysAnswer := by
  intro s ⟨hm, hs⟩
  obtain ⟨t, c, h, ht, _⟩ := stepsKeepTheStateOkAtEveryConfiguration params s (le_refl 16) hm hs
  exact ⟨t, c, (stepIn_params s).symm.trans h, ht⟩

/-- Settles O13: every end of a step adds its own class to the record. -/
theorem errorRecordIsSticky : Obligations.ErrorRecordIsSticky := by
  intro s t c h ht
  rw [(stepEnd_of_status h ht).errorSeen, Bool.or_eq_true, Status.isError_iff]

/-- `PC` just past memory: the next fetch fails. -/
def pastMemory : State := { State.reset with pc := 0x1000 }

/-- `FX33` in the last two bytes of memory, with `I` at the last byte: its handler fails. -/
def digitsPastMemory : State := State.placeWord { State.reset with pc := 0xFFE, i := 0xFFF } 0xF033

/-- Refutes O55: the failing fetch at 0x1000 leaves `PC` there, and so does the failing `FX33` at 0xFFE. -/
theorem not_pcTellsFetchFailuresApart : ¬ Obligations.PcTellsFetchFailuresApart := by
  intro h
  have hfetch : step pastMemory = .next (pastMemory.returnStatus .memRange) :=
    step_of_fetch_out_of_range rfl (by decide)
  have hdigits : Fetches digitsPastMemory (.ldB 0) := ⟨rfl, by decide, by decide⟩
  have hhandler : step digitsPastMemory = .next (digitsPastMemory.advancePc.returnStatus .memRange) :=
    hdigits.step_of_answer (by decide) (execIn_ldB_out_of_range 0 (by decide))
  have ⟨_, hr, _⟩ := hdigits
  exact h _ _ _ _ rfl (by decide) hfetch rfl hr hhandler rfl rfl

end Sys2Proof.Machine
end

section
/-!
PROOFS. Reset and image load (spec/70_reset_and_hazards.md R200, R204) at any configuration and at the spec's, and that
resets and the moves of the agents (R213) keep the invariants.
-/
namespace Sys2Proof.Machine

section
variable {s t : State}

/-! ### Memory after a reset -/

/-- A sequence of writes within memory, read through the list. -/
theorem Memory.read_writeBytes_getD {size : Nat} {m : Memory} (h : Memory.wfIn size m = true) {base : Nat}
    {bs : List Byte} (hb : base + bs.length ≤ size) (a : Nat) :
    (m.writeBytes base bs).read a = if base ≤ a then bs.getD (a - base) (m.read a) else m.read a := by
  by_cases hin : base ≤ a ∧ a - base < bs.length
  · obtain ⟨hle, hlt⟩ := hin
    have hread := Memory.read_writeBytes_inside h bs hb (a - base) hlt
    rw [Nat.add_sub_cancel' hle] at hread
    rw [hread, if_pos hle, List.getD_eq_getElem _ _ hlt]
  · rw [Memory.read_writeBytes_outside m base bs a (by omega)]
    split
    · rw [List.getD_eq_default _ _ (by omega)]
    · rfl

/-- The 80 cells of the spec's font at 0 (log 31). -/
def blankMemory : Memory := Memory.writeBytes [] fontBase (fontTable.map fun _ => 0)

theorem wf_blankMemory {size : Nat} (h : 80 ≤ size) : Memory.wfIn size blankMemory = true :=
  Memory.wf_writeBytes rfl _ (.inr h)

theorem read_blankMemory (a : Nat) : blankMemory.read a = 0 := by
  rw [blankMemory, Memory.read_writeBytes_getD (size := 80) rfl (by decide), if_pos (Nat.zero_le a), Nat.sub_zero]
  by_cases ha : a < (fontTable.map fun _ => (0 : Byte)).length
  · rw [List.getD_eq_getElem _ _ ha, List.getElem_map]
  · rw [List.getD_eq_default _ _ (Nat.le_of_not_lt ha)]
    exact List.getD_eq_default fontTable 0 (by simpa using ha)

theorem wf_resetMemory {c : Config} (h80 : 80 ≤ c.memSize) (hfont : c.fontBase + c.fontTable.length ≤ c.memSize) :
    Memory.wfIn c.memSize (resetMemory c) = true :=
  Memory.wf_writeBytes (wf_blankMemory h80) _ (.inr hfont)

theorem read_resetMemory {c : Config} (h80 : 80 ≤ c.memSize) (hfont : c.fontBase + c.fontTable.length ≤ c.memSize)
    (a : Nat) : (resetMemory c).read a = if c.fontBase ≤ a then c.fontTable.getD (a - c.fontBase) 0 else 0 := by
  have hread := Memory.read_writeBytes_getD (wf_blankMemory h80) hfont a
  rwa [read_blankMemory] at hread

/-! ### The frame of a reset -/

theorem resetIn_frame (c : Config) : UnchangedExcept [.pc, .mem] State.reset (resetIn c) := by
  intro p hp
  cases p <;> simp [samePart, resetIn, State.reg, State.slot?] at hp ⊢

theorem withDraws_frame (s : State) (n : Nat) : UnchangedExcept [.draws] s { s with draws := n } := by
  intro p hp
  cases p <;> simp [samePart, State.reg, State.slot?] at hp ⊢

/-! ### The invariants -/

theorem reset_ok : StateOk State.reset ∧ PcBounded State.reset ∧ PcEven State.reset := by
  decide

/-- An accepted image lies within memory, and but for memory the loaded state is the reset state. -/
theorem hostReset_ok {image : List Byte} (h : hostReset image s = .loaded t) :
    StateOk t ∧ PcBounded t ∧ PcEven t := by
  obtain ⟨⟨_, hsp⟩, hbounded, heven⟩ := reset_ok
  rcases hostReset_cases s image with ⟨_, h'⟩ | ⟨hfits, h'⟩ <;> rw [h'] at h <;> cases h
  have hwf : Memory.wf (Memory.writeBytes [] programBase image) = true :=
    Memory.wf_writeBytes rfl image (.inr (by simp at hfits ⊢; omega))
  exact ⟨⟨hwf, hsp⟩, hbounded, heven⟩

/-- A reset that is rejected changes nothing (R204). -/
theorem applyMove_reset (image : List Byte) (s : State) :
    applyMove (.reset image) s = s ∨ hostReset image s = .loaded (applyMove (.reset image) s) := by
  simp only [applyMove, applyMoveIn, hostReset]
  cases hostResetIn params image s with
  | loaded t => exact .inr rfl
  | imageTooLarge => exact .inl rfl

end

/-! ### The statements -/

/-- Settles O59: memory is the font over 0, and the image over that. -/
theorem resetFollowsTheConfiguration : Obligations.ResetFollowsTheConfiguration := by
  intro c image s h80 hfont hbase
  refine ⟨BitVec.toNat_ofNat _ 16, resetIn_frame c, read_resetMemory h80 hfont, fun hfits => ?loaded,
    fun hlarge => ?rejected⟩
  case loaded =>
    rcases hostResetIn_cases s c image with ⟨hlarge, _⟩ | ⟨_, h⟩
    · omega
    · exact ⟨_, h, ((withDraws_frame _ s.draws).trans (setMem_frame _ _)).mono (by decide), rfl,
        Memory.read_writeBytes_getD (wf_resetMemory h80 hfont) (by omega)⟩
  case rejected =>
    rcases hostResetIn_cases s c image with ⟨_, h⟩ | ⟨hfits, _⟩
    · exact h
    · omega

/-- Settles O25: the case of the spec's configuration of O59. -/
theorem imageIsLoadedVerbatim : Obligations.ImageIsLoadedVerbatim := by
  intro image s
  obtain ⟨_, _, _, hloaded, hlarge⟩ :=
    resetFollowsTheConfiguration params image s (by decide) (by decide) (by decide)
  refine ⟨fun hfits => ?_, hlarge⟩
  obtain ⟨t, h, hframe, hdraws, hread⟩ := hloaded hfits
  rw [resetIn_params] at hframe
  simp only [resetIn_params, programBase_eq] at hread
  refine ⟨t, h, hframe, fun j hj => ?inside, fun a ha => ?outside, hdraws⟩
  case inside => rw [hread, if_pos (by omega), Nat.add_sub_cancel_left, List.getD_eq_getElem _ _ hj]
  case outside =>
    rw [hread]
    split
    · rw [List.getD_eq_default _ _ (by omega)]
    · rfl

/-- Settles O15: the reset state meets all three invariants, and an image changes memory only. -/
theorem resetStatesAreOk : Obligations.ResetStatesAreOk := ⟨reset_ok, fun _ _ _ => hostReset_ok⟩

/-- Settles O16: of the moves only a reset changes what the invariants speak of, and it leaves a state that meets them
all. -/
theorem movesKeepTheStateOk : Obligations.MovesKeepTheStateOk := by
  intro m s
  cases m
  case reset image =>
    rcases applyMove_reset image s with h | h
    · rw [h]; exact ⟨id, id, id⟩
    · obtain ⟨hok, hbounded, heven⟩ := hostReset_ok h
      exact ⟨fun _ => hok, fun _ => hbounded, fun _ => heven⟩
  all_goals exact ⟨id, id, id⟩

end Sys2Proof.Machine
end

section
/-!
PROOFS. The end of a key wait (spec/46_keys.md R153, R155): what polls and moves do to it, what becomes of its sample of
KEYS in a run, and that under fair input every wait ends (spec/70_reset_and_hazards.md R214).
-/
namespace Sys2Proof.Machine

section
variable {s t u : State}

/-! ### How a key wait goes on (spec/46_keys.md R153, R155) -/

/-- A poll ends the wait or samples KEYS. -/
theorem step_of_wait_ends_or_samples (hw : s.wait = true) (h : step s = .next t) :
    t.wait = false ∨ t.keyPrev = s.keys := by
  rw [step_of_wait hw] at h
  rcases waitPoll_cases s with ⟨_, h'⟩ | ⟨_, _, h'⟩ | ⟨_, k, _, _, _, h'⟩ <;> rw [h'] at h <;> cases h
  · exact .inl rfl
  · exact .inr rfl
  · exact .inl rfl

theorem newKeys_ne_zero {key : Nat} (hkey : key < 16) (hreleased : s.keyPrev.getLsbD key = false)
    (hheld : s.keys.getLsbD key = true) : s.newKeys ≠ 0 := by
  intro hnone
  have hbit := getLsbD_newlyHeld s.keys s.keyPrev hkey
  rw [hheld, hreleased, ← State.newKeys, hnone] at hbit
  exact absurd hbit (by simp)

/-- A poll that sees a newly held key ends the wait, by cancel or by completion. -/
theorem step_of_newKeys_ends (hw : s.wait = true) (hnew : s.newKeys ≠ 0) : ∃ t, step s = .next t ∧ t.wait = false := by
  rw [step_of_wait hw]
  rcases waitPoll_cases s with ⟨_, h⟩ | ⟨_, hnone, _⟩ | ⟨_, k, _, _, _, h⟩
  · exact ⟨_, h, rfl⟩
  · exact absurd hnone hnew
  · exact ⟨_, h, rfl⟩

/-- Of the moves only a reset touches the key wait, and it ends it. -/
theorem applyMove_keeps_wait (m : Move) (s : State) :
    ((applyMove m s).wait = s.wait ∧ (applyMove m s).keyPrev = s.keyPrev) ∨
    ((applyMove m s).wait = false ∧ ∃ image, m = .reset image) := by
  cases m
  case reset image =>
    rcases applyMove_reset image s with h | h
    · rw [h]; exact .inl ⟨rfl, rfl⟩
    · rcases hostReset_cases s image with ⟨_, h'⟩ | ⟨_, h'⟩
      · rw [h'] at h; cases h
      · obtain h := LoadResult.loaded.inj (h'.symm.trans h)
        rw [← h]; exact .inr ⟨rfl, image, rfl⟩
  all_goals exact .inl ⟨rfl, rfl⟩

/-! ### Runs -/

variable {es : Schedule} {n : Nat}

theorem stateAt_succ (ht : stateAt es s n = some t) (h : happen (es n) t = .next u) :
    stateAt es s (n + 1) = some u := by
  simp [stateAt, ht, h]

theorem happen_of_stateAt_succ (hu : stateAt es s (n + 1) = some u) :
    ∃ t, stateAt es s n = some t ∧ happen (es n) t = .next u := by
  rw [stateAt] at hu
  cases ht : stateAt es s n with
  | none => simp [ht] at hu
  | some t =>
    cases h : happen (es n) t with
    | next v =>
      simp only [ht, h, Option.some.injEq] at hu
      exact ⟨t, rfl, by rw [h, hu]⟩
    | fault | refused => simp [ht, h] at hu

/-- While a wait goes on with no further step, KEY_PREV is the sample of the last poll. -/
theorem keyPrev_of_waiting {m k : Nat} (hu : stateAt es s m = some u) (huw : u.wait = true) (hstep : es m = .step)
    (hmoves : ∀ j, m < j → j < k → es j ≠ .step)
    (hwait : ∀ j t, m < j → stateAt es s j = some t → t.wait = true) {j : Nat} (hmj : m + 1 ≤ j) (hjk : j ≤ k) :
    ∀ v, stateAt es s j = some v → v.keyPrev = u.keys := by
  induction j, hmj using Nat.le_induction with
  | base =>
    intro v hv
    obtain ⟨t, ht, h⟩ := happen_of_stateAt_succ hv
    obtain rfl : u = t := Option.some.inj (hu.symm.trans ht)
    rw [hstep] at h
    exact (step_of_wait_ends_or_samples huw h).resolve_left (by simp [hwait _ v (Nat.lt_succ_self m) hv])
  | succ j hmj ih =>
    intro v hv
    obtain ⟨t, ht, h⟩ := happen_of_stateAt_succ hv
    have hprev : t.keyPrev = u.keys := ih (by omega) t ht
    cases he : es j with
    | step => exact absurd he (hmoves j (by omega) (by omega))
    | move m =>
      rw [he] at h
      cases h
      rcases applyMove_keeps_wait m t with ⟨_, hkeep⟩ | ⟨hend, _⟩
      · exact hkeep.trans hprev
      · simp [hwait _ _ (by omega) hv] at hend

end

/-! ### The statement -/

/-- Settles O56: if the wait never ended, the first of the two steps that P5 gives would sample KEYS with the key
released, the moves up to the second would keep that sample, and the second, a poll that sees the key held, would end
the wait. -/
theorem fairInputEndsEveryKeyWait : Obligations.FairInputEndsEveryKeyWait := by
  refine ⟨fun es s hfair n t ht hw => ?ends, fun e t u hw h hend => ?onlyWays⟩
  case ends =>
    by_contra hno
    have hwait : ∀ j u, n < j → stateAt es s j = some u → u.wait = true := fun j u hj hu =>
      Bool.eq_true_of_not_eq_false fun hend => hno ⟨j, u, hj, hu, hend⟩
    obtain ⟨m, k, u, v, hnm, hmk, hm, hk, hmoves, hu, hv, key, hkey, hreleased, hheld⟩ := hfair n t ht hw
    have huw : u.wait = true := by
      rcases hnm.eq_or_lt with rfl | hlt
      · exact Option.some.inj (ht.symm.trans hu) ▸ hw
      · exact hwait m u hlt hu
    have hprev : v.keyPrev = u.keys :=
      keyPrev_of_waiting hu huw hm hmoves (fun j t hj => hwait j t (by omega)) hmk le_rfl v hv
    have hnew : v.newKeys ≠ 0 := newKeys_ne_zero hkey (by rw [hprev, hreleased]) hheld
    obtain ⟨w, hstep, hend⟩ := step_of_newKeys_ends (hwait k v (by omega) hv) hnew
    exact hno ⟨k + 1, w, by omega, stateAt_succ hv (by rw [hk]; exact hstep), hend⟩
  case onlyWays =>
    cases e
    case step =>
      refine .inl ⟨rfl, ?_⟩
      by_contra hneither
      obtain ⟨hc, hnone⟩ := not_or.mp hneither
      have hpoll := step_of_poll_without_new_key hw (Bool.eq_false_of_not_eq_true hc) (not_not.mp hnone)
      obtain rfl := Host.Outcome.next.inj (hpoll.symm.trans h)
      exact absurd (hw.symm.trans hend) (by decide)
    case move m =>
      cases h
      rcases applyMove_keeps_wait m t with ⟨hkeep, _⟩ | ⟨_, image, rfl⟩
      · exact absurd (hw.symm.trans (hkeep.symm.trans hend)) (by decide)
      · exact .inr ⟨image, rfl⟩

end Sys2Proof.Machine
end

section
/-!
PROOFS. The words of the spec's test vectors (spec/95_test_vectors.md).
-/
namespace Sys2Proof

/-- Settles O5: each valid word is the encoding of its instruction, which the decoder gives back; the other one has
`N = 5` in family 9. -/
theorem exampleWordsDecode : Obligations.ExampleWordsDecode :=
  ⟨decode_encode (i := .addImm 0xA 0x23) rfl, decode_encode (i := .addReg 0x1 0xA) rfl,
    decode_encode (i := .sys 0x1E0) rfl, rfl, decode_encode (i := .call 0x210) rfl,
    decode_encode (i := .ldB 0x0) rfl, decode_encode (i := .drw 0x1 0x2 0x5) rfl,
    decode_encode (i := .ldVxK 0x5) rfl⟩

end Sys2Proof
end
